-- ==== Sys2Proof/Word.lean ====
section
/-! DEFINITION. The two word types of the block and the one conversion between an index and a register.

A byte is an unsigned 8-bit value (00_scope R9); a host-visible register has `REGW` = 32 bits (R6). Indices and
lengths are natural numbers (00_scope R7 allows it, log 2). -/

namespace Sys2Proof

/-- A buffer element or an 8-bit register: an unsigned 8-bit value (00_scope R9, `BYTE_W`). -/
abbrev Byte := BitVec 8

/-- A host-visible register (00_scope R6, `REGW` = 32). -/
abbrev Word32 := BitVec 32

/-- A register number, 0..15 (10_state R40). -/
abbrev RegNum := BitVec 4

/-- `zext_32` of an `IW`-bit index or length (00_scope R9): exact for every value below `2^32`. -/
def zext32 (n : Nat) : Word32 := BitVec.ofNat 32 n

/-- `zext_32` of an 8-bit register (00_scope R9). -/
def byteToWord (b : Byte) : Word32 := b.setWidth 32

end Sys2Proof
end

