-- ==== Sys2Proof/Config.lean ====
section
/-! DEFINITION. What is fixed for one build of the block, and the values the spec leaves free.

The parameters of 00_scope R6 with the constraint of R7, the names of the units and buffers the parameters belong
to, and two constants without a body: the bytes the spec calls unspecified. -/

namespace Sys2Proof

/-- The two units (00_scope R1): `ENC` has number 0, `DEC` number 1. -/
inductive UnitId where
  | enc
  | dec
deriving DecidableEq, Repr

namespace UnitId

/-- The other unit. -/
def other : UnitId → UnitId
  | .enc => .dec
  | .dec => .enc

end UnitId

/-- The four byte buffers (20_memory R60). -/
inductive BufferId where
  | encIbuf
  | encObuf
  | decIbuf
  | decObuf
deriving DecidableEq, Repr

namespace BufferId

/-- `U.IBUF`. -/
def input : UnitId → BufferId
  | .enc => .encIbuf
  | .dec => .decIbuf

/-- `U.OBUF`. -/
def output : UnitId → BufferId
  | .enc => .encObuf
  | .dec => .decObuf

end BufferId

/-- The OPEN parameters of 00_scope R6. The model holds them in a field of State that no step changes (log 1), so that
a statement about every state is a statement about every configuration. -/
structure Params where
  /-- `ENC_IN_CAP` -/
  encInCap : Nat
  /-- `ENC_OUT_CAP` -/
  encOutCap : Nat
  /-- `DEC_IN_CAP` -/
  decInCap : Nat
  /-- `DEC_OUT_CAP` -/
  decOutCap : Nat
  /-- `IW` -/
  iw : Nat
deriving DecidableEq, Repr

namespace Params

/-- `U_IN_CAP`. -/
def inCap (p : Params) : UnitId → Nat
  | .enc => p.encInCap
  | .dec => p.decInCap

/-- `U_OUT_CAP`. -/
def outCap (p : Params) : UnitId → Nat
  | .enc => p.encOutCap
  | .dec => p.decOutCap

/-- The size of a buffer (20_memory R60). -/
def capOf (p : Params) : BufferId → Nat
  | .encIbuf => p.encInCap
  | .encObuf => p.encOutCap
  | .decIbuf => p.decInCap
  | .decObuf => p.decOutCap

/-- The largest of the four capacities. -/
def maxCap (p : Params) : Nat := max (max p.encInCap p.encOutCap) (max p.decInCap p.decOutCap)

/-- 00_scope R6 and R7: `1 <= IW <= 32` and `2^IW > max(capacities) + 2`. A configuration that breaks it is refused. -/
def wf (p : Params) : Bool := decide (1 ≤ p.iw) && decide (p.iw ≤ 32) && decide (p.maxCap + 2 < 2 ^ p.iw)

/-- The reference configuration `RC` of 00_scope R6. -/
def reference : Params :=
  { encInCap := 1024, encOutCap := 2048, decInCap := 2048, decOutCap := 261120, iw := 32 }

end Params

namespace Config

/-- FREE VALUE (20_memory R71, 93 S1): the byte a buffer holds at an index nothing has written since the latest reset.
Its arguments are the number of resets so far, the buffer and the index: stable between two reads (20_memory R66),
new after every reset (70_reset_and_hazards R280). Log 6. -/
opaque unwrittenByte : Nat → BufferId → Nat → Byte

/-- FREE VALUE (42_host_operations R188, R189; 93 S14): the unspecified byte a host read at or above a buffer's
capacity returns. Its argument is a counter, so that two such reads need not agree. Log 7. -/
opaque outsideByte : Nat → Byte

end Config

end Sys2Proof
end

