-- ==== Sys2Proof/Syntax.lean ====
section
/-! DEFINITION. The operations of the block: one constructor of `Instr` per row of opcode_table.json (30_encoding R104),
and the forms in which an operation reaches the block, before it is decoded (30_encoding R90). -/

namespace Sys2Proof

/-- The operations of the block (30_encoding R104), in the order of opcode_table.json. -/
inductive Instr where
  /-- `PAIR`: append `value` to the decoder's output `count` times (41_decoder R164). -/
  | pair (count value : Byte)
  /-- `PAIR.ZERO`: the pair with count 0, consumed, nothing appended (41_decoder R165). -/
  | pairZero (value : Byte)
  /-- `E_LOAD` (40_encoder R121) -/
  | eLoad
  /-- `E_RINIT` (40_encoder R122) -/
  | eRinit
  /-- `E_OUTER` (40_encoder R123) -/
  | eOuter
  /-- `E_CINIT` (40_encoder R124) -/
  | eCinit
  /-- `E_CMP` (40_encoder R125) -/
  | eCmp
  /-- `E_EMIT` (40_encoder R126) -/
  | eEmit
  /-- `E_ADV` (40_encoder R127) -/
  | eAdv
  /-- `E_RET` (40_encoder R128) -/
  | eRet
  /-- `D_INIT` (41_decoder R151) -/
  | dInit
  /-- `D_RDCNT` (41_decoder R152) -/
  | dRdcnt
  /-- `D_RDVAL` (41_decoder R153) -/
  | dRdval
  /-- `D_LOOP` (41_decoder R154) -/
  | dLoop
  /-- `D_APPEND` (41_decoder R155) -/
  | dAppend
  /-- `D_NEXT` (41_decoder R156) -/
  | dNext
  /-- `D_RET` (41_decoder R157) -/
  | dRet
  /-- `H_START`: a `CTRL` word with bit 0 set; bit 1 (`CLEAR`) and bits 31..2 are carried and ignored
  (42_host_operations R183, R185). -/
  | hStart (u : UnitId) (clear : Bool) (reserved : BitVec 30)
  /-- `H_CLEAR`: a `CTRL` word with bits 1..0 = 10; bits 31..2 are carried and ignored (R184, R185). -/
  | hClear (u : UnitId) (reserved : BitVec 30)
  /-- `H_CTRL_NOP`: a `CTRL` word with bits 1..0 = 00; bits 31..2 are carried and ignored (R185). -/
  | hCtrlNop (u : UnitId) (reserved : BitVec 30)
  /-- `H_WR_IBUF(U, k, b)` (42_host_operations R181) -/
  | hWrIbuf (u : UnitId) (k : Nat) (b : Byte)
  /-- `H_WR_ILEN(U, n)` (R182) -/
  | hWrIlen (u : UnitId) (n : Word32)
  /-- `H_RD_STATUS(U)` (R186) -/
  | hRdStatus (u : UnitId)
  /-- `H_RD_REG(U, n)` (R187) -/
  | hRdReg (u : UnitId) (n : RegNum)
  /-- `H_RD_OBUF(U, k)` (R188) -/
  | hRdObuf (u : UnitId) (k : Nat)
  /-- `H_RD_IBUF(U, k)` (R189) -/
  | hRdIbuf (u : UnitId) (k : Nat)
  /-- `H_WR_REG(U, n, w)` (R190, R180) -/
  | hWrReg (u : UnitId) (n : RegNum) (w : Word32)
deriving DecidableEq, Repr

/-- The host operations of format `host`: "selected by name, no bit pattern" (30_encoding R104). -/
inductive HostCall where
  | wrIbuf (u : UnitId) (k : Nat) (b : Byte)
  | wrIlen (u : UnitId) (n : Word32)
  | rdStatus (u : UnitId)
  | rdReg (u : UnitId) (n : RegNum)
  | rdObuf (u : UnitId) (k : Nat)
  | rdIbuf (u : UnitId) (k : Nat)
  | wrReg (u : UnitId) (n : RegNum) (w : Word32)
deriving DecidableEq, Repr

/-- An operation as it reaches the block, before decoding: the formats of 30_encoding R90 and R104. The unit of a state
code and of a `CTRL` word stands beside the bits (R104: "prefixed by the unit"). -/
inductive Fetched where
  /-- the two bytes of a pair in stream order, even index first (20_memory R62) -/
  | pair16 (first second : Byte)
  /-- a unit's state register -/
  | state4 (u : UnitId) (code : BitVec 4)
  /-- a word written to a unit's `CTRL` -/
  | ctrl32 (u : UnitId) (w : Word32)
  /-- a host operation by name -/
  | named (c : HostCall)
deriving DecidableEq, Repr

/-- Why a fetched form is no operation. -/
inductive Reject where
  /-- codes 0, 9, 10: `IDLE`, `DONE`, `FAULT`, in which a unit takes no step (30_encoding R95, R96; 40_encoder R129) -/
  | restingState
  /-- codes 11..15, and 8 in `DEC`: no state (30_encoding R99 (c)) -/
  | unusedState
  /-- a stream with one byte left: the trailing byte has no partner (30_encoding R99 (b)) -/
  | unpairedByte
  /-- no byte is left in the stream (30_encoding R94) -/
  | endOfStream
deriving DecidableEq, Repr

end Sys2Proof
end

