-- ==== Sys2Proof/WellFormed.lean ====
section
/-! DEFINITION. Which terms of `Instr` are the one name of their words.

Every operand is bounded by its type but for one check: a pair whose count is 0 is the row `PAIR.ZERO`, the sub-case
30_encoding R99 (a) and R104 single out, so `Instr.pair` with count 0 names no word of its own. -/

namespace Sys2Proof

/-- The check (30_encoding R104): the general row is used for a count other than 0. -/
def Instr.wf : Instr → Bool
  | .pair count _ => decide (count ≠ 0#8)
  | .pairZero _ => true
  | .eLoad | .eRinit | .eOuter | .eCinit | .eCmp | .eEmit | .eAdv | .eRet => true
  | .dInit | .dRdcnt | .dRdval | .dLoop | .dAppend | .dNext | .dRet => true
  | .hStart _ _ _ | .hClear _ _ | .hCtrlNop _ _ => true
  | .hWrIbuf _ _ _ | .hWrIlen _ _ | .hRdStatus _ | .hRdReg _ _ | .hRdObuf _ _ | .hRdIbuf _ _ | .hWrReg _ _ _ => true

end Sys2Proof
end

