-- ==== Sys2Proof/Decode.lean ====
section
/-! DEFINITION. The decoder of the four forms of 30_encoding R90 and R104, total, rejecting by name; after it the encoder.

The pair word: first byte count, second byte value (30_encoding R91). The state codes: 30_encoding R95, R96. The `CTRL`
word: decoded from its bits 1..0 alone (R97). The host operations by name (R104). -/

namespace Sys2Proof

/-- The pair word (30_encoding R91, R104): every pattern is the general row, count 0 is the sub-case row. -/
def decodePair16 (first second : Byte) : Instr :=
  if first = 0#8 then .pairZero second else .pair first second

/-- The encoder's state codes (30_encoding R95). -/
def decodeEncCode (code : BitVec 4) : Except Reject Instr :=
  match code.toNat with
  | 1 => .ok .eLoad
  | 2 => .ok .eRinit
  | 3 => .ok .eOuter
  | 4 => .ok .eCinit
  | 5 => .ok .eCmp
  | 6 => .ok .eEmit
  | 7 => .ok .eAdv
  | 8 => .ok .eRet
  | 0 | 9 | 10 => .error .restingState
  | _ => .error .unusedState

/-- The decoder's state codes (30_encoding R96). -/
def decodeDecCode (code : BitVec 4) : Except Reject Instr :=
  match code.toNat with
  | 1 => .ok .dInit
  | 2 => .ok .dRdcnt
  | 3 => .ok .dRdval
  | 4 => .ok .dLoop
  | 5 => .ok .dAppend
  | 6 => .ok .dNext
  | 7 => .ok .dRet
  | 0 | 9 | 10 => .error .restingState
  | _ => .error .unusedState

/-- The reserved field of a `CTRL` word, bits 31..2 (30_encoding R90). -/
def ctrlReserved (w : Word32) : BitVec 30 := w.extractLsb' 2 30

/-- A word written to `CTRL` (30_encoding R97): bit 0 is `START`, bit 1 is `CLEAR`, `START` wins. -/
def decodeCtrl (u : UnitId) (w : Word32) : Instr :=
  if w.getLsbD 0 then .hStart u (w.getLsbD 1) (ctrlReserved w)
  else if w.getLsbD 1 then .hClear u (ctrlReserved w)
  else .hCtrlNop u (ctrlReserved w)

/-- A host operation by name (30_encoding R104). -/
def decodeCall : HostCall → Instr
  | .wrIbuf u k b => .hWrIbuf u k b
  | .wrIlen u n => .hWrIlen u n
  | .rdStatus u => .hRdStatus u
  | .rdReg u n => .hRdReg u n
  | .rdObuf u k => .hRdObuf u k
  | .rdIbuf u k => .hRdIbuf u k
  | .wrReg u n w => .hWrReg u n w

/-- The decoder: the operation a fetched form stands for, or why it is none. -/
def decode : Fetched → Except Reject Instr
  | .pair16 first second => .ok (decodePair16 first second)
  | .state4 .enc code => decodeEncCode code
  | .state4 .dec code => decodeDecCode code
  | .ctrl32 u w => .ok (decodeCtrl u w)
  | .named c => .ok (decodeCall c)

/-- The next pair of a stream of bytes and the rest of the stream (30_encoding R94). -/
def decodeBytes : List Byte → Except Reject (Instr × List Byte)
  | [] => .error .endOfStream
  | [_] => .error .unpairedByte
  | first :: second :: rest => .ok (decodePair16 first second, rest)

/-- A whole encoded buffer as the decoder's program (30_encoding R94, R102): `encoded ::= pair*`. -/
def decodeStream : List Byte → Except Reject (List Instr)
  | [] => .ok []
  | [_] => .error .unpairedByte
  | first :: second :: rest =>
    match decodeStream rest with
    | .ok is => .ok (decodePair16 first second :: is)
    | .error r => .error r

/-! ## The encoder -/

/-- A `CTRL` word from its fields, most significant first: `reserved[31:2]`, `CLEAR[1]`, `START[0]` (30_encoding R90). -/
def ctrlWord (reserved : BitVec 30) (clear start : Bool) : Word32 :=
  reserved ++ BitVec.ofBool clear ++ BitVec.ofBool start

/-- The form in which an operation reaches the block (30_encoding R90, R91, R95 to R97, R104). -/
def encode : Instr → Fetched
  | .pair count value => .pair16 count value
  | .pairZero value => .pair16 0#8 value
  | .eLoad => .state4 .enc 1#4
  | .eRinit => .state4 .enc 2#4
  | .eOuter => .state4 .enc 3#4
  | .eCinit => .state4 .enc 4#4
  | .eCmp => .state4 .enc 5#4
  | .eEmit => .state4 .enc 6#4
  | .eAdv => .state4 .enc 7#4
  | .eRet => .state4 .enc 8#4
  | .dInit => .state4 .dec 1#4
  | .dRdcnt => .state4 .dec 2#4
  | .dRdval => .state4 .dec 3#4
  | .dLoop => .state4 .dec 4#4
  | .dAppend => .state4 .dec 5#4
  | .dNext => .state4 .dec 6#4
  | .dRet => .state4 .dec 7#4
  | .hStart u clear reserved => .ctrl32 u (ctrlWord reserved clear true)
  | .hClear u reserved => .ctrl32 u (ctrlWord reserved true false)
  | .hCtrlNop u reserved => .ctrl32 u (ctrlWord reserved false false)
  | .hWrIbuf u k b => .named (.wrIbuf u k b)
  | .hWrIlen u n => .named (.wrIlen u n)
  | .hRdStatus u => .named (.rdStatus u)
  | .hRdReg u n => .named (.rdReg u n)
  | .hRdObuf u k => .named (.rdObuf u k)
  | .hRdIbuf u k => .named (.rdIbuf u k)
  | .hWrReg u n w => .named (.wrReg u n w)

/-- The two bytes of a pair in stream order (20_memory R62), for an operation of the pair stream. -/
def encodeBytes : Instr → List Byte
  | .pair count value => [count, value]
  | .pairZero value => [0#8, value]
  | _ => []

/-! ## Words as opcode_table.json numbers them -/

/-- The fetched form of a word of the table (log 13). 16 bits are a `pair16`: bits 15..8 are the count, the byte at the
even index, bits 7..0 the value (30_encoding R90). Up to 8 bits are a `state4` of `ENC`: the table gives the codes of the
two units the same bits and no unit. 32 bits are a `ctrl32` of `ENC`. -/
def fetchedOfTableWord (nbits w : Nat) : Option Fetched :=
  if nbits = 16 then some (.pair16 (BitVec.ofNat 8 (w / 256)) (BitVec.ofNat 8 w))
  else if nbits = 32 then some (.ctrl32 .enc (BitVec.ofNat 32 w))
  else if nbits ≤ 8 ∧ w < 16 then some (.state4 .enc (BitVec.ofNat 4 w))
  else none

/-- The operation the decoder reads from a word of the table, none where it refuses. -/
def decodeTableWord (nbits w : Nat) : Option Instr :=
  match fetchedOfTableWord nbits w with
  | none => none
  | some f =>
    match decode f with
    | .ok i => some i
    | .error _ => none

end Sys2Proof
end

