-- ==== Sys2Proof/Machine/State.lean ====
section
/-! DEFINITION. The state of the block (10_state R20), the model's own fields beside it, the ways a step can stop, and the
state after reset (10_state R45). -/

namespace Sys2Proof.Machine

/-- A buffer's written bytes (20_memory R61): (index, byte) pairs, indices strictly rising. An index that is not listed
has no value of its own: nothing has written it since the latest reset (20_memory R71, log 6). -/
abbrev Memory := List Host.Cell

/-- The encoder's states (30_encoding R95), without the unused codes (93 S5). -/
inductive EncSt where
  | idle
  | eLoad
  | eRinit
  | eOuter
  | eCinit
  | eCmp
  | eEmit
  | eAdv
  | eRet
  | done
  | fault
deriving DecidableEq, Repr

/-- The decoder's states (30_encoding R96), without the unused codes (93 S5). -/
inductive DecSt where
  | idle
  | dInit
  | dRdcnt
  | dRdval
  | dLoop
  | dAppend
  | dNext
  | dRet
  | done
  | fault
deriving DecidableEq, Repr

/-- The two faults a micro-operation can raise (60_exceptions R240). -/
inductive UnitFault where
  | decodeError
  | outputOverflow
deriving DecidableEq, Repr

/-- The content of `U.err` (30_encoding R98), without the codes 3..15 (93 S5). -/
inductive ErrCode where
  | none
  | decodeError
  | outputOverflow
deriving DecidableEq, Repr

/-- The encoder unit (10_state R21 to R28). -/
structure Enc where
  /-- `ENC.IBUF` (R21) -/
  ibuf : Memory
  /-- `ENC.ILEN` (R22) -/
  ilen : Nat
  /-- `ENC.OBUF` (R23) -/
  obuf : Memory
  /-- `ENC.OLEN` (R24) -/
  olen : Nat
  /-- `ENC.i` (R25) -/
  i : Nat
  /-- `ENC.count` (R26) -/
  count : Byte
  /-- `ENC.val` (R27) -/
  val : Byte
  /-- `ENC.st` (R28) -/
  st : EncSt
  /-- `ENC.err` (R28) -/
  err : ErrCode
deriving DecidableEq, Repr

/-- The decoder unit (10_state R29 to R37). -/
structure Dec where
  /-- `DEC.IBUF` (R29) -/
  ibuf : Memory
  /-- `DEC.ILEN` (R30) -/
  ilen : Nat
  /-- `DEC.OBUF` (R31) -/
  obuf : Memory
  /-- `DEC.OLEN` (R32) -/
  olen : Nat
  /-- `DEC.i` (R33) -/
  i : Nat
  /-- `DEC.count` (R34) -/
  count : Byte
  /-- `DEC.value` (R35) -/
  value : Byte
  /-- `DEC.j` (R36) -/
  j : Byte
  /-- `DEC.st` (R37) -/
  st : DecSt
  /-- `DEC.err` (R37) -/
  err : ErrCode
deriving DecidableEq, Repr

/-- One turn of the total order of steps (20_memory R73): who moves next, and how (log 3). -/
inductive Turn where
  /-- the reset input (70_reset_and_hazards R280) -/
  | reset
  /-- one micro-operation of a unit (40_encoder R120, 41_decoder R150) -/
  | micro (u : UnitId)
  /-- one whole pair word of the decoder as one step, the big step of 41_decoder R164 (log 10) -/
  | pair
  /-- the host writes a word to `CTRL` (42_host_operations R183 to R185) -/
  | ctrl (u : UnitId) (w : Word32)
  /-- the host performs an operation by name (42_host_operations R180) -/
  | call (c : HostCall)
deriving DecidableEq, Repr

/-- What a host read returns (42_host_operations R187 to R189). -/
inductive Reply where
  | reg (w : Word32)
  | byte (b : Byte)
deriving DecidableEq, Repr

end Sys2Proof.Machine

namespace Sys2Proof.Machine

/-- The state: the two units (10_state R20), the configuration (00_scope R6, log 1), and the model's own fields. -/
structure State where
  /-- the parameters; no step changes them (log 1) -/
  cfg : Params
  /-- the encoder unit -/
  enc : Enc
  /-- the decoder unit -/
  dec : Dec
  /-- MODEL: the turns still to come, first one first (20_memory R73, log 3) -/
  agenda : List Turn
  /-- MODEL: the unit that moves next while the agenda is empty (70_reset_and_hazards R293, log 4) -/
  nextUnit : UnitId
  /-- MODEL: what the host's reads returned, oldest first (log 5) -/
  replies : List Reply
  /-- MODEL: the number of resets so far, argument of `Config.unwrittenByte` (log 6) -/
  resets : Nat
  /-- MODEL: the number of bytes drawn so far, argument of `Config.outsideByte` (log 7) -/
  draws : Nat
deriving DecidableEq, Repr

/-- Why the model stops with a fault. (The block's own faults are NEXT states, 60_exceptions R245.) -/
inductive Fault where
  /-- Raised by a unit's buffer read (`E_OUTER`, `E_CMP`, `D_RDCNT`, `D_RDVAL`, and the fetch of a pair) at an index the
  buffer does not have. 20_memory R67 says no run makes such a read. SAFE (log 9). -/
  | readOutsideBuffer (u : UnitId) (k : Nat)
deriving DecidableEq, Repr

/-- Why the model refuses a step. -/
inductive Refusal where
  /-- Raised by `exec` for an operation without a meaning. SAFE. -/
  | notModelled (mnemonic : String)
  /-- Raised by `step` for a configuration that breaks 00_scope R7: "refused". SAFE (log 12). -/
  | badParameters
  /-- Raised by `step` for a state code that is no state: "a model error, to be refused" (30_encoding R99 (c)); the
  state types do not hold such a code. SAFE (log 18). -/
  | unusedStateCode
deriving DecidableEq, Repr

/-- The encoder's registers after reset (10_state R45); no byte of its buffers is written. -/
def Enc.reset : Enc :=
  { ibuf := [], ilen := 0, obuf := [], olen := 0, i := 0, count := 0#8, val := 0#8, st := .idle, err := .none }

/-- The decoder's registers after reset (10_state R45); no byte of its buffers is written. -/
def Dec.reset : Dec :=
  { ibuf := [], ilen := 0, obuf := [], olen := 0, i := 0, count := 0#8, value := 0#8, j := 0#8, st := .idle,
    err := .none }

/-- The machine right after reset (10_state R45, 70_reset_and_hazards R281), in the reference configuration (log 1) and
with no turn to come (log 3). -/
def State.reset : State :=
  { cfg := Params.reference, enc := Enc.reset, dec := Dec.reset, agenda := [], nextUnit := .enc, replies := [],
    resets := 0, draws := 0 }

end Sys2Proof.Machine
end

