-- ==== Sys2Proof/Machine/Flags.lean ====
section
/-! DEFINITION. The codes of the state and fault registers, the three status flags, the `STATUS` word and the event
output: every one a function of `U.st` and `U.err` (10_state R39, R42; 60_exceptions R250). -/

namespace Sys2Proof.Machine

/-- The code of an encoder state (30_encoding R95). -/
def EncSt.code : EncSt → BitVec 4
  | .idle => 0#4
  | .eLoad => 1#4
  | .eRinit => 2#4
  | .eOuter => 3#4
  | .eCinit => 4#4
  | .eCmp => 5#4
  | .eEmit => 6#4
  | .eAdv => 7#4
  | .eRet => 8#4
  | .done => 9#4
  | .fault => 10#4

/-- The code of a decoder state (30_encoding R96). -/
def DecSt.code : DecSt → BitVec 4
  | .idle => 0#4
  | .dInit => 1#4
  | .dRdcnt => 2#4
  | .dRdval => 3#4
  | .dLoop => 4#4
  | .dAppend => 5#4
  | .dNext => 6#4
  | .dRet => 7#4
  | .done => 9#4
  | .fault => 10#4

/-- The code of `U.err` (30_encoding R98). -/
def ErrCode.code : ErrCode → BitVec 4
  | .none => 0#4
  | .decodeError => 1#4
  | .outputOverflow => 2#4

/-- `code(F)` of a fault (60_exceptions R245). -/
def UnitFault.errCode : UnitFault → ErrCode
  | .decodeError => .decodeError
  | .outputOverflow => .outputOverflow

/-- The encoder's active states (00_scope R12, 30_encoding R95). -/
def EncSt.active : EncSt → Bool
  | .idle | .done | .fault => false
  | .eLoad | .eRinit | .eOuter | .eCinit | .eCmp | .eEmit | .eAdv | .eRet => true

/-- The decoder's active states (00_scope R12, 30_encoding R96). -/
def DecSt.active : DecSt → Bool
  | .idle | .done | .fault => false
  | .dInit | .dRdcnt | .dRdval | .dLoop | .dAppend | .dNext | .dRet => true

/-- `BUSY` (10_state R39). -/
def State.busy (u : UnitId) (s : State) : Bool :=
  match u with
  | .enc => s.enc.st.active
  | .dec => s.dec.st.active

/-- `DONE` (10_state R39). -/
def State.doneFlag (u : UnitId) (s : State) : Bool :=
  match u with
  | .enc => decide (s.enc.st = .done)
  | .dec => decide (s.dec.st = .done)

/-- `ERR` (10_state R39). -/
def State.errFlag (u : UnitId) (s : State) : Bool :=
  match u with
  | .enc => decide (s.enc.st = .fault)
  | .dec => decide (s.dec.st = .fault)

/-- `U.st = IDLE` (10_state R39). -/
def State.idleFlag (u : UnitId) (s : State) : Bool :=
  match u with
  | .enc => decide (s.enc.st = .idle)
  | .dec => decide (s.dec.st = .idle)

/-- The content of `U.st` as its 4-bit code. -/
def State.stCode (u : UnitId) (s : State) : BitVec 4 :=
  match u with
  | .enc => s.enc.st.code
  | .dec => s.dec.st.code

/-- The content of `U.err` as its 4-bit code. -/
def State.errCode (u : UnitId) (s : State) : BitVec 4 :=
  match u with
  | .enc => s.enc.err.code
  | .dec => s.dec.err.code

/-- `status32` (10_state R42, 30_encoding R90), most significant field first: `reserved[31:12]`, `STATE[11:8]`,
`ERRCODE[7:4]`, `reserved[3]`, `ERR[2]`, `DONE[1]`, `BUSY[0]`. -/
def State.status (u : UnitId) (s : State) : Word32 :=
  0#20 ++ s.stCode u ++ s.errCode u ++ 0#1 ++ BitVec.ofBool (s.errFlag u) ++ BitVec.ofBool (s.doneFlag u) ++
    BitVec.ofBool (s.busy u)

/-- The event output `evt_U = DONE or ERR` (60_exceptions R250). -/
def State.event (u : UnitId) (s : State) : Bool := s.doneFlag u || s.errFlag u

end Sys2Proof.Machine
end

