-- ==== Sys2Proof/Machine/Ops.lean ====
section
/-! DEFINITION. The named operations over buffers and units that the meanings share: reading and writing bytes, raising a
fault and leaving it (60_exceptions R245, R249), reset (70_reset_and_hazards R280). -/

namespace Sys2Proof.Machine

/-- What a step answers. -/
abbrev Answer := Host.Outcome State Fault Refusal

/-! ## Bytes of a buffer -/

/-- The byte written at an index, none where nothing has written (log 6). -/
def Memory.find : Memory → Nat → Option Byte
  | [], _ => none
  | cell :: rest, k => if cell.1 = k then some cell.2 else Memory.find rest k

/-- Writes one byte, keeping the indices strictly rising. -/
def Memory.write : Memory → Nat → Byte → Memory
  | [], k, b => [(k, b)]
  | cell :: rest, k, b =>
    if k < cell.1 then (k, b) :: cell :: rest
    else if k = cell.1 then (k, b) :: rest
    else cell :: Memory.write rest k b

/-- Writes `n` copies of a byte at the indices `k .. k+n-1`. -/
def Memory.writeRun : Nat → Memory → Nat → Byte → Memory
  | 0, m, _, _ => m
  | n + 1, m, k, b => Memory.writeRun n (Memory.write m k b) (k + 1) b

/-- The canonical form: indices strictly rising. (An unlisted index reads as no value, so no entry can equal it.) -/
abbrev Memory.wf (m : Memory) : Prop := (m.map Prod.fst).Pairwise (· < ·)

/-- The written bytes of a buffer. -/
def State.buffer (s : State) : BufferId → Memory
  | .encIbuf => s.enc.ibuf
  | .encObuf => s.enc.obuf
  | .decIbuf => s.dec.ibuf
  | .decObuf => s.dec.obuf

/-- The byte a buffer holds at an index: what was written, or the free value of an index nothing has written since the
latest reset (20_memory R71, log 6). -/
def State.byteAt (s : State) (b : BufferId) (k : Nat) : Byte :=
  (Memory.find (s.buffer b) k).getD (Config.unwrittenByte s.resets b k)

/-- `buffer[0 .. n-1]` as a list (00_scope R9). -/
def State.bytes (s : State) (b : BufferId) (n : Nat) : List Byte := (List.range n).map (s.byteAt b)

/-! ## Writing a unit back -/

/-- The state with another encoder. -/
def State.setEnc (s : State) (e : Enc) : State := { s with enc := e }

/-- The state with another decoder. -/
def State.setDec (s : State) (d : Dec) : State := { s with dec := d }

/-! ## Reads a unit makes -/

/-- `MemRead(U.IBUF, k, 1)` (00_scope R10) and what the step does with the byte. An index the buffer does not have is a
fault of the model; 20_memory R67 says no run makes such a read (log 9). -/
def State.withInputByte (s : State) (u : UnitId) (k : Nat) (go : Byte → Answer) : Answer :=
  if k < s.cfg.inCap u then go (s.byteAt (.input u) k) else .fault (.readOutsideBuffer u k)

/-! ## Fault entry and leaving a fault -/

/-- `raise F` in the encoder (60_exceptions R245). -/
def Enc.raise (f : UnitFault) (e : Enc) : Enc := { e with err := f.errCode, st := .fault }

/-- `raise F` in the decoder (60_exceptions R245). -/
def Dec.raise (f : UnitFault) (d : Dec) : Dec := { d with err := f.errCode, st := .fault }

/-- Fault entry (60_exceptions R245): `U.err <- code(F)`, `U.st <- FAULT`, and that is all. -/
def State.raise (u : UnitId) (f : UnitFault) (s : State) : State :=
  match u with
  | .enc => s.setEnc (s.enc.raise f)
  | .dec => s.setDec (s.dec.raise f)

/-- `H_START` (42_host_operations R183): a resting unit clears its fault code and enters its first active state; a BUSY
unit ignores it. -/
def State.start (u : UnitId) (s : State) : State :=
  if s.busy u then s
  else
    match u with
    | .enc => s.setEnc { s.enc with err := .none, st := .eLoad }
    | .dec => s.setDec { s.dec with err := .none, st := .dInit }

/-- `H_CLEAR` (42_host_operations R184), the block's "trap return" (60_exceptions R249): a resting unit clears its fault
code and goes to `IDLE`; nothing is restored, for nothing was saved. A BUSY unit ignores it. -/
def State.clear (u : UnitId) (s : State) : State :=
  if s.busy u then s
  else
    match u with
    | .enc => s.setEnc { s.enc with err := .none, st := .idle }
    | .dec => s.setDec { s.dec with err := .none, st := .idle }

/-- A write of `w` to `CTRL` (42_host_operations R183 to R185): bit 0 starts, else bit 1 clears, else nothing. -/
def State.ctrlWrite (u : UnitId) (w : Word32) (s : State) : State :=
  if w.getLsbD 0 then s.start u else if w.getLsbD 1 then s.clear u else s

/-- Reset (70_reset_and_hazards R280): every register of both units takes its reset value and every buffer byte becomes
unspecified anew (log 6). The configuration and what lies outside the block stay. -/
def State.resetBlock (s : State) : State :=
  { s with enc := Enc.reset, dec := Dec.reset, resets := s.resets + 1 }

/-! ## The decoder's shared steps -/

/-- Appends `n` copies of `v` at the end of the decoder's output (41_decoder R155, R164). -/
def Dec.appendRun (n : Nat) (v : Byte) (d : Dec) : Dec :=
  { d with obuf := Memory.writeRun n d.obuf d.olen v, olen := d.olen + n }

/-- The index advance to the next pair (41_decoder R156): the loop test uses the new index. -/
def Dec.advance (d : Dec) : Dec :=
  { d with i := d.i + 2, st := if d.i + 2 < d.ilen then .dRdcnt else .dRet }

end Sys2Proof.Machine
end

