-- ==== Sys2Proof/Machine/Operands.lean ====
section
/-! DEFINITION. The operand forms of the host operations: a register by its number (10_state R40) and a buffer byte by
its index (20_memory R70), read and written. -/

namespace Sys2Proof.Machine

/-- The value of `U.ILEN`. -/
def State.ilen (u : UnitId) (s : State) : Nat :=
  match u with
  | .enc => s.enc.ilen
  | .dec => s.dec.ilen

/-- The value of `U.OLEN`. -/
def State.olen (u : UnitId) (s : State) : Nat :=
  match u with
  | .enc => s.enc.olen
  | .dec => s.dec.olen

/-- The value of `U.i`. -/
def State.index (u : UnitId) (s : State) : Nat :=
  match u with
  | .enc => s.enc.i
  | .dec => s.dec.i

/-- The value of `U.count`. -/
def State.countReg (u : UnitId) (s : State) : Byte :=
  match u with
  | .enc => s.enc.count
  | .dec => s.dec.count

/-- The value of `ENC.val` or `DEC.value` (10_state R40, register `VAL`). -/
def State.valReg (u : UnitId) (s : State) : Byte :=
  match u with
  | .enc => s.enc.val
  | .dec => s.dec.value

/-- The content of register `J`: "the encoder has no `j`" and reads 0 (10_state R40). -/
def State.jReg (u : UnitId) (s : State) : Byte :=
  match u with
  | .enc => 0#8
  | .dec => s.dec.j

/-- The content of a register (10_state R40, 42_host_operations R187). -/
def State.readReg (u : UnitId) (n : RegNum) (s : State) : Word32 :=
  match n.toNat with
  | 0 => 0#32
  | 1 => s.status u
  | 2 => zext32 (s.ilen u)
  | 3 => zext32 (s.olen u)
  | 4 => zext32 (s.index u)
  | 5 => byteToWord (s.countReg u)
  | 6 => byteToWord (s.valReg u)
  | 7 => byteToWord (s.jReg u)
  | 8 => zext32 (s.cfg.inCap u)
  | 9 => zext32 (s.cfg.outCap u)
  | _ => 0#32

/-- A write of `ILEN` (42_host_operations R182): performed by a resting unit for a length its input buffer can hold,
ignored otherwise. -/
def State.writeIlen (u : UnitId) (n : Word32) (s : State) : State :=
  if s.busy u then s
  else if n.toNat ≤ s.cfg.inCap u then
    match u with
    | .enc => s.setEnc { s.enc with ilen := n.toNat }
    | .dec => s.setDec { s.dec with ilen := n.toNat }
  else s

/-- A write of an input byte (42_host_operations R181): performed by a resting unit for an index its input buffer has,
ignored otherwise. -/
def State.writeIbuf (u : UnitId) (k : Nat) (b : Byte) (s : State) : State :=
  if s.busy u then s
  else if k < s.cfg.inCap u then
    match u with
    | .enc => s.setEnc { s.enc with ibuf := Memory.write s.enc.ibuf k b }
    | .dec => s.setDec { s.dec with ibuf := Memory.write s.dec.ibuf k b }
  else s

/-- A register write (42_host_operations R180, R190): `CTRL` and `ILEN` as above, every other number is ignored. -/
def State.writeReg (u : UnitId) (n : RegNum) (w : Word32) (s : State) : State :=
  match n.toNat with
  | 0 => s.ctrlWrite u w
  | 2 => s.writeIlen u w
  | _ => s

/-- Hands a value to the host (log 5). -/
def State.answer (r : Reply) (s : State) : State := { s with replies := s.replies ++ [r] }

/-- A host read of a buffer byte (42_host_operations R188, R189): the byte below the capacity, an unspecified byte at or
above it, fresh at every such read (log 7). -/
def State.hostRead (b : BufferId) (k : Nat) (s : State) : State :=
  if k < s.cfg.capOf b then s.answer (.byte (s.byteAt b k))
  else { s.answer (.byte (Config.outsideByte s.draws)) with draws := s.draws + 1 }

end Sys2Proof.Machine
end

