-- ==== Sys2Proof/Machine/Decoder.lean ====
section
/-! DEFINITION. The meanings of the decoder's seven micro-operations (41_decoder R151 to R157) and of the pair word as a
whole (R164, R165). -/

namespace Sys2Proof.Machine

/-- `D_INIT` (41_decoder R151): the five clears happen whether or not the fault is raised. -/
def execDInit (s : State) : Answer :=
  let s1 := s.setDec { s.dec with i := 0, count := 0#8, value := 0#8, j := 0#8, olen := 0 }
  if s.dec.ilen % 2 = 1 then .next (s1.raise .dec .decodeError)
  else .next (s1.setDec { s1.dec with st := if 0 < s.dec.ilen then .dRdcnt else .dRet })

/-- `D_RDCNT` (41_decoder R152). -/
def execDRdcnt (s : State) : Answer :=
  s.withInputByte .dec s.dec.i fun b => .next (s.setDec { s.dec with count := b, st := .dRdval })

/-- `D_RDVAL` (41_decoder R153). -/
def execDRdval (s : State) : Answer :=
  s.withInputByte .dec (s.dec.i + 1) fun b => .next (s.setDec { s.dec with value := b, j := 0#8, st := .dLoop })

/-- `D_LOOP` (41_decoder R154): an unsigned comparison; no data register changes. -/
def execDLoop (s : State) : Answer :=
  .next (s.setDec { s.dec with st := if s.dec.j.toNat < s.dec.count.toNat then .dAppend else .dNext })

/-- `D_APPEND` (41_decoder R155): one byte at the end of the output, or the fault with no write. -/
def execDAppend (s : State) : Answer :=
  if s.dec.olen + 1 > s.cfg.decOutCap then .next (s.raise .dec .outputOverflow)
  else
    .next (s.setDec
      { s.dec with
        obuf := Memory.write s.dec.obuf s.dec.olen s.dec.value
        olen := s.dec.olen + 1
        j := s.dec.j + 1#8
        st := .dLoop })

/-- `D_NEXT` (41_decoder R156). -/
def execDNext (s : State) : Answer := .next (s.setDec s.dec.advance)

/-- `D_RET` (41_decoder R157). -/
def execDRet (s : State) : Answer := .next (s.setDec { s.dec with st := .done })

/-- `PAIR` (41_decoder R164): appends `value` `count` times and advances to the next pair; or fills the output, with `j`
the number of bytes that fitted (60_exceptions R242), and raises the fault. -/
def execPair (count value : Byte) (s : State) : Answer :=
  let room := s.cfg.decOutCap - s.dec.olen
  let d := { s.dec with count := count, value := value }
  if s.dec.olen + count.toNat > s.cfg.decOutCap then
    .next ((s.setDec { d.appendRun room value with j := BitVec.ofNat 8 room }).raise .dec .outputOverflow)
  else .next (s.setDec { d.appendRun count.toNat value with j := count }.advance)

/-- `PAIR.ZERO` (41_decoder R165): consumed, nothing appended, no fault. -/
def execPairZero (value : Byte) (s : State) : Answer :=
  .next (s.setDec { s.dec with count := 0#8, value := value, j := 0#8 }.advance)

end Sys2Proof.Machine
end

