-- ==== Sys2Proof/Machine/Encoder.lean ====
section
/-! DEFINITION. The meanings of the encoder's eight micro-operations (40_encoder R121 to R128). A meaning is the effect of
the micro-operation; that the unit is in the state that selects it is the fetch's business (R120, log 11). -/

namespace Sys2Proof.Machine

/-- `E_LOAD` (40_encoder R121). -/
def execELoad (s : State) : Answer :=
  .next (s.setEnc { s.enc with i := 0, count := 0#8, val := 0#8, st := .eRinit })

/-- `E_RINIT` (40_encoder R122). -/
def execERinit (s : State) : Answer :=
  .next (s.setEnc { s.enc with olen := 0, st := if s.enc.i < s.enc.ilen then .eOuter else .eRet })

/-- `E_OUTER` (40_encoder R123). -/
def execEOuter (s : State) : Answer :=
  s.withInputByte .enc s.enc.i fun b => .next (s.setEnc { s.enc with val := b, st := .eCinit })

/-- `E_CINIT` (40_encoder R124). -/
def execECinit (s : State) : Answer :=
  .next (s.setEnc { s.enc with count := 1#8, st := .eCmp })

/-- `E_CMP` (40_encoder R125). The buffer is read only where `n < ILEN`. -/
def execECmp (s : State) : Answer :=
  let n := s.enc.i + s.enc.count.toNat
  if n < s.enc.ilen then
    s.withInputByte .enc n fun b =>
      if b = s.enc.val ∧ s.enc.count.toNat < 255 then
        .next (s.setEnc { s.enc with count := s.enc.count + 1#8, st := .eCmp })
      else .next (s.setEnc { s.enc with st := .eEmit })
  else .next (s.setEnc { s.enc with st := .eEmit })

/-- `E_EMIT` (40_encoder R126): count at `OLEN`, value at `OLEN+1`, or the fault with no write. -/
def execEEmit (s : State) : Answer :=
  if s.enc.olen + 2 > s.cfg.encOutCap then .next (s.raise .enc .outputOverflow)
  else
    .next (s.setEnc
      { s.enc with
        obuf := Memory.write (Memory.write s.enc.obuf s.enc.olen s.enc.count) (s.enc.olen + 1) s.enc.val
        olen := s.enc.olen + 2
        st := .eAdv })

/-- `E_ADV` (40_encoder R127): the loop test uses the new position. -/
def execEAdv (s : State) : Answer :=
  let i2 := s.enc.i + s.enc.count.toNat
  .next (s.setEnc { s.enc with i := i2, st := if i2 < s.enc.ilen then .eOuter else .eRet })

/-- `E_RET` (40_encoder R128). -/
def execERet (s : State) : Answer := .next (s.setEnc { s.enc with st := .done })

end Sys2Proof.Machine
end

