-- ==== Sys2Proof/Machine/HostOps.lean ====
section
/-! DEFINITION. The meanings of the host operations (42_host_operations R181 to R190). Each is always possible and raises
nothing (R180, R190). -/

namespace Sys2Proof.Machine

/-- `H_START` (42_host_operations R183); `CLEAR` and bits 31..2 do not matter (R185). -/
def execHStart (u : UnitId) (_clear : Bool) (_reserved : BitVec 30) (s : State) : Answer := .next (s.start u)

/-- `H_CLEAR` (42_host_operations R184). -/
def execHClear (u : UnitId) (_reserved : BitVec 30) (s : State) : Answer := .next (s.clear u)

/-- `H_CTRL_NOP` (42_host_operations R185): no effect. -/
def execHCtrlNop (_u : UnitId) (_reserved : BitVec 30) (s : State) : Answer := .next s

/-- `H_WR_IBUF` (42_host_operations R181). -/
def execHWrIbuf (u : UnitId) (k : Nat) (b : Byte) (s : State) : Answer := .next (s.writeIbuf u k b)

/-- `H_WR_ILEN` (42_host_operations R182). -/
def execHWrIlen (u : UnitId) (n : Word32) (s : State) : Answer := .next (s.writeIlen u n)

/-- `H_RD_STATUS` (42_host_operations R186). -/
def execHRdStatus (u : UnitId) (s : State) : Answer := .next (s.answer (.reg (s.status u)))

/-- `H_RD_REG` (42_host_operations R187). -/
def execHRdReg (u : UnitId) (n : RegNum) (s : State) : Answer := .next (s.answer (.reg (s.readReg u n)))

/-- `H_RD_OBUF` (42_host_operations R188). -/
def execHRdObuf (u : UnitId) (k : Nat) (s : State) : Answer := .next (s.hostRead (.output u) k)

/-- `H_RD_IBUF` (42_host_operations R189). -/
def execHRdIbuf (u : UnitId) (k : Nat) (s : State) : Answer := .next (s.hostRead (.input u) k)

/-- `H_WR_REG` (42_host_operations R180, R190). -/
def execHWrReg (u : UnitId) (n : RegNum) (w : Word32) (s : State) : Answer := .next (s.writeReg u n w)

end Sys2Proof.Machine
end

