-- ==== Sys2Proof/Machine/Dispatch.lean ====
section
/-! DEFINITION. One arm per operation: the meaning it has. -/

namespace Sys2Proof.Machine

def exec (i : Instr) (s : State) : Host.Outcome State Fault Refusal :=
  match i with
  | .pair count value => Sys2Proof.Machine.execPair count value s
  | .pairZero value => Sys2Proof.Machine.execPairZero value s
  | .eLoad => Sys2Proof.Machine.execELoad s
  | .eRinit => Sys2Proof.Machine.execERinit s
  | .eOuter => Sys2Proof.Machine.execEOuter s
  | .eCinit => Sys2Proof.Machine.execECinit s
  | .eCmp => Sys2Proof.Machine.execECmp s
  | .eEmit => Sys2Proof.Machine.execEEmit s
  | .eAdv => Sys2Proof.Machine.execEAdv s
  | .eRet => Sys2Proof.Machine.execERet s
  | .dInit => Sys2Proof.Machine.execDInit s
  | .dRdcnt => Sys2Proof.Machine.execDRdcnt s
  | .dRdval => Sys2Proof.Machine.execDRdval s
  | .dLoop => Sys2Proof.Machine.execDLoop s
  | .dAppend => Sys2Proof.Machine.execDAppend s
  | .dNext => Sys2Proof.Machine.execDNext s
  | .dRet => Sys2Proof.Machine.execDRet s
  | .hStart u clear reserved => Sys2Proof.Machine.execHStart u clear reserved s
  | .hClear u reserved => Sys2Proof.Machine.execHClear u reserved s
  | .hCtrlNop u reserved => Sys2Proof.Machine.execHCtrlNop u reserved s
  | .hWrIbuf u k b => Sys2Proof.Machine.execHWrIbuf u k b s
  | .hWrIlen u n => Sys2Proof.Machine.execHWrIlen u n s
  | .hRdStatus u => Sys2Proof.Machine.execHRdStatus u s
  | .hRdReg u n => Sys2Proof.Machine.execHRdReg u n s
  | .hRdObuf u k => Sys2Proof.Machine.execHRdObuf u k s
  | .hRdIbuf u k => Sys2Proof.Machine.execHRdIbuf u k s
  | .hWrReg u n w => Sys2Proof.Machine.execHWrReg u n w s

end Sys2Proof.Machine
end

