-- ==== Sys2Proof/Machine/Turns.lean ====
section
/-! DEFINITION. One turn of the total order of steps (20_memory R73): what is fetched in it, and what running it does. -/

namespace Sys2Proof.Machine

/-- Runs what was fetched: the decoded operation; nothing where the unit rests (40_encoder R129, 41_decoder R158); a
refusal for a code that is no state (30_encoding R99 (c), log 18). The two stream rejects are never given here. -/
def runFetched (f : Fetched) (s : State) : Answer :=
  match decode f with
  | .ok i => exec i s
  | .error .restingState => .next s
  | .error .unusedState => .refused .unusedStateCode
  | .error .unpairedByte => .refused .unusedStateCode
  | .error .endOfStream => .refused .unusedStateCode

/-- The decoder's next pair word, `DEC.IBUF[DEC.i]` and `DEC.IBUF[DEC.i+1]`, as one step (41_decoder R164, log 10): taken
where the decoder is about to read a pair, nothing otherwise. -/
def takePair (s : State) : Answer :=
  if s.dec.st = .dRdcnt then
    s.withInputByte .dec s.dec.i fun count =>
      s.withInputByte .dec (s.dec.i + 1) fun value => runFetched (.pair16 count value) s
  else .next s

/-- One turn. -/
def takeTurn (t : Turn) (s : State) : Answer :=
  match t with
  | .reset => .next s.resetBlock
  | .micro u => runFetched (.state4 u (s.stCode u)) s
  | .pair => takePair s
  | .ctrl u w => runFetched (.ctrl32 u w) s
  | .call c => runFetched (.named c) s

/-- The unit a host operation by name is on. -/
def callTarget : HostCall → UnitId
  | .wrIbuf u _ _ => u
  | .wrIlen u _ => u
  | .rdStatus u => u
  | .rdReg u _ => u
  | .rdObuf u _ => u
  | .rdIbuf u _ => u
  | .wrReg u _ _ => u

/-- The unit a turn is on: the unit whose step it is, or the unit the host operates on; none for a reset, which is on
both. -/
def Turn.unit : Turn → Option UnitId
  | .reset => none
  | .micro u => some u
  | .pair => some .dec
  | .ctrl u _ => some u
  | .call c => some (callTarget c)

/-- The turn that comes next: the first of the agenda, or one micro-operation of the unit whose turn it is (log 4). -/
def State.nextTurn (s : State) : Turn :=
  match s.agenda with
  | [] => .micro s.nextUnit
  | t :: _ => t

/-- The state with that turn taken off the order. -/
def State.popTurn (s : State) : State :=
  match s.agenda with
  | [] => { s with nextUnit := s.nextUnit.other }
  | _ :: rest => { s with agenda := rest }

/-- One step: a configuration that breaks 00_scope R7 is refused, otherwise the next turn is taken. -/
def stepTurn (s : State) : Answer :=
  if s.cfg.wf then takeTurn s.nextTurn s.popTurn else .refused .badParameters

/-- Several turns in a row, without the agenda. -/
def runTurns : List Turn → State → Answer
  | [], s => .next s
  | t :: ts, s =>
    match takeTurn t s with
    | .next s' => runTurns ts s'
    | .fault r => .fault r
    | .refused r => .refused r

/-! ## Placing one operation so that the next step runs it -/

/-- The state a code names (30_encoding R95), none for an unused one. -/
def EncSt.ofCode (code : BitVec 4) : Option EncSt :=
  match code.toNat with
  | 0 => some .idle
  | 1 => some .eLoad
  | 2 => some .eRinit
  | 3 => some .eOuter
  | 4 => some .eCinit
  | 5 => some .eCmp
  | 6 => some .eEmit
  | 7 => some .eAdv
  | 8 => some .eRet
  | 9 => some .done
  | 10 => some .fault
  | _ => none

/-- The state a code names (30_encoding R96), none for an unused one. -/
def DecSt.ofCode (code : BitVec 4) : Option DecSt :=
  match code.toNat with
  | 0 => some .idle
  | 1 => some .dInit
  | 2 => some .dRdcnt
  | 3 => some .dRdval
  | 4 => some .dLoop
  | 5 => some .dAppend
  | 6 => some .dNext
  | 7 => some .dRet
  | 9 => some .done
  | 10 => some .fault
  | _ => none

/-- The state with `t` as the very next turn. -/
def State.pushTurn (t : Turn) (s : State) : State := { s with agenda := t :: s.agenda }

/-- Places a fetched form where the next step takes it (log 14): a state code in the unit's state register, a pair at
the decoder's read position as the last pair of its input, a host request at the head of the agenda. -/
def State.place (f : Fetched) (s : State) : State :=
  match f with
  | .pair16 first second =>
    (s.setDec
      { s.dec with
        ibuf := Memory.write (Memory.write s.dec.ibuf s.dec.i first) (s.dec.i + 1) second
        ilen := s.dec.i + 2
        st := .dRdcnt }).pushTurn .pair
  | .state4 .enc code =>
    match EncSt.ofCode code with
    | some st => (s.setEnc { s.enc with st := st }).pushTurn (.micro .enc)
    | none => s
  | .state4 .dec code =>
    match DecSt.ofCode code with
    | some st => (s.setDec { s.dec with st := st }).pushTurn (.micro .dec)
    | none => s
  | .ctrl32 u w => s.pushTurn (.ctrl u w)
  | .named c => s.pushTurn (.call c)

/-- The placing of a word as opcode_table.json numbers it (log 13, log 14). -/
def State.placeTableWord (s : State) (nbits w : Nat) : State :=
  match fetchedOfTableWord nbits w with
  | some f => s.place f
  | none => s

end Sys2Proof.Machine
end

