-- ==== Sys2Proof/Machine/Step.lean ====
section
/-! DEFINITION. The step of the block, and the placing of one word for it. -/

namespace Sys2Proof.Machine

/-- One step of the total order (00_scope R11, 20_memory R73). -/
def step (s : State) : Host.Outcome State Fault Refusal := stepTurn s

/-- The state in which the very next step runs the operation of the word `w` (log 14). -/
def State.withFetchWord (s : State) (nbits w : Nat) : State := s.placeTableWord nbits w

end Sys2Proof.Machine
end

