-- ==== Sys2Proof/Machine/Reference.lean ====
section
/-! DEFINITION. The two functions the units compute (40_encoder R132, 41_decoder R161), as functions on byte lists: what a
unit run is compared with. No step calls them. -/

namespace Sys2Proof.Reference

/-- The number of leading elements equal to `v` (40_encoder R132, `m`). -/
def leading (v : Byte) : List Byte → Nat
  | [] => 0
  | b :: rest => if b = v then leading v rest + 1 else 0

/-- The length of the first run segment of `v :: rest` (40_encoder R132, `n = min(255, 1 + m)`). -/
def segment (v : Byte) (rest : List Byte) : Nat := min 255 (1 + leading v rest)

/-- `encode` with a bound on the number of segments. -/
def encodeWithin : Nat → List Byte → List Byte
  | 0, _ => []
  | _ + 1, [] => []
  | fuel + 1, v :: rest =>
    BitVec.ofNat 8 (segment v rest) :: v :: encodeWithin fuel (rest.drop (segment v rest - 1))

/-- `encode` (40_encoder R132): every segment takes at least one byte, so the length bounds their number. -/
def encode (bytes : List Byte) : List Byte := encodeWithin bytes.length bytes

/-- `decode` (41_decoder R161): an odd length is the error and no bytes. -/
def decode : List Byte → Except Machine.UnitFault (List Byte)
  | [] => .ok []
  | [_] => .error .decodeError
  | count :: value :: rest =>
    match decode rest with
    | .error e => .error e
    | .ok out => .ok (List.replicate count.toNat value ++ out)

/-- The canonical encoded buffers (43_codec_laws R214 (a) to (c)): whole pairs, no count 0, and two adjacent pairs have
the same value only if the first has count 255. -/
def canonical : List Byte → Bool
  | [] => true
  | [_] => false
  | [count, _] => decide (count ≠ 0#8)
  | [_, _, _] => false
  | count :: value :: count' :: value' :: rest =>
    decide (count ≠ 0#8) && (decide (value ≠ value') || decide (count = 255#8)) &&
      canonical (count' :: value' :: rest)

/-- The sum of the count bytes of an encoded buffer (43_codec_laws R214 (d), R215). -/
def countSum : List Byte → Nat
  | [] => 0
  | [_] => 0
  | count :: _ :: rest => count.toNat + countSum rest

end Sys2Proof.Reference
end

