-- ==== Sys2Proof/Machine/Script.lean ====
section
/-! DEFINITION. The pseudo-operations of 30_encoding R103: a host that performs `LOAD`, `RUN`, `RESULT`, `ENCODE` and `DECODE`
on the hardware (42_host_operations R193). They are no new primitives: everything the host does is a host operation run by
`step`, and what it does next depends on what its reads returned (log 23). -/

namespace Sys2Proof.Machine.Script

/-! ## What a script is made of -/

/-- One line of a script (30_encoding R103). -/
inductive Command where
  /-- one host operation; the script uses no reply of it -/
  | ask (t : Turn)
  /-- "repeat `H_RD_STATUS(U)` until `BUSY = 0`" -/
  | poll (u : UnitId)
  /-- right after a poll: "if `STATUS.DONE` then" the rest of the script "else report the fault" -/
  | ifDone
  /-- "`n := H_RD_REG(U, OLEN)`, then the list `H_RD_OBUF(U, k)` for `k = 0 .. n-1`" -/
  | readLength (u : UnitId)
  /-- `H_RD_OBUF(U, k)`, the byte belonging to the result -/
  | readByte (u : UnitId) (k : Nat)
deriving DecidableEq, Repr

/-- What a script ends with: the bytes it read, or the fault code of the unit (42_host_operations R193 (5)). -/
inductive Report where
  | returned (bytes : List Byte)
  | failed (code : BitVec 4)
deriving DecidableEq, Repr

/-- A host at work on a script. -/
structure Caller where
  /-- what is left of the script -/
  todo : List Command
  /-- the result bytes read so far, index 0 first -/
  bytes : List Byte
  /-- the `ERRCODE` of a run that did not end in `DONE` -/
  failure : Option (BitVec 4)
deriving DecidableEq, Repr

/-- Who moves next: the host with its script, or whoever the machine's own order says (20_memory R73, log 23). -/
inductive Mover where
  | host
  | machine
deriving DecidableEq, Repr

/-! ## The pseudo-operations -/

/-- The writes of `LOAD(U, B)`. R103 lets the byte writes come in any order, 42_host_operations R193 (2) the length too:
every permutation of this list is a `LOAD`. -/
def load (u : UnitId) (bytes : List Byte) : List Turn :=
  (bytes.zipIdx.map fun p => .call (.wrIbuf u p.2 p.1)) ++ [.call (.wrIlen u (zext32 bytes.length))]

/-- `RUN(U)`: start, then poll. -/
def run (u : UnitId) : List Command := [.ask (.ctrl u 1#32), .poll u]

/-- `RESULT(U)`. -/
def result (u : UnitId) : List Command := [.readLength u]

/-- `LOAD`; `RUN`; if `STATUS.DONE` then `RESULT` else report the fault. -/
def callUnit (u : UnitId) (writes : List Turn) : List Command :=
  writes.map .ask ++ run u ++ .ifDone :: result u

/-- `ENCODE(B)`. -/
def encode (bytes : List Byte) : List Command := callUnit .enc (load .enc bytes)

/-- `DECODE(E)`. -/
def decode (encoded : List Byte) : List Command := callUnit .dec (load .dec encoded)

/-! ## The host at work -/

/-- A host at the beginning of a script. -/
def Caller.begin (script : List Command) : Caller := { todo := script, bytes := [], failure := none }

/-- The host operation the host performs next; none once the script is over. -/
def Caller.request (h : Caller) : Option Turn :=
  match h.todo with
  | [] => none
  | .ask t :: _ => some t
  | .poll u :: _ => some (.call (.rdStatus u))
  | .ifDone :: _ => none
  | .readLength u :: _ => some (.call (.rdReg u 3#4))
  | .readByte u k :: _ => some (.call (.rdObuf u k))

/-- The poll has found `BUSY = 0` in the `STATUS` word `w`: the test of `DONE`, where the script has one. -/
def Caller.afterPoll (w : Word32) (rest : List Command) (h : Caller) : Caller :=
  match rest with
  | .ifDone :: more =>
    if w.getLsbD 1 then { h with todo := more } else { h with todo := [], failure := some (w.extractLsb' 4 4) }
  | _ => { h with todo := rest }

/-- What the host does with the reply to its request. -/
def Caller.hear (reply : Option Reply) (h : Caller) : Caller :=
  match h.todo, reply with
  | .ask _ :: rest, _ => { h with todo := rest }
  | .poll _ :: rest, some (.reg w) => if w.getLsbD 0 then h else h.afterPoll w rest
  | .readLength u :: rest, some (.reg w) => { h with todo := (List.range w.toNat).map (.readByte u) ++ rest }
  | .readByte _ _ :: rest, some (.byte b) => { h with todo := rest, bytes := h.bytes ++ [b] }
  | _, _ => h

/-- What the host reports, once its script is over. -/
def Caller.report (h : Caller) : Option Report :=
  match h.todo, h.failure with
  | [], none => some (.returned h.bytes)
  | [], some code => some (.failed code)
  | _ :: _, _ => none

/-- The host and the machine under a schedule. A move of the host puts its next request before the turns of the agenda and
lets the machine take one step; a host whose script is over lets its move pass. -/
def perform : List Mover → Caller → State → Host.Outcome (Caller × State) Fault Refusal
  | [], h, s => .next (h, s)
  | .machine :: movers, h, s =>
    match step s with
    | .next s' => perform movers h s'
    | .fault r => .fault r
    | .refused r => .refused r
  | .host :: movers, h, s =>
    match h.request with
    | none => perform movers h s
    | some t =>
      match step (s.pushTurn t) with
      | .next s' => perform movers (h.hear s'.replies.getLast?) s'
      | .fault r => .fault r
      | .refused r => .refused r

/-! ## What a script is compared with -/

/-- What `ENCODE` and `DECODE` have to report (42_host_operations R192, 60_exceptions R241, R242). -/
def expected (cfg : Params) (u : UnitId) (bytes : List Byte) : Report :=
  match u with
  | .enc =>
    if (Reference.encode bytes).length ≤ cfg.encOutCap then .returned (Reference.encode bytes)
    else .failed UnitFault.outputOverflow.errCode.code
  | .dec =>
    match Reference.decode bytes with
    | .error e => .failed e.errCode.code
    | .ok out =>
      if out.length ≤ cfg.decOutCap then .returned out else .failed UnitFault.outputOverflow.errCode.code

/-- The most steps a run on `n` input bytes takes (40_encoder R134, 41_decoder R163). -/
def stepBound (u : UnitId) (n : Nat) : Nat :=
  match u with
  | .enc => 3 + 5 * n
  | .dec => 2 + 257 * n

/-- A schedule long enough for a call on `n` bytes: moves of the host for the writes and the start; then moves of the
machine, of which every second is the unit's while the agenda is empty (log 4); then moves of the host for the last poll, the
length and the bytes. Further moves of either may lie anywhere. -/
def enough (cfg : Params) (u : UnitId) (n : Nat) (schedule : List Mover) : Prop :=
  ∃ before during after, schedule = before ++ during ++ after ∧ n + 2 ≤ before.count .host ∧
    2 * stepBound u n ≤ during.count .machine ∧ 2 + cfg.outCap u ≤ after.count .host

end Sys2Proof.Machine.Script
end

