-- ==== Sys2Proof/Safety.lean ====
section
/-! DEFINITION. What holds in every state a run reaches (10_state R47): the invariant claims use as a premise where a
state no run reaches would break them. -/

namespace Sys2Proof.Machine

/-- The states in which the encoder works on a run segment (10_state R47 (d)). -/
def EncSt.inSegment : EncSt → Bool
  | .eOuter | .eCinit | .eCmp | .eEmit | .eAdv => true
  | .idle | .eLoad | .eRinit | .eRet | .done | .fault => false

/-- The states in which `ENC.val` is the byte at the scan position (10_state R27). -/
def EncSt.latched : EncSt → Bool
  | .eCinit | .eCmp | .eEmit | .eAdv => true
  | .idle | .eLoad | .eRinit | .eOuter | .eRet | .done | .fault => false

/-- The states in which `ENC.count` counts the segment (10_state R47 (d)). -/
def EncSt.counting : EncSt → Bool
  | .eCmp | .eEmit | .eAdv => true
  | .idle | .eLoad | .eRinit | .eOuter | .eCinit | .eRet | .done | .fault => false

/-- The states in which the decoder works on a pair (10_state R47 (f)). -/
def DecSt.inPair : DecSt → Bool
  | .dRdcnt | .dRdval | .dLoop | .dAppend | .dNext => true
  | .idle | .dInit | .dRet | .done | .fault => false

/-- The states in which the decoder repeats a value (10_state R47 (f)). -/
def DecSt.inLoop : DecSt → Bool
  | .dLoop | .dAppend | .dNext => true
  | .idle | .dInit | .dRdcnt | .dRdval | .dRet | .done | .fault => false

/-- A buffer in canonical form whose every listed index is one the buffer has (20_memory R60). -/
structure BufferInv (m : Memory) (cap : Nat) : Prop where
  rising : Memory.wf m
  inside : ∀ cell ∈ m, cell.1 < cap

/-- 10_state R47 (a) to (e) for the encoder, with what makes it inductive: `index_le` (R25), `load_start` (R121),
`latch` (R27). -/
structure EncInv (s : State) : Prop where
  ibuf : BufferInv s.enc.ibuf s.cfg.encInCap
  obuf : BufferInv s.enc.obuf s.cfg.encOutCap
  ilen_le : s.enc.ilen ≤ s.cfg.encInCap
  olen_le : s.enc.olen ≤ s.cfg.encOutCap
  index_le : s.enc.i ≤ s.cfg.encInCap
  err_code : s.enc.err = if s.enc.st = .fault then .outputOverflow else .none
  olen_even : s.enc.olen % 2 = 0
  load_start : s.enc.st = .eRinit → s.enc.i = 0
  segment : s.enc.st.inSegment = true → s.enc.i < s.enc.ilen
  latch : s.enc.st.latched = true → s.enc.val = s.byteAt .encIbuf s.enc.i
  counted : s.enc.st.counting = true →
    1 ≤ s.enc.count.toNat ∧ s.enc.i + s.enc.count.toNat ≤ s.enc.ilen ∧
      ∀ k, k < s.enc.count.toNat → s.byteAt .encIbuf (s.enc.i + k) = s.enc.val
  returned : s.enc.st = .eRet → s.enc.i = s.enc.ilen

/-- 10_state R47 (a) to (c), (f), (g) for the decoder, with what makes it inductive: `index_le`, `index_even` (R33),
`count_read` (R152). -/
structure DecInv (s : State) : Prop where
  ibuf : BufferInv s.dec.ibuf s.cfg.decInCap
  obuf : BufferInv s.dec.obuf s.cfg.decOutCap
  ilen_le : s.dec.ilen ≤ s.cfg.decInCap
  olen_le : s.dec.olen ≤ s.cfg.decOutCap
  index_le : s.dec.i ≤ s.cfg.decInCap
  err_code : s.dec.st = .fault ↔ s.dec.err ≠ .none
  index_even : s.dec.i % 2 = 0
  pair : s.dec.st.inPair = true → s.dec.ilen % 2 = 0 ∧ s.dec.i + 1 < s.dec.ilen
  count_read : s.dec.st = .dRdval → s.dec.count = s.byteAt .decIbuf s.dec.i
  loop : s.dec.st.inLoop = true →
    s.dec.count = s.byteAt .decIbuf s.dec.i ∧ s.dec.value = s.byteAt .decIbuf (s.dec.i + 1) ∧
      s.dec.j.toNat ≤ s.dec.count.toNat
  append : s.dec.st = .dAppend → s.dec.j.toNat < s.dec.count.toNat
  next : s.dec.st = .dNext → s.dec.j = s.dec.count
  returned : s.dec.st = .dRet → s.dec.i = s.dec.ilen ∧ s.dec.ilen % 2 = 0

/-- What holds in every state a run reaches (10_state R47), in a configuration that meets 00_scope R7. -/
structure Inv (s : State) : Prop where
  cfg : s.cfg.wf = true
  enc : EncInv s
  dec : DecInv s

/-- `n` steps of the machine, stopping at the first fault or refusal. -/
def steps : Nat → State → Host.Outcome State Fault Refusal
  | 0, s => .next s
  | n + 1, s =>
    match step s with
    | .next s' => steps n s'
    | .fault r => .fault r
    | .refused r => .refused r

/-- The raw or encoded buffer a unit run reads, `U.IBUF[0 .. U.ILEN-1]`. -/
def State.input (u : UnitId) (s : State) : List Byte := s.bytes (.input u) (s.ilen u)

/-- The result of a unit run, `U.OBUF[0 .. U.OLEN-1]`. -/
def State.output (u : UnitId) (s : State) : List Byte := s.bytes (.output u) (s.olen u)

/-- Every byte of the unit's input was written since the latest reset (10_state R47 (h)). -/
def State.inputWritten (u : UnitId) (s : State) : Prop :=
  ∀ k, k < s.ilen u → (Memory.find (s.buffer (.input u)) k).isSome = true

end Sys2Proof.Machine
end

