-- ==== Sys2Proof/Certificates/Slice0/Obligations.lean ====
section
/-! DEFINITION. What is claimed of the model. Each statement says which rule of the spec it formalises; OBLIGATIONS.json
lists them. Statements about every state quantify over every configuration too, for the configuration is a field of State
(log 1). No statement rests on the value of a free byte. -/

open Sys2Proof Sys2Proof.Machine

/-! ## Reset -/

/-- 70_reset_and_hazards R281: after reset both units rest in `IDLE`, every register and `STATUS` is 0, the event outputs
are low and no fault is recorded (in the configuration of log 1); and nothing happens until the host acts: in every state in
which both units rest and the next turn is no turn of the host and no reset (which turn that is: log 3, log 4), a step leaves
both units as they were. -/
def Obligations.ResetRestsIdleWithZeroRegisters : Prop :=
  (∀ u : UnitId,
    State.reset.idleFlag u = true ∧ State.reset.busy u = false ∧ State.reset.status u = 0#32 ∧
      State.reset.errCode u = 0#4 ∧ State.reset.event u = false ∧ State.reset.ilen u = 0 ∧ State.reset.olen u = 0 ∧
      State.reset.index u = 0 ∧ State.reset.countReg u = 0#8 ∧ State.reset.valReg u = 0#8 ∧
      State.reset.jReg u = 0#8) ∧
    ∀ s : State, s.cfg.wf = true → s.busy .enc = false → s.busy .dec = false →
      (s.nextTurn = .micro .enc ∨ s.nextTurn = .micro .dec ∨ s.nextTurn = .pair) →
      ∃ t, step s = .next t ∧ t.enc = s.enc ∧ t.dec = s.dec

/-- 70_reset_and_hazards R280, R282: a reset, in whatever state the units are, puts every register of both units at its
reset value and makes every buffer byte unspecified anew (the free values of log 6). -/
def Obligations.ResetTurnClearsBothUnits : Prop :=
  ∀ (s : State) (ts : List Turn), s.cfg.wf = true → s.agenda = .reset :: ts →
    ∃ t, step s = .next t ∧ t.agenda = ts ∧ t.cfg = s.cfg ∧ t.replies = s.replies ∧
      (∀ u : UnitId, t.idleFlag u = true ∧ t.status u = 0#32 ∧ t.errCode u = 0#4 ∧ t.event u = false ∧ t.ilen u = 0 ∧
        t.olen u = 0 ∧ t.index u = 0 ∧ t.countReg u = 0#8 ∧ t.valReg u = 0#8 ∧ t.jReg u = 0#8) ∧
      ∀ (b : BufferId) (k : Nat), t.byteAt b k = Config.unwrittenByte (s.resets + 1) b k

/-! ## Encoding -/

/-- Decoding what the encoder writes gives the operation back, for every well-formed operation and every operand. -/
def Obligations.DecodeOfEncodeIsIdentity : Prop :=
  ∀ i : Instr, i.wf = true → decode (encode i) = .ok i

/-- Every form that decodes is the encoding of the operation it decodes to, which is well-formed: one word, one
meaning. -/
def Obligations.EncodeOfDecodeIsIdentity : Prop :=
  ∀ (f : Fetched) (i : Instr), decode f = .ok i → i.wf = true ∧ encode i = f

/-- Words written out from 30_encoding R91, R95, R96, R97 decode to the operations they stand for. -/
def Obligations.SpecWordsDecodeAsWritten : Prop :=
  decode (.pair16 0b00000011#8 0b01100001#8) = .ok (.pair 3#8 97#8) ∧
    decode (.pair16 0b00000000#8 0b00000101#8) = .ok (.pairZero 5#8) ∧
    decode (.state4 .enc 0b0101#4) = .ok .eCmp ∧
    decode (.state4 .dec 0b0101#4) = .ok .dAppend ∧
    decode (.ctrl32 .dec 0b00000000000000000000000000000010#32) = .ok (.hClear .dec 0#30) ∧
    decode (.ctrl32 .enc 0b00000000000000000000000000000011#32) = .ok (.hStart .enc true 0#30)

/-- 30_encoding R99 (c): the codes 11..15 of both units and code 8 of the decoder are no state and are rejected by name;
the resting codes 0, 9, 10 name no micro-operation; every other code names one. -/
def Obligations.StateCodesSplitThreeWays : Prop :=
  ∀ (u : UnitId) (code : BitVec 4),
    ((code.toNat = 0 ∨ code.toNat = 9 ∨ code.toNat = 10) → decode (.state4 u code) = .error .restingState) ∧
      ((11 ≤ code.toNat ∨ (u = .dec ∧ code.toNat = 8)) → decode (.state4 u code) = .error .unusedState) ∧
      ((1 ≤ code.toNat ∧ code.toNat ≤ 8 ∧ ¬(u = .dec ∧ code.toNat = 8)) → ∃ i, decode (.state4 u code) = .ok i)

/-- 30_encoding R94: an encoded buffer is a sequence of pairs. A stream of even length is read as half as many pair
words, which give the same bytes back; a stream of odd length is rejected for its unpaired byte. -/
def Obligations.EvenStreamIsSequenceOfPairs : Prop :=
  ∀ stream : List Byte,
    (stream.length % 2 = 0 → ∃ words, decodeStream stream = .ok words ∧ 2 * words.length = stream.length ∧
      words.flatMap encodeBytes = stream) ∧
    (stream.length % 2 = 1 → decodeStream stream = .error .unpairedByte)

/-! ## The step -/

/-- A step runs the decoded operation of its turn at the state with the turn taken off the agenda: the micro-operation of
the unit's state code, the host's `CTRL` word, the host's operation by name, the pair at the decoder's read position; with
an empty agenda the micro-operation of the unit whose turn it is (log 4). -/
def Obligations.StepRunsTheDecodedOperation : Prop :=
  ∀ (s : State) (i : Instr), s.cfg.wf = true →
    (∀ u ts, s.agenda = .micro u :: ts → decode (.state4 u (s.stCode u)) = .ok i →
      step s = exec i { s with agenda := ts }) ∧
    (∀ u w ts, s.agenda = .ctrl u w :: ts → decode (.ctrl32 u w) = .ok i → step s = exec i { s with agenda := ts }) ∧
    (∀ c ts, s.agenda = .call c :: ts → decode (.named c) = .ok i → step s = exec i { s with agenda := ts }) ∧
    (∀ ts, s.agenda = .pair :: ts → s.dec.st = .dRdcnt → s.dec.i + 1 < s.cfg.decInCap →
      decode (.pair16 (s.byteAt .decIbuf s.dec.i) (s.byteAt .decIbuf (s.dec.i + 1))) = .ok i →
      step s = exec i { s with agenda := ts }) ∧
    (s.agenda = [] → decode (.state4 s.nextUnit (s.stCode s.nextUnit)) = .ok i →
      step s = exec i { s with nextUnit := s.nextUnit.other })

/-- 40_encoder R129, 41_decoder R158: a unit in `IDLE`, `DONE` or `FAULT` takes no step and changes nothing, whether its turn
stands on the agenda or comes by the alternation after it (log 4); nor does a pair turn outside `D_RDCNT` (log 10). -/
def Obligations.RestingUnitTakesNoStep : Prop :=
  ∀ (s : State) (ts : List Turn), s.cfg.wf = true →
    (∀ u, s.busy u = false → s.agenda = .micro u :: ts → step s = .next { s with agenda := ts }) ∧
    (s.busy s.nextUnit = false → s.agenda = [] → step s = .next { s with nextUnit := s.nextUnit.other }) ∧
    (s.dec.st ≠ .dRdcnt → s.agenda = .pair :: ts → step s = .next { s with agenda := ts })

/-- 00_scope R6, R7: a configuration that breaks the constraint of R7 is refused, and so is one whose `IW` lies outside R6's
1..32 (that this too is refused is log 12); in one that meets both every sum a rule forms is at most a capacity plus 2, and
that fits in `IW` bits. -/
def Obligations.BrokenParametersRefusedElseNoWrap : Prop :=
  (∀ s : State,
    (¬(1 ≤ s.cfg.iw ∧ s.cfg.iw ≤ 32 ∧
        max (max s.cfg.encInCap s.cfg.encOutCap) (max s.cfg.decInCap s.cfg.decOutCap) + 2 < 2 ^ s.cfg.iw)) →
      step s = .refused .badParameters) ∧
  ∀ s : State, Inv s →
    (∀ u : UnitId,
      s.index u + 2 ≤ s.cfg.inCap u + 2 ∧ s.olen u + 2 ≤ s.cfg.outCap u + 2 ∧ s.ilen u ≤ s.cfg.inCap u ∧
        s.cfg.inCap u + 2 < 2 ^ s.cfg.iw ∧ s.cfg.outCap u + 2 < 2 ^ s.cfg.iw) ∧
      (s.enc.st.counting = true → s.enc.i + s.enc.count.toNat ≤ s.cfg.encInCap)

/-- The turns of the agenda are taken one after another, each by one step, and nothing but the step removes them. -/
def Obligations.AgendaTurnsRunInOrder : Prop :=
  ∀ (s : State) (ts rest : List Turn), s.cfg.wf = true → s.agenda = ts ++ rest →
    steps ts.length s = runTurns ts { s with agenda := rest }

/-! ## The encoder's micro-operations -/

/-- 40_encoder R121, R122, R124, R127, R128: what `E_LOAD`, `E_RINIT`, `E_CINIT`, `E_ADV`, `E_RET` make of any state;
everything not named keeps its value. Whenever `E_ADV` is reached the new scan position is at most the length. `E_RET` makes
BUSY false and DONE true, and the event output rises. -/
def Obligations.EncoderRegisterStepResults : Prop :=
  (∀ s : State, Inv s → s.enc.st = .eAdv → s.enc.i + s.enc.count.toNat ≤ s.enc.ilen) ∧
  ∀ s : State,
    exec .eLoad s = .next { s with enc := { s.enc with i := 0, count := 0#8, val := 0#8, st := .eRinit } } ∧
    exec .eRinit s = .next
      { s with enc := { s.enc with olen := 0, st := if s.enc.i < s.enc.ilen then .eOuter else .eRet } } ∧
    exec .eCinit s = .next { s with enc := { s.enc with count := 1#8, st := .eCmp } } ∧
    exec .eAdv s = .next
      { s with
        enc :=
          { s.enc with
            i := s.enc.i + s.enc.count.toNat
            st := if s.enc.i + s.enc.count.toNat < s.enc.ilen then .eOuter else .eRet } } ∧
    ∃ t, exec .eRet s = .next t ∧ t = { s with enc := { s.enc with st := .done } } ∧ t.busy .enc = false ∧
      t.doneFlag .enc = true ∧ t.event .enc = true

/-- 40_encoder R123: `E_OUTER` latches the byte at the scan position, any byte alike; whenever the state is reached, the
scan position is below the length. -/
def Obligations.OuterLatchesScannedByte : Prop :=
  (∀ s : State, s.enc.i < s.cfg.encInCap →
    exec .eOuter s = .next
      { s with enc := { s.enc with val := s.byteAt .encIbuf s.enc.i, st := .eCinit } }) ∧
  ∀ s : State, Inv s → s.enc.st = .eOuter → s.enc.i < s.enc.ilen

/-- 40_encoder R125: one comparison. The count grows exactly when the next byte is inside the input, equals the value and
the count is below 255; otherwise the count stays and the segment is complete. A segment of length `c` takes `c` steps in
`E_CMP`. -/
def Obligations.CompareCountsTheSegment : Prop :=
  (∀ s : State, s.enc.ilen ≤ s.cfg.encInCap →
    ((s.enc.i + s.enc.count.toNat < s.enc.ilen ∧ s.byteAt .encIbuf (s.enc.i + s.enc.count.toNat) = s.enc.val ∧
        s.enc.count.toNat < 255) →
      exec .eCmp s = .next { s with enc := { s.enc with count := s.enc.count + 1#8, st := .eCmp } } ∧
        (s.enc.count + 1#8).toNat = s.enc.count.toNat + 1) ∧
    (¬(s.enc.i + s.enc.count.toNat < s.enc.ilen ∧ s.byteAt .encIbuf (s.enc.i + s.enc.count.toNat) = s.enc.val ∧
        s.enc.count.toNat < 255) →
      exec .eCmp s = .next { s with enc := { s.enc with st := .eEmit } })) ∧
  ∀ s : State, Inv s → s.enc.st = .eCmp → s.enc.count = 1#8 →
    runTurns (List.replicate (Reference.segment s.enc.val ((s.input .enc).drop (s.enc.i + 1))) (.micro .enc)) s =
      .next
        { s with
          enc :=
            { s.enc with
              count := BitVec.ofNat 8 (Reference.segment s.enc.val ((s.input .enc).drop (s.enc.i + 1)))
              st := .eEmit } }

/-- 40_encoder R126, 20_memory R65: where the pair fits, `E_EMIT` stores the count at `OLEN` and the value at `OLEN+1` in
one step, and no other byte of any buffer changes; where it does not fit, `OutputOverflow` is raised and nothing is
written. The emitted count is 1..255 whenever the state is reached. -/
def Obligations.EmitStoresPairOrOverflows : Prop :=
  (∀ s : State, s.enc.olen + 2 ≤ s.cfg.encOutCap →
    ∃ t, exec .eEmit s = .next t ∧
      t = { s with enc := { s.enc with obuf := t.enc.obuf, olen := s.enc.olen + 2, st := .eAdv } } ∧
      t.byteAt .encObuf s.enc.olen = s.enc.count ∧ t.byteAt .encObuf (s.enc.olen + 1) = s.enc.val ∧
      ∀ (b : BufferId) (k : Nat), ¬(b = .encObuf ∧ (k = s.enc.olen ∨ k = s.enc.olen + 1)) →
        t.byteAt b k = s.byteAt b k) ∧
  (∀ s : State, s.cfg.encOutCap < s.enc.olen + 2 →
    ∃ t, exec .eEmit s = .next t ∧ t = { s with enc := { s.enc with st := .fault, err := .outputOverflow } } ∧
      t.errFlag .enc = true ∧ t.busy .enc = false) ∧
  ∀ s : State, Inv s → s.enc.st = .eEmit → 1 ≤ s.enc.count.toNat ∧ s.enc.count.toNat ≤ 255

/-! ## The decoder's micro-operations and the pair word -/

/-- 41_decoder R151, 60_exceptions R241: `D_INIT` clears five registers in every case; an odd length raises `DecodeError`
with the clears kept and no buffer touched, an even length goes to the first pair or, if 0, to the return. -/
def Obligations.InitClearsAndRejectsOddLength : Prop :=
  ∀ s : State,
    (s.dec.ilen % 2 = 1 →
      ∃ t, exec .dInit s = .next t ∧
        t = { s with
          dec := { s.dec with
            i := 0, count := 0#8, value := 0#8, j := 0#8, olen := 0, st := .fault, err := .decodeError } } ∧
        t.errCode .dec = 1#4 ∧ t.errFlag .dec = true ∧ t.busy .dec = false) ∧
    (s.dec.ilen % 2 = 0 →
      exec .dInit s = .next
        { s with
          dec := { s.dec with
            i := 0, count := 0#8, value := 0#8, j := 0#8, olen := 0,
            st := if 0 < s.dec.ilen then .dRdcnt else .dRet } })

/-- 41_decoder R152, R153: the two reads of a pair, count at the read position and value after it, every value alike; the
second sets `j` to 0. Whenever the states are reached, both indices are inside the input. -/
def Obligations.PairBytesAreReadInOrder : Prop :=
  (∀ s : State, s.dec.i < s.cfg.decInCap →
    exec .dRdcnt s = .next
      { s with dec := { s.dec with count := s.byteAt .decIbuf s.dec.i, st := .dRdval } }) ∧
  (∀ s : State, s.dec.i + 1 < s.cfg.decInCap →
    exec .dRdval s = .next
      { s with dec := { s.dec with value := s.byteAt .decIbuf (s.dec.i + 1), j := 0#8, st := .dLoop } }) ∧
  ∀ s : State, Inv s → (s.dec.st = .dRdcnt ∨ s.dec.st = .dRdval) → s.dec.i % 2 = 0 ∧ s.dec.i + 1 < s.dec.ilen

/-- 41_decoder R156, R157 and the test of R154: what `D_LOOP`, `D_NEXT`, `D_RET` make of any state; everything not named
keeps its value. Whenever they are reached, `D_LOOP` finds `j <= count` and `D_NEXT` stays within the length. `D_RET` makes
BUSY false and DONE true, and the event output rises. -/
def Obligations.DecoderRegisterStepResults : Prop :=
  (∀ s : State, Inv s →
    (s.dec.st = .dLoop → s.dec.j.toNat ≤ s.dec.count.toNat) ∧ (s.dec.st = .dNext → s.dec.i + 2 ≤ s.dec.ilen)) ∧
  ∀ s : State,
    exec .dLoop s = .next
      { s with dec := { s.dec with st := if s.dec.j.toNat < s.dec.count.toNat then .dAppend else .dNext } } ∧
    exec .dNext s = .next
      { s with
        dec := { s.dec with i := s.dec.i + 2, st := if s.dec.i + 2 < s.dec.ilen then .dRdcnt else .dRet } } ∧
    ∃ t, exec .dRet s = .next t ∧ t = { s with dec := { s.dec with st := .done } } ∧ t.busy .dec = false ∧
      t.doneFlag .dec = true ∧ t.event .dec = true

/-- 41_decoder R155: where the output is not full, `D_APPEND` stores the value at `OLEN` and no other byte of any buffer
changes; where it is full, `OutputOverflow` is raised and nothing is written. `j` does not wrap whenever the state is
reached. -/
def Obligations.AppendStoresByteOrOverflows : Prop :=
  (∀ s : State, s.dec.olen + 1 ≤ s.cfg.decOutCap →
    ∃ t, exec .dAppend s = .next t ∧
      t = { s with dec := { s.dec with obuf := t.dec.obuf, olen := s.dec.olen + 1, j := s.dec.j + 1#8, st := .dLoop } } ∧
      t.byteAt .decObuf s.dec.olen = s.dec.value ∧
      ∀ (b : BufferId) (k : Nat), ¬(b = .decObuf ∧ k = s.dec.olen) → t.byteAt b k = s.byteAt b k) ∧
  (∀ s : State, s.cfg.decOutCap < s.dec.olen + 1 →
    ∃ t, exec .dAppend s = .next t ∧ t = { s with dec := { s.dec with st := .fault, err := .outputOverflow } } ∧
      t.errFlag .dec = true ∧ t.busy .dec = false) ∧
  ∀ s : State, Inv s → s.dec.st = .dAppend →
    s.dec.j.toNat + 1 ≤ s.dec.count.toNat ∧ (s.dec.j + 1#8).toNat = s.dec.j.toNat + 1

/-- 41_decoder R164, R165: the effect of one pair word. Where it fits, the value is stored `count` times from `OLEN` on, no
other byte of any buffer changes, and the decoder is at the next pair with `j = count`; a pair with count 0 stores nothing
and raises nothing. Where it does not fit, the output is filled, `OutputOverflow` is raised and the decoder stays at the
pair. -/
def Obligations.PairWordAppendsItsRun : Prop :=
  (∀ (s : State) (c v : Byte), s.dec.olen + c.toNat ≤ s.cfg.decOutCap →
    ∃ t, exec (.pair c v) s = .next t ∧
      t = { s with
        dec := { s.dec with
          obuf := t.dec.obuf, olen := s.dec.olen + c.toNat, count := c, value := v, j := c, i := s.dec.i + 2,
          st := if s.dec.i + 2 < s.dec.ilen then .dRdcnt else .dRet } } ∧
      (∀ k, k < c.toNat → t.byteAt .decObuf (s.dec.olen + k) = v) ∧
      ∀ (b : BufferId) (k : Nat), ¬(b = .decObuf ∧ s.dec.olen ≤ k ∧ k < s.dec.olen + c.toNat) →
        t.byteAt b k = s.byteAt b k) ∧
  (∀ (s : State) (c v : Byte), s.dec.olen ≤ s.cfg.decOutCap → s.cfg.decOutCap < s.dec.olen + c.toNat →
    ∃ t, exec (.pair c v) s = .next t ∧
      t = { s with
        dec := { s.dec with
          obuf := t.dec.obuf, olen := s.cfg.decOutCap, count := c, value := v, j := t.dec.j, st := .fault,
          err := .outputOverflow } } ∧
      s.dec.olen + t.dec.j.toNat = s.cfg.decOutCap ∧
      (∀ k, s.dec.olen ≤ k → k < s.cfg.decOutCap → t.byteAt .decObuf k = v) ∧
      ∀ (b : BufferId) (k : Nat), ¬(b = .decObuf ∧ s.dec.olen ≤ k ∧ k < s.cfg.decOutCap) →
        t.byteAt b k = s.byteAt b k) ∧
  ∀ (s : State) (v : Byte),
    exec (.pairZero v) s = .next
      { s with
        dec := { s.dec with
          count := 0#8, value := v, j := 0#8, i := s.dec.i + 2,
          st := if s.dec.i + 2 < s.dec.ilen then .dRdcnt else .dRet } }

/-- 41_decoder R164, R165: the pair word as one step is its micro-operations one after another: `4 + 2c` steps where the
run fits, and where it does not, the steps up to the append that raises the fault. -/
def Obligations.PairWordIsItsMicroOperations : Prop :=
  ∀ s : State, Inv s → s.dec.st = .dRdcnt →
    (s.dec.olen + (s.byteAt .decIbuf s.dec.i).toNat ≤ s.cfg.decOutCap →
      takeTurn .pair s =
        runTurns (List.replicate (4 + 2 * (s.byteAt .decIbuf s.dec.i).toNat) (.micro .dec)) s) ∧
    (s.cfg.decOutCap < s.dec.olen + (s.byteAt .decIbuf s.dec.i).toNat →
      takeTurn .pair s = runTurns (List.replicate (4 + 2 * (s.cfg.decOutCap - s.dec.olen)) (.micro .dec)) s)

/-- The model's own stop (log 9), for the four operations that read an input buffer: an index the buffer does not have is
the named fault. `StepAlwaysAnswers` says that no run meets it (20_memory R67). -/
def Obligations.ReadOutsideBufferFaults : Prop :=
  ∀ s : State,
    (s.cfg.encInCap ≤ s.enc.i → exec .eOuter s = .fault (.readOutsideBuffer .enc s.enc.i)) ∧
    (s.enc.i + s.enc.count.toNat < s.enc.ilen → s.cfg.encInCap ≤ s.enc.i + s.enc.count.toNat →
      exec .eCmp s = .fault (.readOutsideBuffer .enc (s.enc.i + s.enc.count.toNat))) ∧
    (s.cfg.decInCap ≤ s.dec.i → exec .dRdcnt s = .fault (.readOutsideBuffer .dec s.dec.i)) ∧
    (s.cfg.decInCap ≤ s.dec.i + 1 → exec .dRdval s = .fault (.readOutsideBuffer .dec (s.dec.i + 1)))

/-! ## Host operations -/

/-- 42_host_operations R183: `H_START`, whatever `CLEAR` and the reserved bits are, puts a resting unit in its first active
state with the fault code cleared, and nothing else changes: BUSY becomes true, DONE, ERR and the event output false. A
BUSY unit ignores it. -/
def Obligations.StartBeginsRunOfRestingUnit : Prop :=
  ∀ (s : State) (u : UnitId) (clear : Bool) (reserved : BitVec 30),
    (s.busy u = true → exec (.hStart u clear reserved) s = .next s) ∧
    (s.busy u = false →
      ∃ t, exec (.hStart u clear reserved) s = .next t ∧
        (u = .enc → t = { s with enc := { s.enc with err := .none, st := .eLoad } }) ∧
        (u = .dec → t = { s with dec := { s.dec with err := .none, st := .dInit } }) ∧
        t.busy u = true ∧ t.doneFlag u = false ∧ t.errFlag u = false ∧ t.event u = false)

/-- 42_host_operations R184: `H_CLEAR` puts a resting unit in `IDLE` with the fault code cleared, and nothing else changes;
DONE, ERR and the event output become false. A BUSY unit ignores it. -/
def Obligations.ClearAcknowledgesRestingUnit : Prop :=
  ∀ (s : State) (u : UnitId) (reserved : BitVec 30),
    (s.busy u = true → exec (.hClear u reserved) s = .next s) ∧
    (s.busy u = false →
      ∃ t, exec (.hClear u reserved) s = .next t ∧
        (u = .enc → t = { s with enc := { s.enc with err := .none, st := .idle } }) ∧
        (u = .dec → t = { s with dec := { s.dec with err := .none, st := .idle } }) ∧
        t.doneFlag u = false ∧ t.errFlag u = false ∧ t.event u = false)

/-- 42_host_operations R185, 30_encoding R97: a `CTRL` word acts by its bits 1..0 alone: 00 does nothing, 01 and 11 are
`H_START`, 10 is `H_CLEAR`; bits 31..2 never matter. -/
def Obligations.CtrlWordActsByItsTwoLowBits : Prop :=
  ∀ (s : State) (u : UnitId) (w : Word32) (reserved : BitVec 30) (clear : Bool),
    exec (.hCtrlNop u reserved) s = .next s ∧
    (w.getLsbD 0 = false → w.getLsbD 1 = false → takeTurn (.ctrl u w) s = .next s) ∧
    (w.getLsbD 0 = true → takeTurn (.ctrl u w) s = exec (.hStart u clear reserved) s) ∧
    (w.getLsbD 0 = false → w.getLsbD 1 = true → takeTurn (.ctrl u w) s = exec (.hClear u reserved) s)

/-- 42_host_operations R181: `H_WR_IBUF` to a resting unit at an index its input buffer has stores that byte, and no other
byte of any buffer and no register changes; any other such write does nothing. -/
def Obligations.InputByteWriteStoresOneByte : Prop :=
  ∀ (s : State) (u : UnitId) (k : Nat) (b : Byte),
    ((s.busy u = true ∨ s.cfg.inCap u ≤ k) → exec (.hWrIbuf u k b) s = .next s) ∧
    (s.busy u = false → k < s.cfg.inCap u →
      ∃ t, exec (.hWrIbuf u k b) s = .next t ∧
        (u = .enc → t = { s with enc := { s.enc with ibuf := t.enc.ibuf } }) ∧
        (u = .dec → t = { s with dec := { s.dec with ibuf := t.dec.ibuf } }) ∧
        t.byteAt (.input u) k = b ∧
        ∀ (buf : BufferId) (k' : Nat), ¬(buf = .input u ∧ k' = k) → t.byteAt buf k' = s.byteAt buf k')

/-- 42_host_operations R182, 10_state R43: `H_WR_ILEN` to a resting unit with a length its input buffer can hold sets the
length, 0 and odd values included, and nothing else changes; any other such write does nothing. -/
def Obligations.LengthWriteIsTakenOrIgnored : Prop :=
  ∀ (s : State) (u : UnitId) (n : Word32),
    ((s.busy u = true ∨ s.cfg.inCap u < n.toNat) → exec (.hWrIlen u n) s = .next s) ∧
    (s.busy u = false → n.toNat ≤ s.cfg.inCap u →
      ∃ t, exec (.hWrIlen u n) s = .next t ∧ t.ilen u = n.toNat ∧
        (u = .enc → t = { s with enc := { s.enc with ilen := n.toNat } }) ∧
        (u = .dec → t = { s with dec := { s.dec with ilen := n.toNat } }))

/-- 42_host_operations R187, 10_state R40: `H_RD_REG` returns the content of the register map for every number and both
units, and changes nothing but what the host was told (the list `replies` is the model's own, log 5). -/
def Obligations.RegisterReadReturnsTheMap : Prop :=
  ∀ (s : State) (u : UnitId) (n : RegNum),
    ∃ w : Word32, exec (.hRdReg u n) s = .next { s with replies := s.replies ++ [.reg w] } ∧
      (n = 0#4 → w = 0#32) ∧ (n = 1#4 → w = s.status u) ∧ (n = 2#4 → w = BitVec.ofNat 32 (s.ilen u)) ∧
      (n = 3#4 → w = BitVec.ofNat 32 (s.olen u)) ∧ (n = 4#4 → w = BitVec.ofNat 32 (s.index u)) ∧
      (n = 5#4 → w.toNat = (s.countReg u).toNat) ∧ (n = 6#4 → u = .enc → w.toNat = s.enc.val.toNat) ∧
      (n = 6#4 → u = .dec → w.toNat = s.dec.value.toNat) ∧ (n = 7#4 → u = .enc → w = 0#32) ∧
      (n = 7#4 → u = .dec → w.toNat = s.dec.j.toNat) ∧ (n = 8#4 → w = BitVec.ofNat 32 (s.cfg.inCap u)) ∧
      (n = 9#4 → w = BitVec.ofNat 32 (s.cfg.outCap u)) ∧ (10 ≤ n.toNat → w = 0#32)

/-- 10_state R42: the fields of `STATUS`, bit by bit; a read has no side effect on the block (its
reply goes to the model's own list, log 5) and a write is ignored. -/
def Obligations.StatusFieldsStandWhereTheSpecSays : Prop :=
  ∀ (s : State) (u : UnitId) (w : Word32),
    (s.status u).getLsbD 0 = s.busy u ∧ (s.status u).getLsbD 1 = s.doneFlag u ∧
      (s.status u).getLsbD 2 = s.errFlag u ∧ (s.status u).getLsbD 3 = false ∧
      (s.status u).extractLsb' 4 4 = s.errCode u ∧ (s.status u).extractLsb' 8 4 = s.stCode u ∧
      (s.status u).extractLsb' 12 20 = 0#20 ∧
      exec (.hRdReg u 1#4) s = .next { s with replies := s.replies ++ [.reg (s.status u)] } ∧
      exec (.hWrReg u 1#4 w) s = .next s

/-- 42_host_operations R186: `H_RD_STATUS` returns `STATUS`, as `H_RD_REG` of register 1 does, and in every state a run
reaches the value is one of the spec's list. -/
def Obligations.StatusReadReturnsAListedValue : Prop :=
  (∀ (s : State) (u : UnitId),
    exec (.hRdStatus u) s = .next { s with replies := s.replies ++ [.reg (s.status u)] } ∧
      exec (.hRdStatus u) s = exec (.hRdReg u 1#4) s) ∧
  ∀ (s : State) (u : UnitId), Inv s →
    (s.status u = 0x00000000#32 ∧ s.idleFlag u = true) ∨
      (s.status u = 0x00000902#32 ∧ s.doneFlag u = true) ∨
      (s.status u = 0x00000A14#32 ∧ u = .dec ∧ s.dec.err = .decodeError) ∨
      (s.status u = 0x00000A24#32 ∧ s.errFlag u = true) ∨
      ∃ code, 1 ≤ code ∧ code ≤ (match u with | .enc => 8 | .dec => 7) ∧ s.busy u = true ∧
        s.status u = BitVec.ofNat 32 (256 * code + 1)

/-- 42_host_operations R188, R189, 20_memory R70: a host read below a buffer's capacity returns the byte there; at or above
it, some byte; nothing else changes but what the host was told (and the model's draw counter, log 7). -/
def Obligations.BufferReadReturnsTheByte : Prop :=
  ∀ (s : State) (u : UnitId) (k : Nat),
    (k < s.cfg.outCap u →
      exec (.hRdObuf u k) s = .next { s with replies := s.replies ++ [.byte (s.byteAt (.output u) k)] }) ∧
    (k < s.cfg.inCap u →
      exec (.hRdIbuf u k) s = .next { s with replies := s.replies ++ [.byte (s.byteAt (.input u) k)] }) ∧
    (s.cfg.outCap u ≤ k →
      ∃ b, exec (.hRdObuf u k) s = .next { s with replies := s.replies ++ [.byte b], draws := s.draws + 1 }) ∧
    (s.cfg.inCap u ≤ k →
      ∃ b, exec (.hRdIbuf u k) s = .next { s with replies := s.replies ++ [.byte b], draws := s.draws + 1 })

/-- 42_host_operations R190, R180: `H_WR_REG` to a number other than 0 and 2 does nothing; number 0 is the `CTRL` word,
number 2 is `H_WR_ILEN`. A write of a buffer byte or of the length that is ignored leaves no trace either. -/
def Obligations.RegisterWriteReachesOnlyCtrlAndLength : Prop :=
  ∀ (s : State) (u : UnitId) (n : RegNum) (w : Word32) (k : Nat) (b : Byte),
    (n ≠ 0#4 → n ≠ 2#4 → exec (.hWrReg u n w) s = .next s) ∧
    ((s.busy u = true ∨ s.cfg.inCap u ≤ k) → exec (.hWrIbuf u k b) s = .next s) ∧
    ((s.busy u = true ∨ s.cfg.inCap u < w.toNat) → exec (.hWrReg u 2#4 w) s = .next s) ∧
    exec (.hWrReg u 0#4 w) s = takeTurn (.ctrl u w) s ∧ exec (.hWrReg u 2#4 w) s = exec (.hWrIlen u w) s ∧
    ∃ t, exec (.hWrReg u n w) s = .next t

/-! ## Invariants -/

/-- The invariant of 10_state R47 holds after reset. -/
def Obligations.ResetMeetsTheInvariant : Prop := Inv State.reset

/-- 10_state R47: every step, whoever takes it, keeps the invariant: the lengths stay within the capacities, the fault code
agrees with the state, the scan positions, counts and latched values agree with the input, the encoder's output length and
the decoder's read position stay even, and the buffers keep their canonical form. -/
def Obligations.StepKeepsTheInvariant : Prop :=
  ∀ s t : State, Inv s → step s = .next t → Inv t

/-- 93 part 2: "every reachable state and every host operation has exactly one successor": where the invariant holds, a
step answers a next state, never a fault of the model and never a refusal. -/
def Obligations.StepAlwaysAnswers : Prop :=
  ∀ s : State, Inv s → ∃ t, step s = .next t

/-- 10_state R39: exactly one of `BUSY`, `DONE`, `ERR`, `IDLE` holds of a unit, whatever the state; the event output is
`DONE or ERR` (60_exceptions R250). -/
def Obligations.ExactlyOneStatusFlagHolds : Prop :=
  ∀ (s : State) (u : UnitId),
    ([s.busy u, s.doneFlag u, s.errFlag u, s.idleFlag u].count true = 1) ∧
      (s.event u = true ↔ s.doneFlag u = true ∨ s.errFlag u = true)

/-- 40_encoder R129, R130, 41_decoder R158, R159, 42_host_operations R191: the next-state tables are the whole control flow
of the micro-operations. Whoever takes a turn, a unit's state either stays, or goes to `IDLE` by reset, or leaves rest by a
word written to the `CTRL` register of this very unit (for the first active state by `START`, for `IDLE` by `CLEAR`), or
takes one of the table's transitions in the unit's own step; so nothing but reset takes a BUSY unit off its way. The pair word
as one step (log 10) adds the two moves that its micro-operations make one after another: from `D_RDCNT` to `D_RET` and to
`FAULT`. -/
def Obligations.OnlyTableTransitionsHappen : Prop :=
  ∀ (s t : State) (turn : Turn), takeTurn turn s = .next t →
    (t.enc.st = s.enc.st ∨ (turn = .reset ∧ t.enc.st = .idle) ∨
      (s.busy .enc = false ∧ ∃ w : Word32, (turn = .ctrl .enc w ∨ turn = .call (.wrReg .enc 0#4 w)) ∧
        ((w.getLsbD 0 = true ∧ t.enc.st = .eLoad) ∨ (w.getLsbD 0 = false ∧ w.getLsbD 1 = true ∧ t.enc.st = .idle))) ∨
      (turn = .micro .enc ∧ (s.enc.st, t.enc.st) ∈
        [(.eLoad, .eRinit), (.eRinit, .eOuter), (.eRinit, .eRet), (.eOuter, .eCinit), (.eCinit, .eCmp),
          (.eCmp, .eEmit), (.eEmit, .eAdv), (.eEmit, .fault), (.eAdv, .eOuter), (.eAdv, .eRet), (.eRet, .done)])) ∧
    (t.dec.st = s.dec.st ∨ (turn = .reset ∧ t.dec.st = .idle) ∨
      (s.busy .dec = false ∧ ∃ w : Word32, (turn = .ctrl .dec w ∨ turn = .call (.wrReg .dec 0#4 w)) ∧
        ((w.getLsbD 0 = true ∧ t.dec.st = .dInit) ∨ (w.getLsbD 0 = false ∧ w.getLsbD 1 = true ∧ t.dec.st = .idle))) ∨
      (turn = .micro .dec ∧ (s.dec.st, t.dec.st) ∈
        [(.dInit, .fault), (.dInit, .dRdcnt), (.dInit, .dRet), (.dRdcnt, .dRdval), (.dRdval, .dLoop),
          (.dLoop, .dAppend), (.dLoop, .dNext), (.dAppend, .dLoop), (.dAppend, .fault), (.dNext, .dRdcnt),
          (.dNext, .dRet), (.dRet, .done)]) ∨
      (turn = .pair ∧ (s.dec.st, t.dec.st) ∈ [(.dRdcnt, .dRet), (.dRdcnt, .fault)]))

/-! ## Isolation -/

/-- 20_memory R67: a unit's step reads its input only below `ILEN`: with any other bytes at and above `ILEN` it does the
same. -/
def Obligations.UnitReadsStayBelowLength : Prop :=
  (∀ (s t : State) (m : Memory), Inv s → (∀ k, k < s.enc.ilen → Memory.find m k = Memory.find s.enc.ibuf k) →
    takeTurn (.micro .enc) s = .next t →
    takeTurn (.micro .enc) { s with enc := { s.enc with ibuf := m } } =
      .next { t with enc := { t.enc with ibuf := m } }) ∧
  ∀ (s t : State) (m : Memory), Inv s → (∀ k, k < s.dec.ilen → Memory.find m k = Memory.find s.dec.ibuf k) →
    takeTurn (.micro .dec) s = .next t →
    takeTurn (.micro .dec) { s with dec := { s.dec with ibuf := m } } =
      .next { t with dec := { t.dec with ibuf := m } }

/-- 10_state R47 (h): where the host wrote every byte of a unit's input, no step of the unit depends on an unspecified
byte: with other free values (another reset count) it does the same. -/
def Obligations.WrittenInputHidesFreeBytes : Prop :=
  ∀ (s t : State) (u : UnitId) (r : Nat), Inv s → s.inputWritten u → takeTurn (.micro u) s = .next t →
    takeTurn (.micro u) { s with resets := r } = .next { t with resets := r }

/-- 00_scope R5, 60_exceptions R256: the units share no state. Whatever turn is on one unit (its micro-operation, the pair
word of the decoder, a `CTRL` word or any of the seven operations by name, reads among them) leaves the other unit as it was,
and does not depend on it: with another unit in its place the turn does the same, replies included. -/
def Obligations.UnitsShareNoState : Prop :=
  ∀ (s t : State) (turn : Turn), takeTurn turn s = .next t →
    (turn.unit = some .enc →
      t.dec = s.dec ∧ ∀ d : Dec, takeTurn turn { s with dec := d } = .next { t with dec := d }) ∧
    (turn.unit = some .dec →
      t.enc = s.enc ∧ ∀ e : Enc, takeTurn turn { s with enc := e } = .next { t with enc := e })

/-- 42_host_operations R196: while a unit is BUSY, no host operation on any unit changes anything of it. -/
def Obligations.BusyUnitIgnoresTheHost : Prop :=
  ∀ (s t : State) (u : UnitId) (w : Word32) (c : HostCall), s.busy u = true →
    (takeTurn (.ctrl u w) s = .next t ∨ takeTurn (.call c) s = .next t) →
      (u = .enc → t.enc = s.enc) ∧ (u = .dec → t.dec = s.dec) ∧ t.cfg = s.cfg ∧ t.resets = s.resets

/-- 20_memory R66: no read of the host has a side effect on the block, and reading a register or a byte again returns the
same value. -/
def Obligations.HostReadsHaveNoSideEffect : Prop :=
  ∀ (s t : State) (i : Instr) (u : UnitId) (n : RegNum) (k : Nat),
    (i = .hRdStatus u ∨ i = .hRdReg u n ∨ (i = .hRdObuf u k ∧ k < s.cfg.outCap u) ∨ (i = .hRdIbuf u k ∧ k < s.cfg.inCap u)) →
      exec i s = .next t →
      t.enc = s.enc ∧ t.dec = s.dec ∧ t.cfg = s.cfg ∧ t.resets = s.resets ∧ t.draws = s.draws ∧
        ∃ r, t.replies = s.replies ++ [r] ∧ exec i t = .next { t with replies := t.replies ++ [r] }

/-! ## The two functions -/

/-- 40_encoder R132: the equations of `encode`. -/
def Obligations.EncodeMeetsItsEquations : Prop :=
  Reference.encode [] = [] ∧
    ∀ (v : Byte) (rest : List Byte),
      Reference.encode (v :: rest) =
        [BitVec.ofNat 8 (min 255 (1 + Reference.leading v rest)), v] ++
          Reference.encode (rest.drop (min 255 (1 + Reference.leading v rest) - 1))

/-- 43_codec_laws R210: the round trip, for every byte list. -/
def Obligations.DecodeOfEncodedBufferIsTheBuffer : Prop :=
  ∀ bytes : List Byte, Reference.decode (Reference.encode bytes) = .ok bytes

/-- 43_codec_laws R212: a run of `k` equal bytes becomes `k / 255` full pairs and, if a remainder is left, one pair with the
remainder, last. -/
def Obligations.LongRunSplitsIntoFullSegments : Prop :=
  ∀ (v : Byte) (k : Nat), 1 ≤ k →
    Reference.encode (List.replicate k v) =
      (List.replicate (k / 255) [255#8, v]).flatten ++ (if k % 255 = 0 then [] else [BitVec.ofNat 8 (k % 255), v])

/-- 43_codec_laws R213: a run is never merged with what follows it: a run and a rest that does not begin with its byte are
encoded one after the other. -/
def Obligations.SeparateRunsAreNeverMerged : Prop :=
  (∀ (v : Byte) (k : Nat) (rest : List Byte), rest.head? ≠ some v →
    Reference.encode (List.replicate k v ++ rest) = Reference.encode (List.replicate k v) ++ Reference.encode rest) ∧
  ∀ a b : Byte, a ≠ b → Reference.encode [a, a, a, b, b, a, a] = [3#8, a, 2#8, b, 2#8, a]

/-- 43_codec_laws R214: what the encoder produces: an even length, counts 1..255, equal adjacent values only after a count
of 255 (these three are `canonical`), counts that sum to the input's length. -/
def Obligations.EncodedBufferIsCanonical : Prop :=
  ∀ bytes : List Byte,
    (Reference.encode bytes).length % 2 = 0 ∧ Reference.canonical (Reference.encode bytes) = true ∧
      Reference.countSum (Reference.encode bytes) = bytes.length

/-- 43_codec_laws R216, 41_decoder R161: `decode` is total on even lengths and the error on odd ones, and it is additive on
even lengths; `encode` is not. -/
def Obligations.DecodeIsTotalAndAdditiveOnEvenLengths : Prop :=
  (∀ encoded : List Byte,
    (encoded.length % 2 = 0 → ∃ out, Reference.decode encoded = .ok out) ∧
      (encoded.length % 2 = 1 → Reference.decode encoded = .error .decodeError)) ∧
  (∀ e1 e2 o1 o2 : List Byte, Reference.decode e1 = .ok o1 → Reference.decode e2 = .ok o2 →
    Reference.decode (e1 ++ e2) = .ok (o1 ++ o2)) ∧
  Reference.encode ([7#8] ++ [7#8]) ≠ Reference.encode [7#8] ++ Reference.encode [7#8]

/-- 43_codec_laws R217: encoding the decoded buffer gives the encoded buffer back exactly when that is canonical. -/
def Obligations.EncodeOfDecodeFixesExactlyTheCanonical : Prop :=
  ∀ encoded out : List Byte, Reference.decode encoded = .ok out →
    (Reference.encode out = encoded ↔ Reference.canonical encoded = true)

/-! ## Unit runs -/

/-- 40_encoder R133: what a run of the encoder computes. Where the result fits it ends in `DONE` after `3 + 4P + N` steps
with the result `encode(B)`; where it does not, in `FAULT` with the longest prefix of whole pairs that fits. Input, length
and everything outside the encoder are unchanged. -/
def Obligations.EncoderRunComputesEncode : Prop :=
  ∀ s : State, Inv s → s.enc.st = .eLoad →
    ((Reference.encode (s.input .enc)).length ≤ s.cfg.encOutCap →
      ∃ t, runTurns (List.replicate (3 + 4 * ((Reference.encode (s.input .enc)).length / 2) + s.enc.ilen)
          (.micro .enc)) s = .next t ∧
        t = { s with enc := t.enc } ∧ t.enc.ibuf = s.enc.ibuf ∧ t.enc.ilen = s.enc.ilen ∧ t.enc.st = .done ∧
        t.enc.err = .none ∧ t.enc.i = s.enc.ilen ∧ t.enc.olen = (Reference.encode (s.input .enc)).length ∧
        t.output .enc = Reference.encode (s.input .enc) ∧
        (s.input .enc = [] → t.enc.count = 0#8 ∧ t.enc.val = 0#8) ∧
        ∀ (front : List Byte) (c v : Byte), Reference.encode (s.input .enc) = front ++ [c, v] →
          t.enc.count = c ∧ t.enc.val = v) ∧
    (s.cfg.encOutCap < (Reference.encode (s.input .enc)).length →
      ∃ n t, runTurns (List.replicate n (.micro .enc)) s = .next t ∧
        t = { s with enc := t.enc } ∧ t.enc.ibuf = s.enc.ibuf ∧ t.enc.ilen = s.enc.ilen ∧ t.enc.st = .fault ∧
        t.enc.err = .outputOverflow ∧ t.enc.olen % 2 = 0 ∧ t.enc.olen ≤ s.cfg.encOutCap ∧
        s.cfg.encOutCap < t.enc.olen + 2 ∧
        t.output .enc = (Reference.encode (s.input .enc)).take t.enc.olen)

/-- 41_decoder R162: what a run of the decoder computes. (a) An odd length: one step, `FAULT`, nothing produced. (b) The
result fits: `DONE` after `2 + 4P + 2M` steps with the result `decode(E)`. (c) It does not: `FAULT` with the output full of
the result's first bytes. Input, length and everything outside the decoder are unchanged. -/
def Obligations.DecoderRunComputesDecode : Prop :=
  ∀ s : State, Inv s → s.dec.st = .dInit →
    (s.dec.ilen % 2 = 1 →
      ∃ t, runTurns [.micro .dec] s = .next t ∧ t = { s with dec := t.dec } ∧ t.dec.ibuf = s.dec.ibuf ∧
        t.dec.ilen = s.dec.ilen ∧ t.dec.st = .fault ∧ t.dec.err = .decodeError ∧ t.dec.olen = 0 ∧ t.dec.i = 0 ∧
        t.dec.count = 0#8 ∧ t.dec.value = 0#8 ∧ t.dec.j = 0#8) ∧
    (∀ out, Reference.decode (s.input .dec) = .ok out → out.length ≤ s.cfg.decOutCap →
      ∃ t, runTurns (List.replicate (2 + 4 * (s.dec.ilen / 2) + 2 * out.length) (.micro .dec)) s = .next t ∧
        t = { s with dec := t.dec } ∧ t.dec.ibuf = s.dec.ibuf ∧ t.dec.ilen = s.dec.ilen ∧ t.dec.st = .done ∧
        t.dec.err = .none ∧ t.dec.i = s.dec.ilen ∧ t.dec.olen = out.length ∧
        out.length = Reference.countSum (s.input .dec) ∧ t.output .dec = out ∧
        (s.input .dec = [] → t.dec.count = 0#8 ∧ t.dec.value = 0#8 ∧ t.dec.j = 0#8) ∧
        ∀ (front : List Byte) (c v : Byte), s.input .dec = front ++ [c, v] →
          t.dec.count = c ∧ t.dec.value = v ∧ t.dec.j = c) ∧
    ∀ out, Reference.decode (s.input .dec) = .ok out → s.cfg.decOutCap < out.length →
      ∃ n t, runTurns (List.replicate n (.micro .dec)) s = .next t ∧ t = { s with dec := t.dec } ∧
        t.dec.ibuf = s.dec.ibuf ∧ t.dec.ilen = s.dec.ilen ∧ t.dec.st = .fault ∧ t.dec.err = .outputOverflow ∧
        t.dec.olen = s.cfg.decOutCap ∧ t.output .dec = out.take s.cfg.decOutCap ∧
        t.dec.i % 2 = 0 ∧ t.dec.i < s.dec.ilen ∧
        Reference.countSum ((s.input .dec).take t.dec.i) ≤ s.cfg.decOutCap ∧
        s.cfg.decOutCap < Reference.countSum ((s.input .dec).take (t.dec.i + 2))

/-- 43_codec_laws R211: the empty buffers, on the functions and on the units: 3 steps of the encoder, 2 of the decoder. -/
def Obligations.EmptyInputGivesEmptyResult : Prop :=
  Reference.encode [] = [] ∧ Reference.decode [] = .ok [] ∧
  (∀ s : State, s.enc.st = .eLoad → s.enc.ilen = 0 →
    ∃ t, runTurns (List.replicate 3 (.micro .enc)) s = .next t ∧ t.enc.st = .done ∧ t.enc.olen = 0) ∧
  ∀ s : State, s.dec.st = .dInit → s.dec.ilen = 0 →
    ∃ t, runTurns (List.replicate 2 (.micro .dec)) s = .next t ∧ t.dec.st = .done ∧ t.dec.olen = 0

/-- 40_encoder R134, 41_decoder R163: every unit run ends, within `3 + 5N` steps of the encoder and `2 + 257 * ILEN` of the
decoder. -/
def Obligations.EveryUnitRunEnds : Prop :=
  (∀ s : State, Inv s → s.enc.st = .eLoad →
    ∃ n t, n ≤ 3 + 5 * s.enc.ilen ∧ runTurns (List.replicate n (.micro .enc)) s = .next t ∧ t.busy .enc = false) ∧
  ∀ s : State, Inv s → s.dec.st = .dInit →
    ∃ n t, n ≤ 2 + 257 * s.dec.ilen ∧ runTurns (List.replicate n (.micro .dec)) s = .next t ∧ t.busy .dec = false

/-- 43_codec_laws R215: the size bounds, with the case of equality of the first and a buffer that reaches the second; and in
a configuration sized as the rule says, no input content makes the encoder fault, and none of even length the decoder. The
reference configuration is sized so. -/
def Obligations.SizeBoundsKeepSizedBuffersFaultFree : Prop :=
  (∀ bytes : List Byte,
    (Reference.encode bytes).length ≤ 2 * bytes.length ∧
      ((Reference.encode bytes).length = 2 * bytes.length ↔ bytes.IsChain (· ≠ ·)) ∧
      2 * ((bytes.length + 254) / 255) ≤ (Reference.encode bytes).length) ∧
  (∀ (v : Byte) (k : Nat), (Reference.encode (List.replicate k v)).length = 2 * ((k + 254) / 255)) ∧
  (∀ encoded out : List Byte, Reference.decode encoded = .ok out →
    out.length = Reference.countSum encoded ∧ out.length ≤ 255 * (encoded.length / 2)) ∧
  (∀ s : State, Inv s → s.enc.st = .eLoad → 2 * s.cfg.encInCap ≤ s.cfg.encOutCap →
    ∃ n t, runTurns (List.replicate n (.micro .enc)) s = .next t ∧ t.enc.st = .done) ∧
  (2 * Params.reference.encInCap ≤ Params.reference.encOutCap ∧
    255 * (Params.reference.decInCap / 2) ≤ Params.reference.decOutCap) ∧
  ∀ s : State, Inv s → s.dec.st = .dInit → s.dec.ilen % 2 = 0 → 255 * (s.cfg.decInCap / 2) ≤ s.cfg.decOutCap →
    ∃ n t, runTurns (List.replicate n (.micro .dec)) s = .next t ∧ t.dec.st = .done

/-- 43_codec_laws R220: where a unit run ends depends on the input bytes, the length and the output capacity alone. Two
units about to start that agree on these agree, after any number of steps from the clears on, on the state, the fault code,
the result so far and the scratch registers. -/
def Obligations.UnitRunIsPureFunctionOfItsInput : Prop :=
  (∀ (s s' : State) (n : Nat), Inv s → Inv s' → s.enc.st = .eLoad → s'.enc.st = .eLoad → s.input .enc = s'.input .enc →
    s.enc.ilen = s'.enc.ilen → s.cfg.encOutCap = s'.cfg.encOutCap → 2 ≤ n →
    ∃ t t', runTurns (List.replicate n (.micro .enc)) s = .next t ∧
      runTurns (List.replicate n (.micro .enc)) s' = .next t' ∧ t.enc.st = t'.enc.st ∧ t.enc.err = t'.enc.err ∧
      t.enc.olen = t'.enc.olen ∧ t.output .enc = t'.output .enc ∧ t.enc.i = t'.enc.i ∧ t.enc.count = t'.enc.count ∧
      t.enc.val = t'.enc.val) ∧
  ∀ (s s' : State) (n : Nat), Inv s → Inv s' → s.dec.st = .dInit → s'.dec.st = .dInit → s.input .dec = s'.input .dec →
    s.dec.ilen = s'.dec.ilen → s.cfg.decOutCap = s'.cfg.decOutCap → 1 ≤ n →
    ∃ t t', runTurns (List.replicate n (.micro .dec)) s = .next t ∧
      runTurns (List.replicate n (.micro .dec)) s' = .next t' ∧ t.dec.st = t'.dec.st ∧ t.dec.err = t'.dec.err ∧
      t.dec.olen = t'.dec.olen ∧ t.output .dec = t'.output .dec ∧ t.dec.i = t'.dec.i ∧ t.dec.count = t'.dec.count ∧
      t.dec.value = t'.dec.value ∧ t.dec.j = t'.dec.j

/-- 42_host_operations R196, 40_encoder R133: a run of the encoder in the machine's own steps, however the other agents'
turns lie between its steps: any host operations on either unit, the decoder's steps and pair words, everything but a reset.
After the run's last step the result is `encode(B)`. -/
def Obligations.EncoderRunIgnoresInterleaving : Prop :=
  ∀ (s : State) (ts rest : List Turn), Inv s → s.enc.st = .eLoad → s.agenda = ts ++ rest → Turn.reset ∉ ts →
    ts.getLast? = some (.micro .enc) → (Reference.encode (s.input .enc)).length ≤ s.cfg.encOutCap →
    ts.count (.micro .enc) = 3 + 4 * ((Reference.encode (s.input .enc)).length / 2) + s.enc.ilen →
    ∃ t, steps ts.length s = .next t ∧ t.agenda = rest ∧ t.enc.st = .done ∧
      t.output .enc = Reference.encode (s.input .enc)

/-- 42_host_operations R196, 41_decoder R162 for the decoder: any host operations on either unit and the encoder's steps may
lie between the decoder's micro-operations. -/
def Obligations.DecoderRunIgnoresInterleaving : Prop :=
  ∀ (s : State) (ts rest : List Turn) (out : List Byte), Inv s → s.dec.st = .dInit → s.agenda = ts ++ rest →
    Turn.reset ∉ ts → Turn.pair ∉ ts → ts.getLast? = some (.micro .dec) →
    Reference.decode (s.input .dec) = .ok out → out.length ≤ s.cfg.decOutCap →
    ts.count (.micro .dec) = 2 + 4 * (s.dec.ilen / 2) + 2 * out.length →
    ∃ t, steps ts.length s = .next t ∧ t.agenda = rest ∧ t.dec.st = .done ∧ t.output .dec = out

/-- 70_reset_and_hazards R293, in the model's order of turns after the agenda (log 4): with nothing on the agenda every
run of either unit ends, within twice its own bound. -/
def Obligations.BusyUnitsComeToRest : Prop :=
  ∀ s : State, Inv s → s.agenda = [] →
    (s.enc.st = .eLoad → ∃ n t, n ≤ 2 * (3 + 5 * s.enc.ilen) ∧ steps n s = .next t ∧ t.busy .enc = false) ∧
    (s.dec.st = .dInit → ∃ n t, n ≤ 2 * (2 + 257 * s.dec.ilen) ∧ steps n s = .next t ∧ t.busy .dec = false)

/-- 30_encoding R103, 42_host_operations R192, R193: the scripts `ENCODE` and `DECODE`, for every input the host can load,
every order of its writes and every schedule of the host and the machine, with the units' turns and pair words on the agenda
(log 3, log 23). The host never reports anything but the function's result or the fault code the rules give, whatever the
schedule; under a schedule long enough, with the units alternating (log 4), it does report. What it reports is what the unit
holds; its replies (log 5) are polls that find `BUSY`, then `STATUS` and, of a run that ended in `DONE`, the length and the
bytes. A unit at rest beside it stays as it was. -/
def Obligations.HostScriptsReturnTheFunctions : Prop :=
  ∀ (s : State) (u : UnitId) (bytes : List Byte) (writes : List Turn) (schedule : List Script.Mover), Inv s →
    s.busy u = false → bytes.length ≤ s.cfg.inCap u → writes.Perm (Script.load u bytes) →
    (∀ turn ∈ s.agenda, turn = .micro .enc ∨ turn = .micro .dec ∨ turn = .pair) →
    ∃ h t, Script.perform schedule (.begin (Script.callUnit u writes)) s = .next (h, t) ∧
      (s.agenda = [] → Script.enough s.cfg u bytes.length schedule → h.report ≠ none) ∧
      (∀ r, h.report = some r → r = Script.expected s.cfg u bytes ∧
        ∃ polls : List Reply, (∀ p ∈ polls, ∃ w : Word32, p = .reg w ∧ w.getLsbD 0 = true) ∧
          (∀ out, r = .returned out → t.doneFlag u = true ∧ t.output u = out ∧
            t.replies = s.replies ++ polls ++
              .reg 0x902#32 :: .reg (BitVec.ofNat 32 out.length) :: out.map .byte) ∧
          ∀ code, r = .failed code → t.errFlag u = true ∧ t.errCode u = code ∧
            t.replies = s.replies ++ polls ++ [.reg (t.status u)]) ∧
      (u = .enc → s.busy .dec = false → t.dec = s.dec) ∧ (u = .dec → s.busy .enc = false → t.enc = s.enc)

/-- 43_codec_laws R218: the hardware round trip. The host performs `ENCODE`, then `DECODE` on the bytes the first script
reported; both schedules are long enough and the agenda is empty (log 3, log 4, log 23). The second script reports the raw
buffer, whose bytes are the last replies (log 5), both units rest in `DONE`, and the raw buffer stands in `DEC.OBUF`. -/
def Obligations.HardwareRoundTripReturnsTheBuffer : Prop :=
  ∀ (s : State) (bytes : List Byte) (first second : List Script.Mover), Inv s → s.agenda = [] →
    s.busy .enc = false → s.busy .dec = false →
    bytes.length ≤ s.cfg.encInCap → (Reference.encode bytes).length ≤ s.cfg.encOutCap →
    (Reference.encode bytes).length ≤ s.cfg.decInCap → bytes.length ≤ s.cfg.decOutCap →
    Script.enough s.cfg .enc bytes.length first → Script.enough s.cfg .dec (Reference.encode bytes).length second →
    ∃ (h1 h2 : Script.Caller) (t1 t2 : State) (encoded : List Byte) (front : List Reply),
      Script.perform first (.begin (Script.encode bytes)) s = .next (h1, t1) ∧ h1.report = some (.returned encoded) ∧
      Script.perform second (.begin (Script.decode encoded)) t1 = .next (h2, t2) ∧
      h2.report = some (.returned bytes) ∧ encoded = Reference.encode bytes ∧ t2.enc.st = .done ∧ t2.dec.st = .done ∧
      t2.output .enc = encoded ∧ t2.output .dec = bytes ∧ t2.dec.olen = bytes.length ∧
      t2.replies = front ++ .reg 0x902#32 :: .reg (BitVec.ofNat 32 bytes.length) :: bytes.map .byte
end

