-- ==== Sys2Proof/Laws/Config.lean ====
section
/-! SUPPORT. What a legal configuration gives (00_scope R7). -/

namespace Sys2Proof

/-- The check as the arithmetic of 00_scope R6 and R7. -/
theorem Params.wf_iff (p : Params) :
    p.wf = true ↔ 1 ≤ p.iw ∧ p.iw ≤ 32 ∧
      max (max p.encInCap p.encOutCap) (max p.decInCap p.decOutCap) + 2 < 2 ^ p.iw := by
  simp only [Params.wf, Bool.and_eq_true, decide_eq_true_eq, and_assoc]
  rfl

/-- Every capacity is a 32-bit value with room for the sums of 00_scope R7. -/
theorem Params.wf_caps {p : Params} (h : p.wf = true) (u : UnitId) :
    p.inCap u + 2 < 2 ^ p.iw ∧ p.outCap u + 2 < 2 ^ p.iw ∧ 2 ^ p.iw ≤ 2 ^ 32 := by
  obtain ⟨_, h32, hmax⟩ := p.wf_iff.1 h
  refine ⟨?_, ?_, Nat.pow_le_pow_right (by omega) h32⟩ <;> cases u <;> simp only [Params.inCap, Params.outCap] <;> omega

end Sys2Proof
end

