-- ==== Sys2Proof/Laws/Encoding.lean ====
section
/-! SUPPORT. The fields of a `CTRL` word (30_encoding R90): a word is its three fields, and each field of a word put
together from three fields is the one put in. -/

namespace Sys2Proof

theorem ctrlWord_start (reserved : BitVec 30) (clear start : Bool) :
    (ctrlWord reserved clear start).getLsbD 0 = start := by
  simp only [ctrlWord, BitVec.getLsbD_append]; simp

theorem ctrlWord_clear (reserved : BitVec 30) (clear start : Bool) :
    (ctrlWord reserved clear start).getLsbD 1 = clear := by
  simp only [ctrlWord, BitVec.getLsbD_append]; simp

@[simp] theorem ctrlWord_reserved (reserved : BitVec 30) (clear start : Bool) :
    ctrlReserved (ctrlWord reserved clear start) = reserved := by
  apply BitVec.eq_of_getLsbD_eq
  intro i hi
  simp only [ctrlReserved, ctrlWord, BitVec.getLsbD_extractLsb', BitVec.getLsbD_append]
  simp [hi, show ¬(2 + i) < 1 by omega]

theorem ctrlWord_of_fields (w : Word32) : ctrlWord (ctrlReserved w) (w.getLsbD 1) (w.getLsbD 0) = w := by
  apply BitVec.eq_of_getLsbD_eq
  intro i hi
  simp only [ctrlWord, BitVec.getLsbD_append, ctrlReserved, BitVec.getLsbD_extractLsb']
  rcases i with _ | _ | i
  · simp
  · simp
  · have : i < 30 := by omega
    simp [this]; congr 1; omega

/-- A word with `START` set is `H_START` (30_encoding R97). -/
theorem decodeCtrl_start {u : UnitId} {w : Word32} (h : w.getLsbD 0 = true) :
    decodeCtrl u w = .hStart u (w.getLsbD 1) (ctrlReserved w) := by rw [decodeCtrl, if_pos h]

/-- A word with `CLEAR` set alone is `H_CLEAR` (30_encoding R97). -/
theorem decodeCtrl_clear {u : UnitId} {w : Word32} (h0 : w.getLsbD 0 = false) (h1 : w.getLsbD 1 = true) :
    decodeCtrl u w = .hClear u (ctrlReserved w) := by rw [decodeCtrl, h0, if_neg Bool.false_ne_true, if_pos h1]

/-- A word with neither bit set has no effect (30_encoding R97). -/
theorem decodeCtrl_nop {u : UnitId} {w : Word32} (h0 : w.getLsbD 0 = false) (h1 : w.getLsbD 1 = false) :
    decodeCtrl u w = .hCtrlNop u (ctrlReserved w) := by
  rw [decodeCtrl, h0, if_neg Bool.false_ne_true, h1, if_neg Bool.false_ne_true]

end Sys2Proof
end

