-- ==== Sys2Proof/Laws/Memory.lean ====
section
/-! SUPPORT. The laws of a buffer's written bytes: a read after a write, the canonical form kept by every operation, and
that the canonical form makes equal memories equal data. -/

namespace Sys2Proof.Machine.Memory

/-- A read after a write: the byte written at its index, the old content everywhere else. -/
theorem find_write (m : Memory) (k : Nat) (b : Byte) (k' : Nat) :
    find (write m k b) k' = if k' = k then some b else find m k' := by
  induction m with
  | nil => simp [write, find, eq_comm]
  | cons cell rest ih =>
    simp only [write]
    split
    · simp [find, eq_comm]
    · split
      · next h => simp only [find, h]; by_cases hk : k' = cell.1 <;> simp [hk, eq_comm]
      · next h => simp only [find, ih]; by_cases hk : cell.1 = k' <;> simp [hk]; omega

@[simp] theorem find_write_same (m : Memory) (k : Nat) (b : Byte) : find (write m k b) k = some b := by
  simp [find_write]

theorem find_write_other {m : Memory} {k k' : Nat} (b : Byte) (h : k' ≠ k) : find (write m k b) k' = find m k' := by
  simp [find_write, h]

/-- A read after a run of writes (41_decoder R164). -/
theorem find_writeRun (n : Nat) (m : Memory) (k : Nat) (b : Byte) (k' : Nat) :
    find (writeRun n m k b) k' = if k ≤ k' ∧ k' < k + n then some b else find m k' := by
  induction n generalizing m k with
  | zero => simp only [writeRun]; split <;> [omega; rfl]
  | succ n ih =>
    simp only [writeRun, ih, find_write]
    split <;> split <;> try split
    all_goals first | rfl | omega

/-- The last byte of a run of writes may be written last. -/
theorem writeRun_succ (n : Nat) (m : Memory) (k : Nat) (b : Byte) :
    writeRun (n + 1) m k b = write (writeRun n m k b) (k + n) b := by
  induction n generalizing m k with
  | zero => rfl
  | succ n ih =>
    rw [writeRun, ih, writeRun]
    congr 1
    omega

/-- A listed entry after a write is the one written or an old one. -/
theorem mem_write {m : Memory} {k : Nat} {b : Byte} {cell : Host.Cell} (h : cell ∈ write m k b) :
    cell = (k, b) ∨ cell ∈ m := by
  induction m with
  | nil => simpa [write] using h
  | cons c rest ih =>
    simp only [write] at h
    split at h
    · simpa using h
    · split at h
      · rcases List.mem_cons.1 h with h | h
        · exact .inl h
        · exact .inr (List.mem_cons_of_mem _ h)
      · rcases List.mem_cons.1 h with h | h
        · exact .inr (h ▸ List.mem_cons_self)
        · rcases ih h with h | h
          · exact .inl h
          · exact .inr (List.mem_cons_of_mem _ h)

/-- The canonical form is a head below every later index, and a canonical rest. -/
theorem wf_cons {cell : Host.Cell} {rest : Memory} :
    wf (cell :: rest) ↔ (∀ c ∈ rest, cell.1 < c.1) ∧ wf rest := by
  simp [wf, List.pairwise_cons]

theorem wf_nil : wf [] := by simp [wf]

/-- A write keeps the canonical form. -/
theorem write_wf {m : Memory} (h : wf m) (k : Nat) (b : Byte) : wf (write m k b) := by
  induction m with
  | nil => simp [write, wf]
  | cons c rest ih =>
    obtain ⟨hlt, hrest⟩ := wf_cons.1 h
    simp only [write]
    split
    · next hk =>
      refine wf_cons.2 ⟨fun c' hc' => ?_, h⟩
      rcases List.mem_cons.1 hc' with rfl | hc'
      · exact hk
      · exact hk.trans (hlt c' hc')
    · split
      · next hk => exact wf_cons.2 ⟨fun c' hc' => hk ▸ hlt c' hc', hrest⟩
      · refine wf_cons.2 ⟨fun c' hc' => ?_, ih hrest⟩
        rcases mem_write hc' with rfl | hc'
        · show c.1 < k; omega
        · exact hlt c' hc'

/-- A run of writes keeps the canonical form. -/
theorem writeRun_wf {m : Memory} (h : wf m) (n k : Nat) (b : Byte) : wf (writeRun n m k b) := by
  induction n generalizing m k with
  | zero => exact h
  | succ n ih => exact ih (write_wf h k b) (k + 1)

/-- An index below every listed one is not listed. -/
theorem find_none_of_lt {m : Memory} {k : Nat} (h : ∀ c ∈ m, k < c.1) : find m k = none := by
  induction m with
  | nil => rfl
  | cons c rest ih =>
    have := h c List.mem_cons_self
    simp only [find]
    rw [if_neg (by omega), ih fun c' hc' => h c' (List.mem_cons_of_mem _ hc')]

/-- Two canonical memories that answer every read alike are equal. -/
theorem ext_of_find {m m' : Memory} (h : wf m) (h' : wf m') (hf : ∀ k, find m k = find m' k) : m = m' := by
  induction m generalizing m' with
  | nil =>
    cases m' with
    | nil => rfl
    | cons c' rest' => simpa [find] using hf c'.1
  | cons c rest ih =>
    obtain ⟨hlt, hrest⟩ := wf_cons.1 h
    cases m' with
    | nil => simpa [find] using hf c.1
    | cons c' rest' =>
      obtain ⟨hlt', hrest'⟩ := wf_cons.1 h'
      have hkey : c.1 = c'.1 := by
        rcases Nat.lt_trichotomy c.1 c'.1 with hk | hk | hk
        · have := hf c.1
          rw [find_none_of_lt (m := c' :: rest') fun d hd => ?_] at this
          · simp [find] at this
          · rcases List.mem_cons.1 hd with rfl | hd
            · exact hk
            · exact hk.trans (hlt' d hd)
        · exact hk
        · have := hf c'.1
          rw [find_none_of_lt (m := c :: rest) fun d hd => ?_] at this
          · simp [find] at this
          · rcases List.mem_cons.1 hd with rfl | hd
            · exact hk
            · exact hk.trans (hlt d hd)
      have hval : c.2 = c'.2 := by simpa [find, hkey] using hf c.1
      have : rest = rest' := ih hrest hrest' fun k => by
        by_cases hk : c.1 = k
        · subst hk
          rw [find_none_of_lt hlt, find_none_of_lt fun d hd => hkey ▸ hlt' d hd]
        · simpa [find, hk, hkey ▸ hk] using hf k
      rw [this, Prod.ext hkey hval]

end Sys2Proof.Machine.Memory

namespace Sys2Proof.Machine

/-- The empty memory meets the buffer invariant. -/
theorem BufferInv.empty (cap : Nat) : BufferInv [] cap := ⟨Memory.wf_nil, by simp⟩

/-- A write inside the buffer keeps the buffer invariant. -/
theorem BufferInv.write {m : Memory} {cap : Nat} (h : BufferInv m cap) {k : Nat} (hk : k < cap) (b : Byte) :
    BufferInv (Memory.write m k b) cap :=
  ⟨Memory.write_wf h.rising k b, fun cell hc => by
    rcases Memory.mem_write hc with rfl | hc
    · exact hk
    · exact h.inside cell hc⟩

/-- A run of writes inside the buffer keeps the buffer invariant. -/
theorem BufferInv.writeRun {m : Memory} {cap : Nat} (h : BufferInv m cap) (n : Nat) {k : Nat} (hk : k + n ≤ cap)
    (b : Byte) : BufferInv (Memory.writeRun n m k b) cap := by
  induction n generalizing m k with
  | zero => exact h
  | succ n ih => exact ih (h.write (by omega) b) (by omega)

end Sys2Proof.Machine
end

