-- ==== Sys2Proof/Laws/State.lean ====
section
/-! SUPPORT. What each update of State does to each field: true by definition. -/

namespace Sys2Proof.Machine

variable (s : State)

/-! ### `setEnc` -/

@[simp] theorem setEnc_cfg (e : Enc) : (s.setEnc e).cfg = s.cfg := rfl
@[simp] theorem setEnc_enc (e : Enc) : (s.setEnc e).enc = e := rfl
@[simp] theorem setEnc_dec (e : Enc) : (s.setEnc e).dec = s.dec := rfl
@[simp] theorem setEnc_agenda (e : Enc) : (s.setEnc e).agenda = s.agenda := rfl
@[simp] theorem setEnc_nextUnit (e : Enc) : (s.setEnc e).nextUnit = s.nextUnit := rfl
@[simp] theorem setEnc_replies (e : Enc) : (s.setEnc e).replies = s.replies := rfl
@[simp] theorem setEnc_resets (e : Enc) : (s.setEnc e).resets = s.resets := rfl
@[simp] theorem setEnc_draws (e : Enc) : (s.setEnc e).draws = s.draws := rfl

/-! ### `setDec` -/

@[simp] theorem setDec_cfg (d : Dec) : (s.setDec d).cfg = s.cfg := rfl
@[simp] theorem setDec_enc (d : Dec) : (s.setDec d).enc = s.enc := rfl
@[simp] theorem setDec_dec (d : Dec) : (s.setDec d).dec = d := rfl
@[simp] theorem setDec_agenda (d : Dec) : (s.setDec d).agenda = s.agenda := rfl
@[simp] theorem setDec_nextUnit (d : Dec) : (s.setDec d).nextUnit = s.nextUnit := rfl
@[simp] theorem setDec_replies (d : Dec) : (s.setDec d).replies = s.replies := rfl
@[simp] theorem setDec_resets (d : Dec) : (s.setDec d).resets = s.resets := rfl
@[simp] theorem setDec_draws (d : Dec) : (s.setDec d).draws = s.draws := rfl

/-! ### `answer` -/

@[simp] theorem answer_cfg (r : Reply) : (s.answer r).cfg = s.cfg := rfl
@[simp] theorem answer_enc (r : Reply) : (s.answer r).enc = s.enc := rfl
@[simp] theorem answer_dec (r : Reply) : (s.answer r).dec = s.dec := rfl
@[simp] theorem answer_agenda (r : Reply) : (s.answer r).agenda = s.agenda := rfl
@[simp] theorem answer_nextUnit (r : Reply) : (s.answer r).nextUnit = s.nextUnit := rfl
@[simp] theorem answer_replies (r : Reply) : (s.answer r).replies = s.replies ++ [r] := rfl
@[simp] theorem answer_resets (r : Reply) : (s.answer r).resets = s.resets := rfl
@[simp] theorem answer_draws (r : Reply) : (s.answer r).draws = s.draws := rfl

/-! ### `resetBlock` -/

@[simp] theorem resetBlock_cfg : (s.resetBlock).cfg = s.cfg := rfl
@[simp] theorem resetBlock_enc : (s.resetBlock).enc = Enc.reset := rfl
@[simp] theorem resetBlock_dec : (s.resetBlock).dec = Dec.reset := rfl
@[simp] theorem resetBlock_agenda : (s.resetBlock).agenda = s.agenda := rfl
@[simp] theorem resetBlock_nextUnit : (s.resetBlock).nextUnit = s.nextUnit := rfl
@[simp] theorem resetBlock_replies : (s.resetBlock).replies = s.replies := rfl
@[simp] theorem resetBlock_resets : (s.resetBlock).resets = s.resets + 1 := rfl
@[simp] theorem resetBlock_draws : (s.resetBlock).draws = s.draws := rfl

/-! ### `pushTurn` -/

@[simp] theorem pushTurn_cfg (t : Turn) : (s.pushTurn t).cfg = s.cfg := rfl
@[simp] theorem pushTurn_enc (t : Turn) : (s.pushTurn t).enc = s.enc := rfl
@[simp] theorem pushTurn_dec (t : Turn) : (s.pushTurn t).dec = s.dec := rfl
@[simp] theorem pushTurn_agenda (t : Turn) : (s.pushTurn t).agenda = t :: s.agenda := rfl
@[simp] theorem pushTurn_nextUnit (t : Turn) : (s.pushTurn t).nextUnit = s.nextUnit := rfl
@[simp] theorem pushTurn_replies (t : Turn) : (s.pushTurn t).replies = s.replies := rfl
@[simp] theorem pushTurn_resets (t : Turn) : (s.pushTurn t).resets = s.resets := rfl
@[simp] theorem pushTurn_draws (t : Turn) : (s.pushTurn t).draws = s.draws := rfl

/-! ### Two updates of one unit -/

@[simp] theorem setEnc_setEnc (e e' : Enc) : (s.setEnc e).setEnc e' = s.setEnc e' := rfl
@[simp] theorem setDec_setDec (d d' : Dec) : (s.setDec d).setDec d' = s.setDec d' := rfl
@[simp] theorem setEnc_self : s.setEnc s.enc = s := rfl
@[simp] theorem setDec_self : s.setDec s.dec = s := rfl
theorem setEnc_setDec (e : Enc) (d : Dec) : (s.setEnc e).setDec d = (s.setDec d).setEnc e := rfl

/-! ### `popTurn` -/

theorem popTurn_cons {t : Turn} {ts : List Turn} (h : s.agenda = t :: ts) : s.popTurn = { s with agenda := ts } := by
  simp [State.popTurn, h]

theorem popTurn_nil (h : s.agenda = []) : s.popTurn = { s with nextUnit := s.nextUnit.other } := by
  simp [State.popTurn, h]

theorem nextTurn_cons {t : Turn} {ts : List Turn} (h : s.agenda = t :: ts) : s.nextTurn = t := by
  simp [State.nextTurn, h]

theorem nextTurn_nil (h : s.agenda = []) : s.nextTurn = .micro s.nextUnit := by
  simp [State.nextTurn, h]

@[simp] theorem popTurn_cfg : s.popTurn.cfg = s.cfg := by cases h : s.agenda <;> simp [State.popTurn, h]
@[simp] theorem popTurn_enc : s.popTurn.enc = s.enc := by cases h : s.agenda <;> simp [State.popTurn, h]
@[simp] theorem popTurn_dec : s.popTurn.dec = s.dec := by cases h : s.agenda <;> simp [State.popTurn, h]
@[simp] theorem popTurn_replies : s.popTurn.replies = s.replies := by cases h : s.agenda <;> simp [State.popTurn, h]
@[simp] theorem popTurn_resets : s.popTurn.resets = s.resets := by cases h : s.agenda <;> simp [State.popTurn, h]
@[simp] theorem popTurn_draws : s.popTurn.draws = s.draws := by cases h : s.agenda <;> simp [State.popTurn, h]

/-! ### Fault entry (60_exceptions R245) -/

@[simp] theorem Enc.raise_ibuf (f : UnitFault) (x : Enc) : (x.raise f).ibuf = x.ibuf := rfl
@[simp] theorem Enc.raise_ilen (f : UnitFault) (x : Enc) : (x.raise f).ilen = x.ilen := rfl
@[simp] theorem Enc.raise_obuf (f : UnitFault) (x : Enc) : (x.raise f).obuf = x.obuf := rfl
@[simp] theorem Enc.raise_olen (f : UnitFault) (x : Enc) : (x.raise f).olen = x.olen := rfl
@[simp] theorem Enc.raise_i (f : UnitFault) (x : Enc) : (x.raise f).i = x.i := rfl
@[simp] theorem Enc.raise_count (f : UnitFault) (x : Enc) : (x.raise f).count = x.count := rfl
@[simp] theorem Enc.raise_val (f : UnitFault) (x : Enc) : (x.raise f).val = x.val := rfl
@[simp] theorem Enc.raise_st (f : UnitFault) (x : Enc) : (x.raise f).st = .fault := rfl
@[simp] theorem Enc.raise_err (f : UnitFault) (x : Enc) : (x.raise f).err = f.errCode := rfl
@[simp] theorem raise_enc (f : UnitFault) : s.raise .enc f = s.setEnc (s.enc.raise f) := rfl

@[simp] theorem Dec.raise_ibuf (f : UnitFault) (x : Dec) : (x.raise f).ibuf = x.ibuf := rfl
@[simp] theorem Dec.raise_ilen (f : UnitFault) (x : Dec) : (x.raise f).ilen = x.ilen := rfl
@[simp] theorem Dec.raise_obuf (f : UnitFault) (x : Dec) : (x.raise f).obuf = x.obuf := rfl
@[simp] theorem Dec.raise_olen (f : UnitFault) (x : Dec) : (x.raise f).olen = x.olen := rfl
@[simp] theorem Dec.raise_i (f : UnitFault) (x : Dec) : (x.raise f).i = x.i := rfl
@[simp] theorem Dec.raise_count (f : UnitFault) (x : Dec) : (x.raise f).count = x.count := rfl
@[simp] theorem Dec.raise_value (f : UnitFault) (x : Dec) : (x.raise f).value = x.value := rfl
@[simp] theorem Dec.raise_j (f : UnitFault) (x : Dec) : (x.raise f).j = x.j := rfl
@[simp] theorem Dec.raise_st (f : UnitFault) (x : Dec) : (x.raise f).st = .fault := rfl
@[simp] theorem Dec.raise_err (f : UnitFault) (x : Dec) : (x.raise f).err = f.errCode := rfl
@[simp] theorem raise_dec (f : UnitFault) : s.raise .dec f = s.setDec (s.dec.raise f) := rfl

/-! ### The decoder's shared steps (41_decoder R155, R156) -/

@[simp] theorem Dec.appendRun_ibuf (n : Nat) (v : Byte) (d : Dec) : (d.appendRun n v).ibuf = d.ibuf := rfl
@[simp] theorem Dec.appendRun_ilen (n : Nat) (v : Byte) (d : Dec) : (d.appendRun n v).ilen = d.ilen := rfl
@[simp] theorem Dec.appendRun_i (n : Nat) (v : Byte) (d : Dec) : (d.appendRun n v).i = d.i := rfl
@[simp] theorem Dec.appendRun_count (n : Nat) (v : Byte) (d : Dec) : (d.appendRun n v).count = d.count := rfl
@[simp] theorem Dec.appendRun_value (n : Nat) (v : Byte) (d : Dec) : (d.appendRun n v).value = d.value := rfl
@[simp] theorem Dec.appendRun_j (n : Nat) (v : Byte) (d : Dec) : (d.appendRun n v).j = d.j := rfl
@[simp] theorem Dec.appendRun_st (n : Nat) (v : Byte) (d : Dec) : (d.appendRun n v).st = d.st := rfl
@[simp] theorem Dec.appendRun_err (n : Nat) (v : Byte) (d : Dec) : (d.appendRun n v).err = d.err := rfl
@[simp] theorem Dec.appendRun_olen (n : Nat) (v : Byte) (d : Dec) : (d.appendRun n v).olen = d.olen + n := rfl
@[simp] theorem Dec.appendRun_obuf (n : Nat) (v : Byte) (d : Dec) :
    (d.appendRun n v).obuf = Memory.writeRun n d.obuf d.olen v := rfl
@[simp] theorem Dec.advance_ibuf (d : Dec) : d.advance.ibuf = d.ibuf := rfl
@[simp] theorem Dec.advance_ilen (d : Dec) : d.advance.ilen = d.ilen := rfl
@[simp] theorem Dec.advance_obuf (d : Dec) : d.advance.obuf = d.obuf := rfl
@[simp] theorem Dec.advance_olen (d : Dec) : d.advance.olen = d.olen := rfl
@[simp] theorem Dec.advance_count (d : Dec) : d.advance.count = d.count := rfl
@[simp] theorem Dec.advance_value (d : Dec) : d.advance.value = d.value := rfl
@[simp] theorem Dec.advance_j (d : Dec) : d.advance.j = d.j := rfl
@[simp] theorem Dec.advance_err (d : Dec) : d.advance.err = d.err := rfl
@[simp] theorem Dec.advance_i (d : Dec) : d.advance.i = d.i + 2 := rfl
@[simp] theorem Dec.advance_st (d : Dec) : d.advance.st = if d.i + 2 < d.ilen then .dRdcnt else .dRet := rfl

/-! ### What a unit update does to the bytes of a buffer -/

@[simp] theorem setEnc_byteAt_decIbuf (e : Enc) (k : Nat) : (s.setEnc e).byteAt .decIbuf k = s.byteAt .decIbuf k := rfl
@[simp] theorem setEnc_byteAt_decObuf (e : Enc) (k : Nat) : (s.setEnc e).byteAt .decObuf k = s.byteAt .decObuf k := rfl
@[simp] theorem setDec_byteAt_encIbuf (d : Dec) (k : Nat) : (s.setDec d).byteAt .encIbuf k = s.byteAt .encIbuf k := rfl
@[simp] theorem setDec_byteAt_encObuf (d : Dec) (k : Nat) : (s.setDec d).byteAt .encObuf k = s.byteAt .encObuf k := rfl

theorem setEnc_byteAt_encIbuf {e : Enc} (h : e.ibuf = s.enc.ibuf) (k : Nat) :
    (s.setEnc e).byteAt .encIbuf k = s.byteAt .encIbuf k := by simp [State.byteAt, State.buffer, h]

theorem setEnc_byteAt_encObuf {e : Enc} (h : e.obuf = s.enc.obuf) (k : Nat) :
    (s.setEnc e).byteAt .encObuf k = s.byteAt .encObuf k := by simp [State.byteAt, State.buffer, h]

theorem setDec_byteAt_decIbuf {d : Dec} (h : d.ibuf = s.dec.ibuf) (k : Nat) :
    (s.setDec d).byteAt .decIbuf k = s.byteAt .decIbuf k := by simp [State.byteAt, State.buffer, h]

theorem setDec_byteAt_decObuf {d : Dec} (h : d.obuf = s.dec.obuf) (k : Nat) :
    (s.setDec d).byteAt .decObuf k = s.byteAt .decObuf k := by simp [State.byteAt, State.buffer, h]

/-- Bytes depend on the buffers and the reset count alone. -/
theorem byteAt_congr {s s' : State} {b : BufferId} (hb : s.buffer b = s'.buffer b) (hr : s.resets = s'.resets) (k : Nat) :
    s.byteAt b k = s'.byteAt b k := by simp [State.byteAt, hb, hr]

end Sys2Proof.Machine
end

