-- ==== Sys2Proof/Laws/Ops.lean ====
section
/-! SUPPORT. Each shared operation, said once: what it answers and what it leaves alone. -/

namespace Sys2Proof.Machine

/-- A unit read inside the buffer gives the byte there (00_scope R10). -/
theorem withInputByte_inside {s : State} {u : UnitId} {k : Nat} (h : k < s.cfg.inCap u) (go : Byte → Answer) :
    s.withInputByte u k go = go (s.byteAt (.input u) k) := by simp [State.withInputByte, h]

/-- A unit read outside the buffer is the model's fault (log 9). -/
theorem withInputByte_outside {s : State} {u : UnitId} {k : Nat} (h : s.cfg.inCap u ≤ k) (go : Byte → Answer) :
    s.withInputByte u k go = .fault (.readOutsideBuffer u k) := by
  simp [State.withInputByte, Nat.not_lt.2 h]

/-! ## `H_START` and `H_CLEAR` (42_host_operations R183, R184) -/

theorem start_busy {s : State} {u : UnitId} (h : s.busy u = true) : s.start u = s := by simp [State.start, h]

theorem start_enc {s : State} (h : s.busy .enc = false) :
    s.start .enc = s.setEnc { s.enc with err := .none, st := .eLoad } := by simp [State.start, h]

theorem start_dec {s : State} (h : s.busy .dec = false) :
    s.start .dec = s.setDec { s.dec with err := .none, st := .dInit } := by simp [State.start, h]

theorem clear_busy {s : State} {u : UnitId} (h : s.busy u = true) : s.clear u = s := by simp [State.clear, h]

theorem clear_enc {s : State} (h : s.busy .enc = false) :
    s.clear .enc = s.setEnc { s.enc with err := .none, st := .idle } := by simp [State.clear, h]

theorem clear_dec {s : State} (h : s.busy .dec = false) :
    s.clear .dec = s.setDec { s.dec with err := .none, st := .idle } := by simp [State.clear, h]

/-! ## Host writes (42_host_operations R181, R182) -/

theorem writeIlen_ignored {s : State} {u : UnitId} {n : Word32} (h : s.busy u = true ∨ s.cfg.inCap u < n.toNat) :
    s.writeIlen u n = s := by
  rcases h with h | h
  · simp [State.writeIlen, h]
  · simp [State.writeIlen, Nat.not_le.2 h]

theorem writeIlen_enc {s : State} {n : Word32} (hb : s.busy .enc = false) (hn : n.toNat ≤ s.cfg.encInCap) :
    s.writeIlen .enc n = s.setEnc { s.enc with ilen := n.toNat } := by
  simp [State.writeIlen, hb, Params.inCap, hn]

theorem writeIlen_dec {s : State} {n : Word32} (hb : s.busy .dec = false) (hn : n.toNat ≤ s.cfg.decInCap) :
    s.writeIlen .dec n = s.setDec { s.dec with ilen := n.toNat } := by
  simp [State.writeIlen, hb, Params.inCap, hn]

theorem writeIbuf_ignored {s : State} {u : UnitId} {k : Nat} {b : Byte} (h : s.busy u = true ∨ s.cfg.inCap u ≤ k) :
    s.writeIbuf u k b = s := by
  rcases h with h | h
  · simp [State.writeIbuf, h]
  · simp [State.writeIbuf, Nat.not_lt.2 h]

theorem writeIbuf_enc {s : State} {k : Nat} {b : Byte} (hb : s.busy .enc = false) (hk : k < s.cfg.encInCap) :
    s.writeIbuf .enc k b = s.setEnc { s.enc with ibuf := Memory.write s.enc.ibuf k b } := by
  simp [State.writeIbuf, hb, Params.inCap, hk]

theorem writeIbuf_dec {s : State} {k : Nat} {b : Byte} (hb : s.busy .dec = false) (hk : k < s.cfg.decInCap) :
    s.writeIbuf .dec k b = s.setDec { s.dec with ibuf := Memory.write s.dec.ibuf k b } := by
  simp [State.writeIbuf, hb, Params.inCap, hk]

/-! ## Host reads (42_host_operations R188, R189) -/

theorem hostRead_inside {s : State} {b : BufferId} {k : Nat} (h : k < s.cfg.capOf b) :
    s.hostRead b k = s.answer (.byte (s.byteAt b k)) := by simp [State.hostRead, h]

theorem hostRead_outside {s : State} {b : BufferId} {k : Nat} (h : s.cfg.capOf b ≤ k) :
    s.hostRead b k = { s.answer (.byte (Config.outsideByte s.draws)) with draws := s.draws + 1 } := by
  simp [State.hostRead, Nat.not_lt.2 h]

@[simp] theorem capOf_input (p : Params) (u : UnitId) : p.capOf (.input u) = p.inCap u := by cases u <;> rfl
@[simp] theorem capOf_output (p : Params) (u : UnitId) : p.capOf (.output u) = p.outCap u := by cases u <;> rfl

/-! ## Bytes as lists -/

@[simp] theorem bytes_length (s : State) (b : BufferId) (n : Nat) : (s.bytes b n).length = n := by simp [State.bytes]

theorem bytes_getElem? (s : State) (b : BufferId) (n k : Nat) :
    (s.bytes b n)[k]? = if k < n then some (s.byteAt b k) else none := by
  simp [State.bytes]; split <;> simp_all

/-- Two buffers that agree below a length hold the same list. -/
theorem bytes_congr {s s' : State} {b b' : BufferId} {n : Nat} (h : ∀ k, k < n → s.byteAt b k = s'.byteAt b' k) :
    s.bytes b n = s'.bytes b' n := by
  simp only [State.bytes]
  exact List.map_congr_left fun k hk => h k (List.mem_range.1 hk)

/-- The input from a position on begins with the byte there. -/
theorem bytes_drop {s : State} {b : BufferId} {n k : Nat} (h : k < n) :
    (s.bytes b n).drop k = s.byteAt b k :: (s.bytes b n).drop (k + 1) := by
  have hk : k < (s.bytes b n).length := by simpa using h
  rw [List.drop_eq_getElem_cons hk]
  congr 1
  simp [State.bytes]

/-! ## What the states say (10_state R47) -/

/-- In a resting state the encoder is in none of the states the invariant speaks about. -/
theorem EncSt.of_resting {st : EncSt} (h : st.active = false) :
    st.inSegment = false ∧ st.latched = false ∧ st.counting = false ∧ st ≠ .eRinit ∧ st ≠ .eRet := by
  cases st <;> simp_all [EncSt.active, EncSt.inSegment, EncSt.latched, EncSt.counting]

/-- In a resting state the decoder is in none of the states the invariant speaks about. -/
theorem DecSt.of_resting {st : DecSt} (h : st.active = false) :
    st.inPair = false ∧ st.inLoop = false ∧ st ≠ .dRdval ∧ st ≠ .dAppend ∧ st ≠ .dNext ∧ st ≠ .dRet := by
  cases st <;> simp_all [DecSt.active, DecSt.inPair, DecSt.inLoop]

end Sys2Proof.Machine
end

