-- ==== Sys2Proof/Laws/Turns.lean ====
section
/-! SUPPORT. What a turn can do, said once: the micro-operation each state selects (30_encoding R95, R96), nothing in a
resting state, the host operation of a request; and how the step takes the turns of the agenda one after another. -/

namespace Sys2Proof.Machine

/-! ## The state code selects the micro-operation -/

theorem micro_eLoad {s : State} (h : s.enc.st = .eLoad) : takeTurn (.micro .enc) s = execELoad s := by
  simp [takeTurn, runFetched, State.stCode, h, EncSt.code, decode, decodeEncCode, exec]

theorem micro_eRinit {s : State} (h : s.enc.st = .eRinit) : takeTurn (.micro .enc) s = execERinit s := by
  simp [takeTurn, runFetched, State.stCode, h, EncSt.code, decode, decodeEncCode, exec]

theorem micro_eOuter {s : State} (h : s.enc.st = .eOuter) : takeTurn (.micro .enc) s = execEOuter s := by
  simp [takeTurn, runFetched, State.stCode, h, EncSt.code, decode, decodeEncCode, exec]

theorem micro_eCinit {s : State} (h : s.enc.st = .eCinit) : takeTurn (.micro .enc) s = execECinit s := by
  simp [takeTurn, runFetched, State.stCode, h, EncSt.code, decode, decodeEncCode, exec]

theorem micro_eCmp {s : State} (h : s.enc.st = .eCmp) : takeTurn (.micro .enc) s = execECmp s := by
  simp [takeTurn, runFetched, State.stCode, h, EncSt.code, decode, decodeEncCode, exec]

theorem micro_eEmit {s : State} (h : s.enc.st = .eEmit) : takeTurn (.micro .enc) s = execEEmit s := by
  simp [takeTurn, runFetched, State.stCode, h, EncSt.code, decode, decodeEncCode, exec]

theorem micro_eAdv {s : State} (h : s.enc.st = .eAdv) : takeTurn (.micro .enc) s = execEAdv s := by
  simp [takeTurn, runFetched, State.stCode, h, EncSt.code, decode, decodeEncCode, exec]

theorem micro_eRet {s : State} (h : s.enc.st = .eRet) : takeTurn (.micro .enc) s = execERet s := by
  simp [takeTurn, runFetched, State.stCode, h, EncSt.code, decode, decodeEncCode, exec]

theorem micro_dInit {s : State} (h : s.dec.st = .dInit) : takeTurn (.micro .dec) s = execDInit s := by
  simp [takeTurn, runFetched, State.stCode, h, DecSt.code, decode, decodeDecCode, exec]

theorem micro_dRdcnt {s : State} (h : s.dec.st = .dRdcnt) : takeTurn (.micro .dec) s = execDRdcnt s := by
  simp [takeTurn, runFetched, State.stCode, h, DecSt.code, decode, decodeDecCode, exec]

theorem micro_dRdval {s : State} (h : s.dec.st = .dRdval) : takeTurn (.micro .dec) s = execDRdval s := by
  simp [takeTurn, runFetched, State.stCode, h, DecSt.code, decode, decodeDecCode, exec]

theorem micro_dLoop {s : State} (h : s.dec.st = .dLoop) : takeTurn (.micro .dec) s = execDLoop s := by
  simp [takeTurn, runFetched, State.stCode, h, DecSt.code, decode, decodeDecCode, exec]

theorem micro_dAppend {s : State} (h : s.dec.st = .dAppend) : takeTurn (.micro .dec) s = execDAppend s := by
  simp [takeTurn, runFetched, State.stCode, h, DecSt.code, decode, decodeDecCode, exec]

theorem micro_dNext {s : State} (h : s.dec.st = .dNext) : takeTurn (.micro .dec) s = execDNext s := by
  simp [takeTurn, runFetched, State.stCode, h, DecSt.code, decode, decodeDecCode, exec]

theorem micro_dRet {s : State} (h : s.dec.st = .dRet) : takeTurn (.micro .dec) s = execDRet s := by
  simp [takeTurn, runFetched, State.stCode, h, DecSt.code, decode, decodeDecCode, exec]

/-- A unit that is not BUSY takes no step (40_encoder R129, 41_decoder R158). -/
theorem micro_resting {s : State} {u : UnitId} (h : s.busy u = false) : takeTurn (.micro u) s = .next s := by
  cases u with
  | enc =>
    cases hst : s.enc.st <;> simp [State.busy, hst, EncSt.active] at h <;>
      simp [takeTurn, runFetched, State.stCode, hst, EncSt.code, decode, decodeEncCode]
  | dec =>
    cases hst : s.dec.st <;> simp [State.busy, hst, DecSt.active] at h <;>
      simp [takeTurn, runFetched, State.stCode, hst, DecSt.code, decode, decodeDecCode]

/-! ## The other turns -/

@[simp] theorem turn_reset (s : State) : takeTurn .reset s = .next s.resetBlock := rfl

/-- A `CTRL` word has the effect its bits 1..0 give it (42_host_operations R183 to R185). -/
@[simp] theorem turn_ctrl (u : UnitId) (w : Word32) (s : State) : takeTurn (.ctrl u w) s = .next (s.ctrlWrite u w) := by
  simp only [takeTurn, runFetched, decode, State.ctrlWrite]
  cases h0 : w.getLsbD 0 with
  | true => rw [decodeCtrl_start h0]; rfl
  | false =>
    cases h1 : w.getLsbD 1 with
    | true => rw [decodeCtrl_clear h0 h1]; rfl
    | false => rw [decodeCtrl_nop h0 h1]; rfl

@[simp] theorem turn_wrIbuf (u : UnitId) (k : Nat) (b : Byte) (s : State) :
    takeTurn (.call (.wrIbuf u k b)) s = .next (s.writeIbuf u k b) := rfl

@[simp] theorem turn_wrIlen (u : UnitId) (n : Word32) (s : State) :
    takeTurn (.call (.wrIlen u n)) s = .next (s.writeIlen u n) := rfl

@[simp] theorem turn_rdStatus (u : UnitId) (s : State) :
    takeTurn (.call (.rdStatus u)) s = .next (s.answer (.reg (s.status u))) := rfl

@[simp] theorem turn_rdReg (u : UnitId) (n : RegNum) (s : State) :
    takeTurn (.call (.rdReg u n)) s = .next (s.answer (.reg (s.readReg u n))) := rfl

@[simp] theorem turn_rdObuf (u : UnitId) (k : Nat) (s : State) :
    takeTurn (.call (.rdObuf u k)) s = .next (s.hostRead (.output u) k) := rfl

@[simp] theorem turn_rdIbuf (u : UnitId) (k : Nat) (s : State) :
    takeTurn (.call (.rdIbuf u k)) s = .next (s.hostRead (.input u) k) := rfl

@[simp] theorem turn_wrReg (u : UnitId) (n : RegNum) (w : Word32) (s : State) :
    takeTurn (.call (.wrReg u n w)) s = .next (s.writeReg u n w) := rfl

/-! ## Runs of turns -/

@[simp] theorem runTurns_nil (s : State) : runTurns [] s = .next s := rfl

theorem runTurns_cons {t : Turn} {s s' : State} (h : takeTurn t s = .next s') (ts : List Turn) :
    runTurns (t :: ts) s = runTurns ts s' := by simp [runTurns, h]

/-- A run of turns may be cut anywhere. -/
theorem runTurns_append {s s' : State} {ts : List Turn} (h : runTurns ts s = .next s') (us : List Turn) :
    runTurns (ts ++ us) s = runTurns us s' := by
  induction ts generalizing s with
  | nil => cases h; rfl
  | cons t ts ih =>
    simp only [List.cons_append, runTurns] at h ⊢
    cases ht : takeTurn t s with
    | next s1 => simp only [ht] at h; exact ih h
    | fault r => simp [ht] at h
    | refused r => simp [ht] at h

end Sys2Proof.Machine
end

