-- ==== Sys2Proof/Laws/Invariant.lean ====
section
/-! SUPPORT. What the invariant of 10_state R47 depends on: the configuration, the unit and the reset count. A turn that
leaves these alone keeps it. -/

namespace Sys2Proof.Machine

/-- The bytes of the encoder's input depend on the encoder and the reset count. -/
theorem byteAt_encIbuf_congr {s t : State} (he : t.enc.ibuf = s.enc.ibuf) (hr : t.resets = s.resets) (k : Nat) :
    t.byteAt .encIbuf k = s.byteAt .encIbuf k := byteAt_congr (b := .encIbuf) he hr k

/-- The bytes of the decoder's input depend on the decoder and the reset count. -/
theorem byteAt_decIbuf_congr {s t : State} (hd : t.dec.ibuf = s.dec.ibuf) (hr : t.resets = s.resets) (k : Nat) :
    t.byteAt .decIbuf k = s.byteAt .decIbuf k := byteAt_congr (b := .decIbuf) hd hr k

theorem EncInv.congr {s t : State} (h : EncInv s) (he : t.enc = s.enc) (hc : t.cfg = s.cfg)
    (hr : t.resets = s.resets) : EncInv t := by
  have hb := byteAt_encIbuf_congr (he ▸ rfl : t.enc.ibuf = s.enc.ibuf) hr
  obtain ⟨h1, h2, h3, h4, h5, h6, h7, h8, h9, h10, h11, h12⟩ := h
  constructor <;> simpa only [he, hc, hb]

theorem DecInv.congr {s t : State} (h : DecInv s) (hd : t.dec = s.dec) (hc : t.cfg = s.cfg)
    (hr : t.resets = s.resets) : DecInv t := by
  have hb := byteAt_decIbuf_congr (hd ▸ rfl : t.dec.ibuf = s.dec.ibuf) hr
  obtain ⟨h1, h2, h3, h4, h5, h6, h7, h8, h9, h10, h11, h12, h13⟩ := h
  constructor <;> simpa only [hd, hc, hb]

/-- A new encoder needs only its own half of the invariant. -/
theorem Inv.setEnc {s : State} (h : Inv s) {e : Enc} (he : EncInv (s.setEnc e)) : Inv (s.setEnc e) :=
  ⟨h.cfg, he, h.dec.congr rfl rfl rfl⟩

/-- A new decoder needs only its own half of the invariant. -/
theorem Inv.setDec {s : State} (h : Inv s) {d : Dec} (hd : DecInv (s.setDec d)) : Inv (s.setDec d) :=
  ⟨h.cfg, h.enc.congr rfl rfl rfl, hd⟩

/-- An update outside the units, the configuration and the reset count keeps the invariant. -/
theorem Inv.congr {s t : State} (h : Inv s) (he : t.enc = s.enc) (hd : t.dec = s.dec) (hc : t.cfg = s.cfg)
    (hr : t.resets = s.resets) : Inv t :=
  ⟨hc ▸ h.cfg, h.enc.congr he hc hr, h.dec.congr hd hc hr⟩

end Sys2Proof.Machine
end

