-- ==== Sys2Proof/Laws/Order.lean ====
section
/-! SUPPORT. No turn reads or writes the order of turns (log 3, log 4): a turn does the same whatever the agenda and the
next unit are, it leaves both alone, and it leaves the configuration alone (log 1). What the step adds around a turn is
said once. -/

namespace Sys2Proof.Machine

/-- The state with another order of coming turns. -/
def State.withOrder (s : State) (agenda : List Turn) (nextUnit : UnitId) : State :=
  { s with agenda := agenda, nextUnit := nextUnit }

/-- An answer with its next state changed. -/
def mapNext (f : State → State) : Answer → Answer
  | .next s => .next (f s)
  | .fault r => .fault r
  | .refused r => .refused r

@[simp] theorem mapNext_next (f : State → State) (s : State) : mapNext f (.next s) = .next (f s) := rfl

section
variable (s : State) (a : List Turn) (n : UnitId)

@[simp] theorem withOrder_cfg : (s.withOrder a n).cfg = s.cfg := rfl
@[simp] theorem withOrder_enc : (s.withOrder a n).enc = s.enc := rfl
@[simp] theorem withOrder_dec : (s.withOrder a n).dec = s.dec := rfl
@[simp] theorem withOrder_agenda : (s.withOrder a n).agenda = a := rfl
@[simp] theorem withOrder_nextUnit : (s.withOrder a n).nextUnit = n := rfl
@[simp] theorem withOrder_replies : (s.withOrder a n).replies = s.replies := rfl
@[simp] theorem withOrder_draws : (s.withOrder a n).draws = s.draws := rfl
@[simp] theorem withOrder_resets : (s.withOrder a n).resets = s.resets := rfl
@[simp] theorem withOrder_busy (u : UnitId) : (s.withOrder a n).busy u = s.busy u := rfl
@[simp] theorem withOrder_status (u : UnitId) : (s.withOrder a n).status u = s.status u := rfl
@[simp] theorem withOrder_stCode (u : UnitId) : (s.withOrder a n).stCode u = s.stCode u := rfl
@[simp] theorem withOrder_readReg (u : UnitId) (r : RegNum) : (s.withOrder a n).readReg u r = s.readReg u r := rfl
@[simp] theorem withOrder_byteAt (b : BufferId) (k : Nat) : (s.withOrder a n).byteAt b k = s.byteAt b k := rfl

@[simp] theorem withOrder_setEnc (e : Enc) : (s.withOrder a n).setEnc e = (s.setEnc e).withOrder a n := rfl
@[simp] theorem withOrder_setDec (d : Dec) : (s.withOrder a n).setDec d = (s.setDec d).withOrder a n := rfl
@[simp] theorem withOrder_answer (r : Reply) : (s.withOrder a n).answer r = (s.answer r).withOrder a n := rfl
@[simp] theorem withOrder_withOrder (a' : List Turn) (n' : UnitId) :
    (s.withOrder a n).withOrder a' n' = s.withOrder a' n' := rfl

@[simp] theorem withOrder_raise (u : UnitId) (f : UnitFault) :
    (s.withOrder a n).raise u f = (s.raise u f).withOrder a n := by cases u <;> rfl

@[simp] theorem withOrder_start (u : UnitId) : (s.withOrder a n).start u = (s.start u).withOrder a n := by
  unfold State.start; cases u <;> simp [apply_ite (State.withOrder · a n)] <;> rfl

@[simp] theorem withOrder_clear (u : UnitId) : (s.withOrder a n).clear u = (s.clear u).withOrder a n := by
  unfold State.clear; cases u <;> simp [apply_ite (State.withOrder · a n)] <;> rfl

@[simp] theorem withOrder_ctrlWrite (u : UnitId) (w : Word32) :
    (s.withOrder a n).ctrlWrite u w = (s.ctrlWrite u w).withOrder a n := by
  unfold State.ctrlWrite; simp [apply_ite (State.withOrder · a n)]

@[simp] theorem withOrder_writeIlen (u : UnitId) (w : Word32) :
    (s.withOrder a n).writeIlen u w = (s.writeIlen u w).withOrder a n := by
  unfold State.writeIlen; cases u <;> simp [apply_ite (State.withOrder · a n)] <;> rfl

@[simp] theorem withOrder_writeIbuf (u : UnitId) (k : Nat) (b : Byte) :
    (s.withOrder a n).writeIbuf u k b = (s.writeIbuf u k b).withOrder a n := by
  unfold State.writeIbuf; cases u <;> simp [apply_ite (State.withOrder · a n)] <;> rfl

@[simp] theorem withOrder_writeReg (u : UnitId) (r : RegNum) (w : Word32) :
    (s.withOrder a n).writeReg u r w = (s.writeReg u r w).withOrder a n := by
  unfold State.writeReg; split <;> simp

@[simp] theorem withOrder_hostRead (b : BufferId) (k : Nat) :
    (s.withOrder a n).hostRead b k = (s.hostRead b k).withOrder a n := by
  unfold State.hostRead
  simp only [withOrder_cfg, withOrder_byteAt, withOrder_answer, withOrder_draws, apply_ite (State.withOrder · a n)]
  rfl

theorem withOrder_withInputByte {u : UnitId} {k : Nat} {go go' : Byte → Answer}
    (h : ∀ b, go b = mapNext (·.withOrder a n) (go' b)) :
    (s.withOrder a n).withInputByte u k go = mapNext (·.withOrder a n) (s.withInputByte u k go') := by
  unfold State.withInputByte; simp [h]; rw [apply_ite (mapNext _)]; rfl

theorem exec_withOrder (i : Instr) : exec i (s.withOrder a n) = mapNext (·.withOrder a n) (exec i s) := by
  cases i <;> simp only [exec]
  case eOuter => exact withOrder_withInputByte _ _ _ fun b => rfl
  case dRdcnt => exact withOrder_withInputByte _ _ _ fun b => rfl
  case dRdval => exact withOrder_withInputByte _ _ _ fun b => rfl
  case eCmp =>
    simp only [execECmp, withOrder_enc]
    rw [apply_ite (mapNext _)]
    congr 1
    refine withOrder_withInputByte _ _ _ fun b => ?_
    rw [apply_ite (mapNext _)]; rfl
  all_goals
    simp [execPair, execPairZero, execELoad, execERinit, execECinit, execEEmit, execEAdv, execERet, execDInit,
      execDLoop, execDAppend, execDNext, execDRet, execHStart, execHClear, execHCtrlNop, execHWrIbuf, execHWrIlen,
      execHRdStatus, execHRdReg, execHRdObuf, execHRdIbuf, execHWrReg]
  all_goals try rw [apply_ite (mapNext _)]
  all_goals try rfl

theorem runFetched_withOrder (f : Fetched) :
    runFetched f (s.withOrder a n) = mapNext (·.withOrder a n) (runFetched f s) := by
  unfold runFetched; split
  · exact exec_withOrder ..
  all_goals rfl

/-- A turn does the same whatever the order of coming turns is. -/
theorem takeTurn_withOrder (t : Turn) :
    takeTurn t (s.withOrder a n) = mapNext (·.withOrder a n) (takeTurn t s) := by
  cases t <;> simp only [takeTurn, withOrder_stCode]
  case reset => rfl
  case micro => exact runFetched_withOrder ..
  case ctrl => exact runFetched_withOrder ..
  case call => exact runFetched_withOrder ..
  case pair =>
    simp only [takePair, withOrder_dec]
    rw [apply_ite (mapNext _)]
    congr 1
    exact withOrder_withInputByte _ _ _ fun b => withOrder_withInputByte _ _ _ fun b => runFetched_withOrder ..

/-- So does a run of turns. -/
theorem runTurns_withOrder (ts : List Turn) :
    runTurns ts (s.withOrder a n) = mapNext (·.withOrder a n) (runTurns ts s) := by
  induction ts generalizing s with
  | nil => rfl
  | cons t ts ih =>
    simp only [runTurns, takeTurn_withOrder]
    cases takeTurn t s <;> simp [mapNext, ih]

end

/-! ## What a turn leaves alone -/

theorem start_cfg (u : UnitId) (s : State) : (s.start u).cfg = s.cfg := by
  unfold State.start; split <;> [skip; cases u] <;> rfl

theorem clear_cfg (u : UnitId) (s : State) : (s.clear u).cfg = s.cfg := by
  unfold State.clear; split <;> [skip; cases u] <;> rfl

theorem ctrlWrite_cfg (u : UnitId) (w : Word32) (s : State) : (s.ctrlWrite u w).cfg = s.cfg := by
  unfold State.ctrlWrite; split <;> [exact start_cfg ..; (split <;> [exact clear_cfg ..; rfl])]

theorem writeIlen_cfg (u : UnitId) (w : Word32) (s : State) : (s.writeIlen u w).cfg = s.cfg := by
  unfold State.writeIlen; split <;> [rfl; (split <;> [cases u; skip] <;> rfl)]

theorem writeIbuf_cfg (u : UnitId) (k : Nat) (b : Byte) (s : State) : (s.writeIbuf u k b).cfg = s.cfg := by
  unfold State.writeIbuf; split <;> [rfl; (split <;> [cases u; skip] <;> rfl)]

theorem hostRead_cfg (b : BufferId) (k : Nat) (s : State) : (s.hostRead b k).cfg = s.cfg := by
  unfold State.hostRead; split <;> rfl

theorem withInputByte_cfg {s s' : State} {u : UnitId} {k : Nat} {go : Byte → Answer}
    (hgo : ∀ b, go b = .next s' → s'.cfg = s.cfg) (h : s.withInputByte u k go = .next s') : s'.cfg = s.cfg := by
  unfold State.withInputByte at h
  split at h
  · exact hgo _ h
  · cases h

theorem exec_cfg {i : Instr} {s s' : State} (h : exec i s = .next s') : s'.cfg = s.cfg := by
  cases i <;> simp only [exec] at h
  case eOuter => exact withInputByte_cfg (fun b h => by cases h; rfl) h
  case dRdcnt => exact withInputByte_cfg (fun b h => by cases h; rfl) h
  case dRdval => exact withInputByte_cfg (fun b h => by cases h; rfl) h
  case eCmp =>
    simp only [execECmp] at h
    split at h
    · exact withInputByte_cfg (fun b h => by split at h <;> cases h <;> rfl) h
    · cases h; rfl
  all_goals
    simp only [execPair, execPairZero, execELoad, execERinit, execECinit, execEEmit, execEAdv, execERet, execDInit,
      execDLoop, execDAppend, execDNext, execDRet, execHStart, execHClear, execHCtrlNop, execHWrIbuf, execHWrIlen,
      execHRdStatus, execHRdReg, execHRdObuf, execHRdIbuf, execHWrReg] at h
  all_goals try (cases h; rfl)
  all_goals try (split at h <;> cases h <;> rfl)
  all_goals cases h
  · exact start_cfg ..
  · exact clear_cfg ..
  · exact writeIbuf_cfg ..
  · exact writeIlen_cfg ..
  · exact hostRead_cfg ..
  · exact hostRead_cfg ..
  · simp only [State.writeReg]; split
    · exact ctrlWrite_cfg ..
    · exact writeIlen_cfg ..
    · rfl

theorem runFetched_cfg {f : Fetched} {s s' : State} (h : runFetched f s = .next s') : s'.cfg = s.cfg := by
  unfold runFetched at h
  split at h
  · exact exec_cfg h
  all_goals cases h
  rfl

/-- No turn changes the configuration (log 1). -/
theorem takeTurn_cfg {t : Turn} {s s' : State} (h : takeTurn t s = .next s') : s'.cfg = s.cfg := by
  cases t with
  | reset => cases h; rfl
  | micro u => exact runFetched_cfg (f := .state4 u (s.stCode u)) h
  | pair =>
    simp only [takeTurn, takePair] at h
    split at h
    · exact withInputByte_cfg (fun b h => withInputByte_cfg (fun b h => runFetched_cfg h) h) h
    · cases h; rfl
  | ctrl u w => exact runFetched_cfg (f := .ctrl32 u w) h
  | call c => exact runFetched_cfg (f := .named c) h

/-- No turn changes the order of coming turns (log 3, log 4). -/
theorem takeTurn_order {t : Turn} {s s' : State} (h : takeTurn t s = .next s') :
    s'.agenda = s.agenda ∧ s'.nextUnit = s.nextUnit := by
  have hw := takeTurn_withOrder s s.agenda s.nextUnit t
  rw [show s.withOrder s.agenda s.nextUnit = s from rfl, h, mapNext_next, Host.Outcome.next.injEq] at hw
  exact ⟨by rw [hw]; rfl, by rw [hw]; rfl⟩

/-! ## What the step adds around a turn -/

/-- In a legal configuration a step is the next turn at the state with that turn taken off the order. -/
theorem step_eq {s : State} (h : s.cfg.wf = true) : step s = takeTurn s.nextTurn s.popTurn := by
  simp [step, stepTurn, h]

/-- A configuration that breaks 00_scope R7 is refused (log 12). -/
theorem step_refused {s : State} (h : s.cfg.wf = false) : step s = .refused .badParameters := by
  simp [step, stepTurn, h]

theorem steps_succ (n : Nat) (s : State) :
    steps (n + 1) s = match step s with
      | .next s' => steps n s'
      | .fault r => .fault r
      | .refused r => .refused r := rfl

end Sys2Proof.Machine
end

