-- ==== Sys2Proof/Laws/PerInstr.lean ====
section
/-! SUPPORT. Per operation: decoding what the encoder writes gives the operation back. -/

namespace Sys2Proof.Laws.RoundTrip

/-- Decoding the encoding of a well-formed operation gives it back. -/
def Statement (i : Instr) : Prop := i.wf = true → decode (encode i) = .ok i

theorem pair (count value : Byte) : Statement (.pair count value) := fun h => by
  simp only [Instr.wf, decide_eq_true_eq] at h
  simp [encode, decode, decodePair16, h]

theorem pairZero (value : Byte) : Statement (.pairZero value) := fun _ => rfl
theorem eLoad : Statement .eLoad := fun _ => rfl
theorem eRinit : Statement .eRinit := fun _ => rfl
theorem eOuter : Statement .eOuter := fun _ => rfl
theorem eCinit : Statement .eCinit := fun _ => rfl
theorem eCmp : Statement .eCmp := fun _ => rfl
theorem eEmit : Statement .eEmit := fun _ => rfl
theorem eAdv : Statement .eAdv := fun _ => rfl
theorem eRet : Statement .eRet := fun _ => rfl
theorem dInit : Statement .dInit := fun _ => rfl
theorem dRdcnt : Statement .dRdcnt := fun _ => rfl
theorem dRdval : Statement .dRdval := fun _ => rfl
theorem dLoop : Statement .dLoop := fun _ => rfl
theorem dAppend : Statement .dAppend := fun _ => rfl
theorem dNext : Statement .dNext := fun _ => rfl
theorem dRet : Statement .dRet := fun _ => rfl

theorem hStart (u : UnitId) (clear : Bool) (reserved : BitVec 30) : Statement (.hStart u clear reserved) := fun _ => by
  simp only [encode, decode]; rw [decodeCtrl_start (ctrlWord_start ..), ctrlWord_clear, ctrlWord_reserved]

theorem hClear (u : UnitId) (reserved : BitVec 30) : Statement (.hClear u reserved) := fun _ => by
  simp only [encode, decode]
  rw [decodeCtrl_clear (ctrlWord_start ..) (ctrlWord_clear ..), ctrlWord_reserved]

theorem hCtrlNop (u : UnitId) (reserved : BitVec 30) : Statement (.hCtrlNop u reserved) := fun _ => by
  simp only [encode, decode]
  rw [decodeCtrl_nop (ctrlWord_start ..) (ctrlWord_clear ..), ctrlWord_reserved]

theorem hWrIbuf (u : UnitId) (k : Nat) (b : Byte) : Statement (.hWrIbuf u k b) := fun _ => rfl
theorem hWrIlen (u : UnitId) (n : Word32) : Statement (.hWrIlen u n) := fun _ => rfl
theorem hRdStatus (u : UnitId) : Statement (.hRdStatus u) := fun _ => rfl
theorem hRdReg (u : UnitId) (n : RegNum) : Statement (.hRdReg u n) := fun _ => rfl
theorem hRdObuf (u : UnitId) (k : Nat) : Statement (.hRdObuf u k) := fun _ => rfl
theorem hRdIbuf (u : UnitId) (k : Nat) : Statement (.hRdIbuf u k) := fun _ => rfl
theorem hWrReg (u : UnitId) (n : RegNum) (w : Word32) : Statement (.hWrReg u n w) := fun _ => rfl

end Sys2Proof.Laws.RoundTrip
end

