-- ==== Sys2Proof/Laws/Reference.lean ====
section
/-! SUPPORT. The parts of `encode` (40_encoder R132): how long a run segment can be, what it covers, and that the bound on
the number of segments never cuts. -/

namespace Sys2Proof.Reference

theorem leading_le (v : Byte) (l : List Byte) : leading v l ≤ l.length := by
  induction l with
  | nil => simp [leading]
  | cons b rest ih => simp only [leading]; split <;> (simp; try omega)

theorem segment_pos (v : Byte) (rest : List Byte) : 1 ≤ segment v rest := by simp [segment]

theorem segment_le (v : Byte) (rest : List Byte) : segment v rest ≤ 255 := by simp [segment]

theorem segment_le_length (v : Byte) (rest : List Byte) : segment v rest ≤ rest.length + 1 := by
  have := leading_le v rest
  simp [segment]; omega

/-- The leading elements equal to `v` are copies of `v`. -/
theorem take_leading (v : Byte) (l : List Byte) (k : Nat) (h : k ≤ leading v l) : l.take k = List.replicate k v := by
  induction l generalizing k with
  | nil => simp [leading] at h; simp [h]
  | cons b rest ih =>
    cases k with
    | zero => simp
    | succ k =>
      simp only [leading] at h
      split at h
      · next hb => simp [List.replicate_succ, hb, ih k (by omega)]
      · omega

/-- A run that is not continued has its own length. -/
theorem leading_replicate_append (v : Byte) (k : Nat) (l : List Byte) (h : l.head? ≠ some v) :
    leading v (List.replicate k v ++ l) = k := by
  induction k with
  | zero =>
    cases l with
    | nil => rfl
    | cons b r => simp [leading] at h ⊢; exact h
  | succ k ih => simp [List.replicate_succ, leading, ih]

/-- Any bound that reaches the length gives the same list. -/
theorem encodeWithin_enough (f g : Nat) (l : List Byte) (hf : l.length ≤ f) (hg : l.length ≤ g) :
    encodeWithin f l = encodeWithin g l := by
  induction f generalizing g l with
  | zero =>
    cases l with
    | nil => cases g <;> simp [encodeWithin]
    | cons => simp at hf
  | succ f ih =>
    cases l with
    | nil => cases g <;> simp [encodeWithin]
    | cons v rest =>
      cases g with
      | zero => simp at hg
      | succ g =>
        simp only [encodeWithin, List.length_cons] at *
        rw [ih g]
        all_goals simp; omega

end Sys2Proof.Reference
end

