-- ==== Sys2Proof/Laws/Runs.lean ====
section
/-! SUPPORT. Runs of one unit's micro-operations: how a run is cut, how a unit's input is walked, and how its output grows
(40_encoder R126, 41_decoder R155). -/

namespace Sys2Proof.Machine

/-- One micro-operation, then the rest of the run. -/
theorem runTurns_replicate_succ {t : Turn} {s s' : State} (n : Nat) (h : takeTurn t s = .next s') :
    runTurns (List.replicate (n + 1) t) s = runTurns (List.replicate n t) s' := by
  rw [List.replicate_succ]; exact runTurns_cons h _

/-- A run of `n` and then `m` micro-operations. -/
theorem runTurns_replicate_add {t : Turn} {s s' : State} {n : Nat} (m : Nat)
    (h : runTurns (List.replicate n t) s = .next s') :
    runTurns (List.replicate (n + m) t) s = runTurns (List.replicate m t) s' := by
  rw [← List.replicate_append_replicate]; exact runTurns_append h _

/-- A unit that is not BUSY stays as it is, however many turns it is given. -/
theorem runTurns_resting {s : State} {u : UnitId} (h : s.busy u = false) (n : Nat) :
    runTurns (List.replicate n (.micro u)) s = .next s := by
  induction n with
  | zero => rfl
  | succ n ih => rw [runTurns_replicate_succ n (micro_resting h), ih]

/-! ## A unit's input -/

@[simp] theorem input_length (u : UnitId) (s : State) : (s.input u).length = s.ilen u := by
  simp [State.input, State.bytes]

/-- The input from an index below the length on begins with the byte there. -/
theorem drop_input {u : UnitId} {s : State} {k : Nat} (h : k < s.ilen u) :
    (s.input u).drop k = s.byteAt (.input u) k :: (s.input u).drop (k + 1) := by
  rw [List.drop_eq_getElem_cons (by simpa using h)]
  simp [State.input, State.bytes]

theorem drop_input_nil {u : UnitId} {s : State} {k : Nat} (h : s.ilen u ≤ k) : (s.input u).drop k = [] := by
  simp [h]

/-- The input depends on the buffer, the length and the reset count alone. -/
theorem input_congr {u : UnitId} {s t : State} (hb : t.buffer (.input u) = s.buffer (.input u))
    (hl : t.ilen u = s.ilen u) (hr : t.resets = s.resets) : t.input u = s.input u := by
  simp only [State.input, State.bytes, hl]
  exact List.map_congr_left fun k _ => byteAt_congr hb hr k

/-! ## A unit's output -/

/-- What an emitted pair adds to the encoder's result (40_encoder R126). -/
theorem output_emit {s t : State} (c v : Byte)
    (h : t.enc.obuf = Memory.write (Memory.write s.enc.obuf s.enc.olen c) (s.enc.olen + 1) v)
    (hl : t.enc.olen = s.enc.olen + 2) (hr : t.resets = s.resets) : t.output .enc = s.output .enc ++ [c, v] := by
  simp only [State.output, State.bytes, State.olen, hl, List.range_add, List.map_append]
  congr 1
  · refine List.map_congr_left fun k hk => ?_
    have := List.mem_range.1 hk
    simp only [State.byteAt, State.buffer, BufferId.output, h, Memory.find_write, hr]
    rw [if_neg (by omega), if_neg (by omega)]
  · simp [List.range_succ, State.byteAt, State.buffer, BufferId.output, h, Memory.find_write]

/-- What `n` appends of a value add to the decoder's result (41_decoder R155, R164). -/
theorem output_appendRun {s t : State} (n : Nat) (v : Byte) (h : t.dec.obuf = Memory.writeRun n s.dec.obuf s.dec.olen v)
    (hl : t.dec.olen = s.dec.olen + n) (hr : t.resets = s.resets) :
    t.output .dec = s.output .dec ++ List.replicate n v := by
  simp only [State.output, State.bytes, State.olen, hl, List.range_add, List.map_append]
  congr 1
  · refine List.map_congr_left fun k hk => ?_
    have := List.mem_range.1 hk
    simp only [State.byteAt, State.buffer, BufferId.output, h, Memory.find_writeRun, hr]
    rw [if_neg (by omega)]
  · rw [List.map_map]
    refine List.ext_getElem (by simp) fun i h1 _ => ?_
    simp at h1
    simp [State.byteAt, State.buffer, BufferId.output, h, Memory.find_writeRun, h1]

end Sys2Proof.Machine
end

