-- ==== Sys2Proof/Laws/Script.lean ====
section
/-! SUPPORT. A host at work on a script (30_encoding R103): what each move does to the machine, how a schedule is cut, and
what each line of a script makes of the reply to it. -/

namespace Sys2Proof.Machine

/-- A turn put before the agenda is the turn the next step takes, at the state as it was. -/
theorem step_pushTurn {s : State} (h : s.cfg.wf = true) (t : Turn) : step (s.pushTurn t) = takeTurn t s := step_eq h

namespace Script

/-! ## The moves -/

@[simp] theorem perform_nil (h : Caller) (s : State) : perform [] h s = .next (h, s) := rfl

theorem perform_machine {s s' : State} (hs : step s = .next s') (movers : List Mover) (h : Caller) :
    perform (.machine :: movers) h s = perform movers h s' := by simp [perform, hs]

theorem perform_host {s s' : State} {h : Caller} {t : Turn} (hw : s.cfg.wf = true) (hr : h.request = some t)
    (ht : takeTurn t s = .next s') (movers : List Mover) :
    perform (.host :: movers) h s = perform movers (h.hear s'.replies.getLast?) s' := by
  simp [perform, hr, step_pushTurn hw, ht]

theorem perform_idle {h : Caller} (hr : h.request = none) (movers : List Mover) (s : State) :
    perform (.host :: movers) h s = perform movers h s := by simp [perform, hr]

/-- A schedule may be cut anywhere. -/
theorem perform_append {first : List Mover} {h h' : Caller} {s s' : State} (hp : perform first h s = .next (h', s'))
    (second : List Mover) : perform (first ++ second) h s = perform second h' s' := by
  induction first generalizing h s with
  | nil => cases hp; rfl
  | cons m first ih =>
    cases m with
    | machine =>
      simp only [List.cons_append, perform] at hp ⊢
      cases hs : step s with
      | next s1 => simp only [hs] at hp; exact ih hp
      | fault r => simp [hs] at hp
      | refused r => simp [hs] at hp
    | host =>
      simp only [List.cons_append, perform] at hp ⊢
      cases hr : h.request with
      | none => simp only [hr] at hp; exact ih hp
      | some t =>
        simp only [hr] at hp ⊢
        cases hs : step (s.pushTurn t) with
        | next s1 => simp only [hs] at hp; exact ih hp
        | fault r => simp [hs] at hp
        | refused r => simp [hs] at hp

/-! ## The lines -/

section
variable (rest : List Command) (bytes : List Byte) (f : Option (BitVec 4))

@[simp] theorem request_nil : Caller.request ⟨[], bytes, f⟩ = none := rfl
@[simp] theorem request_ask (t : Turn) : Caller.request ⟨.ask t :: rest, bytes, f⟩ = some t := rfl
@[simp] theorem request_poll (u : UnitId) : Caller.request ⟨.poll u :: rest, bytes, f⟩ = some (.call (.rdStatus u)) := rfl
@[simp] theorem request_readLength (u : UnitId) :
    Caller.request ⟨.readLength u :: rest, bytes, f⟩ = some (.call (.rdReg u 3#4)) := rfl
@[simp] theorem request_readByte (u : UnitId) (k : Nat) :
    Caller.request ⟨.readByte u k :: rest, bytes, f⟩ = some (.call (.rdObuf u k)) := rfl

@[simp] theorem hear_ask (t : Turn) (r : Option Reply) :
    Caller.hear r ⟨.ask t :: rest, bytes, f⟩ = ⟨rest, bytes, f⟩ := by cases r <;> rfl

/-- While the unit is BUSY the host goes on polling. -/
theorem hear_poll_busy {w : Word32} (hw : w.getLsbD 0 = true) (u : UnitId) :
    Caller.hear (some (.reg w)) ⟨.poll u :: rest, bytes, f⟩ = ⟨.poll u :: rest, bytes, f⟩ := by simp [Caller.hear, hw]

/-- The poll that finds `DONE` lets the script go on. -/
theorem hear_poll_done {w : Word32} (h0 : w.getLsbD 0 = false) (h1 : w.getLsbD 1 = true) (u : UnitId) :
    Caller.hear (some (.reg w)) ⟨.poll u :: .ifDone :: rest, bytes, f⟩ = ⟨rest, bytes, f⟩ := by
  simp only [Caller.hear, Caller.afterPoll, h0, h1, Bool.false_eq_true, if_false, if_true]

/-- The poll that finds a unit at rest and not `DONE` ends the script with the fault code. -/
theorem hear_poll_failed {w : Word32} (h0 : w.getLsbD 0 = false) (h1 : w.getLsbD 1 = false) (u : UnitId) :
    Caller.hear (some (.reg w)) ⟨.poll u :: .ifDone :: rest, bytes, f⟩ = ⟨[], bytes, some (w.extractLsb' 4 4)⟩ := by
  simp only [Caller.hear, Caller.afterPoll, h0, h1, Bool.false_eq_true, if_false]

@[simp] theorem hear_readLength (w : Word32) (u : UnitId) :
    Caller.hear (some (.reg w)) ⟨.readLength u :: rest, bytes, f⟩ =
      ⟨(List.range w.toNat).map (.readByte u) ++ rest, bytes, f⟩ := rfl

@[simp] theorem hear_readByte (b : Byte) (u : UnitId) (k : Nat) :
    Caller.hear (some (.byte b)) ⟨.readByte u k :: rest, bytes, f⟩ = ⟨rest, bytes ++ [b], f⟩ := rfl

end

/-- The host reports exactly when its script is over. -/
@[simp] theorem report_eq_none (h : Caller) : h.report = none ↔ h.todo ≠ [] := by
  obtain ⟨todo, bytes, failure⟩ := h
  cases todo <;> cases failure <;> simp [Caller.report]

@[simp] theorem load_length (u : UnitId) (bytes : List Byte) : (load u bytes).length = bytes.length + 1 := by simp [load]

end Script

end Sys2Proof.Machine
end

