-- ==== Sys2Proof/Tests/Slice0.lean ====
section
/-! SUPPORT. The model's own tests. Expected values are the spec's: the words of 30_encoding R91, R95 to R98 and the vectors
of 95_test_vectors part 2, named in each comment. After them, for every obligation with hypotheses, states and operands that
meet them. -/

namespace Sys2Proof.Machine.Tests

/-! ## Well-formedness -/

theorem test_wf_refuses_pair_count_zero : (Instr.pair 0#8 5#8).wf = false := by decide
theorem test_wf_takes_pair_zero : (Instr.pairZero 5#8).wf = true := by decide
theorem test_wf_takes_pair_bounds : (Instr.pair 1#8 0#8).wf = true ∧ (Instr.pair 255#8 255#8).wf = true := by decide

/-! ## Decoding: words written out from the spec's encoding -/

/-- 30_encoding R91: count in the first byte, value in the second. -/
theorem test_decode_pair : decode (.pair16 0b00000011#8 0b01100001#8) = .ok (.pair 3#8 97#8) := by rfl
theorem test_decode_pairZero : decode (.pair16 0b00000000#8 0b00000101#8) = .ok (.pairZero 5#8) := by rfl

/-- 30_encoding R95. -/
theorem test_decode_encoder_codes :
    decode (.state4 .enc 0b0001#4) = .ok .eLoad ∧ decode (.state4 .enc 0b0010#4) = .ok .eRinit ∧
      decode (.state4 .enc 0b0011#4) = .ok .eOuter ∧ decode (.state4 .enc 0b0100#4) = .ok .eCinit ∧
      decode (.state4 .enc 0b0101#4) = .ok .eCmp ∧ decode (.state4 .enc 0b0110#4) = .ok .eEmit ∧
      decode (.state4 .enc 0b0111#4) = .ok .eAdv ∧ decode (.state4 .enc 0b1000#4) = .ok .eRet :=
  ⟨rfl, rfl, rfl, rfl, rfl, rfl, rfl, rfl⟩

/-- 30_encoding R96. -/
theorem test_decode_decoder_codes :
    decode (.state4 .dec 0b0001#4) = .ok .dInit ∧ decode (.state4 .dec 0b0010#4) = .ok .dRdcnt ∧
      decode (.state4 .dec 0b0011#4) = .ok .dRdval ∧ decode (.state4 .dec 0b0100#4) = .ok .dLoop ∧
      decode (.state4 .dec 0b0101#4) = .ok .dAppend ∧ decode (.state4 .dec 0b0110#4) = .ok .dNext ∧
      decode (.state4 .dec 0b0111#4) = .ok .dRet :=
  ⟨rfl, rfl, rfl, rfl, rfl, rfl, rfl⟩

/-- 30_encoding R95, R96, R99 (c): the codes that select nothing. -/
theorem test_decode_refused_codes :
    decode (.state4 .enc 0b0000#4) = .error .restingState ∧ decode (.state4 .enc 0b1001#4) = .error .restingState ∧
      decode (.state4 .dec 0b1010#4) = .error .restingState ∧ decode (.state4 .dec 0b1000#4) = .error .unusedState ∧
      decode (.state4 .enc 0b1011#4) = .error .unusedState ∧ decode (.state4 .enc 0b1111#4) = .error .unusedState :=
  ⟨rfl, rfl, rfl, rfl, rfl, rfl⟩

/-- 30_encoding R97: bit 0 starts, else bit 1 clears; the bits above are carried. -/
theorem test_decode_ctrl :
    decode (.ctrl32 .enc 0x00000001#32) = .ok (.hStart .enc false 0#30) ∧
      decode (.ctrl32 .dec 0xFFFFFFFF#32) = .ok (.hStart .dec true 0x3FFFFFFF#30) ∧
      decode (.ctrl32 .dec 0x80000002#32) = .ok (.hClear .dec 0x20000000#30) ∧
      decode (.ctrl32 .enc 0x00000004#32) = .ok (.hCtrlNop .enc 1#30) :=
  ⟨rfl, rfl, rfl, rfl⟩

/-- 30_encoding R104: the operations by name. -/
theorem test_decode_calls :
    decode (.named (.wrIbuf .enc 2 7#8)) = .ok (.hWrIbuf .enc 2 7#8) ∧
      decode (.named (.wrIlen .dec 5#32)) = .ok (.hWrIlen .dec 5#32) ∧
      decode (.named (.rdStatus .enc)) = .ok (.hRdStatus .enc) ∧
      decode (.named (.rdReg .dec 7#4)) = .ok (.hRdReg .dec 7#4) ∧
      decode (.named (.rdObuf .dec 9)) = .ok (.hRdObuf .dec 9) ∧
      decode (.named (.rdIbuf .enc 9)) = .ok (.hRdIbuf .enc 9) ∧
      decode (.named (.wrReg .enc 0#4 1#32)) = .ok (.hWrReg .enc 0#4 1#32) :=
  ⟨rfl, rfl, rfl, rfl, rfl, rfl, rfl⟩

/-- 95_test_vectors V-S5: the encoded buffer of "aaabb" as pair words; 30_encoding R99 (b): a trailing byte. -/
theorem test_decode_stream :
    decodeStream [3#8, 97#8, 2#8, 98#8] = .ok [.pair 3#8 97#8, .pair 2#8 98#8] ∧
      decodeStream [3#8, 97#8, 2#8] = .error .unpairedByte ∧
      decodeBytes [0#8, 5#8, 2#8] = .ok (.pairZero 5#8, [2#8]) :=
  ⟨rfl, rfl, rfl⟩

/-- opcode_table.json's numbering (log 13). -/
theorem test_table_words :
    decodeTableWord 16 0x0361 = some (.pair 3#8 97#8) ∧ decodeTableWord 16 0x0005 = some (.pairZero 5#8) ∧
      decodeTableWord 8 0x5 = some .eCmp ∧ decodeTableWord 32 0x2 = some (.hClear .enc 0#30) ∧
      decodeTableWord 8 0xB = none :=
  ⟨rfl, rfl, rfl, rfl, rfl⟩

/-! ## One step of each operation -/

/-- The machine after reset with another encoder. -/
def withEnc (e : Enc) : State := { State.reset with enc := e }

/-- The machine after reset with another decoder. -/
def withDec (d : Dec) : State := { State.reset with dec := d }

/-- What is seen of the next state. -/
def seen {α : Type} (f : State → α) : Answer → Option α
  | .next s => some (f s)
  | .fault _ => none
  | .refused _ => none

/-- The raw buffer `[97,97,97,98,98]` (V-E4). -/
def rawBytes : Memory := [(0, 97#8), (1, 97#8), (2, 97#8), (3, 98#8), (4, 98#8)]

/-- The encoded buffer `[3,97,2,98]` (V-D4). -/
def encodedBytes : Memory := [(0, 3#8), (1, 97#8), (2, 2#8), (3, 98#8)]

/-- V-E1 -/
theorem test_eLoad :
    seen (fun t => (t.enc.i, t.enc.count, t.enc.val, t.enc.st, t.enc.olen))
      (exec .eLoad (withEnc { Enc.reset with st := .eLoad, i := 7, count := 3#8, val := 9#8, olen := 6 })) =
      some (0, 0#8, 0#8, .eRinit, 6) := by decide

/-- V-E2, V-E3 -/
theorem test_eRinit :
    seen (fun t => (t.enc.olen, t.enc.st)) (exec .eRinit (withEnc { Enc.reset with ilen := 5, olen := 6 })) =
        some (0, .eOuter) ∧
      seen (fun t => (t.enc.olen, t.enc.st)) (exec .eRinit (withEnc { Enc.reset with ilen := 0, olen := 6 })) =
        some (0, .eRet) := by decide

/-- V-E4 -/
theorem test_eOuter :
    seen (fun t => (t.enc.val, t.enc.st))
      (exec .eOuter (withEnc { Enc.reset with ibuf := rawBytes, ilen := 5, i := 3, val := 97#8 })) =
      some (98#8, .eCinit) := by decide

/-- V-E5 -/
theorem test_eCinit :
    seen (fun t => (t.enc.count, t.enc.st)) (exec .eCinit (withEnc { Enc.reset with count := 3#8 })) =
      some (1#8, .eCmp) := by decide

/-- V-E6, V-E7, V-E8 -/
theorem test_eCmp :
    seen (fun t => (t.enc.count, t.enc.st))
        (exec .eCmp (withEnc { Enc.reset with ibuf := rawBytes, ilen := 5, val := 97#8, count := 2#8 })) =
        some (3#8, .eCmp) ∧
      seen (fun t => (t.enc.count, t.enc.st))
        (exec .eCmp (withEnc { Enc.reset with ibuf := rawBytes, ilen := 5, val := 97#8, count := 3#8 })) =
        some (3#8, .eEmit) ∧
      seen (fun t => (t.enc.count, t.enc.st))
        (exec .eCmp (withEnc { Enc.reset with ibuf := rawBytes, ilen := 5, i := 3, val := 98#8, count := 2#8 })) =
        some (2#8, .eEmit) := by decide

/-- V-E9, V-E10: the cap. -/
theorem test_eCmp_cap :
    seen (fun t => (t.enc.count, t.enc.st))
        (exec .eCmp (withEnc { Enc.reset with ibuf := [(254, 7#8)], ilen := 300, val := 7#8, count := 254#8 })) =
        some (255#8, .eCmp) ∧
      seen (fun t => (t.enc.count, t.enc.st))
        (exec .eCmp (withEnc { Enc.reset with ibuf := [(255, 7#8)], ilen := 300, val := 7#8, count := 255#8 })) =
        some (255#8, .eEmit) := by decide

/-- V-E12, V-E13 -/
theorem test_eEmit :
    seen (fun t => (t.enc.obuf, t.enc.olen, t.enc.st, t.enc.i))
        (exec .eEmit (withEnc { Enc.reset with count := 3#8, val := 97#8 })) =
        some ([(0, 3#8), (1, 97#8)], 2, .eAdv, 0) ∧
      seen (fun t => (t.enc.obuf, t.enc.olen, t.enc.st))
        (exec .eEmit (withEnc { Enc.reset with count := 1#8, val := 9#8, olen := 2046 })) =
        some ([(2046, 1#8), (2047, 9#8)], 2048, .eAdv) := by decide

/-- V-E14, and V-E15 with `ENC_OUT_CAP = 3` -/
theorem test_eEmit_overflow :
    seen (fun t => (t.enc.obuf, t.enc.olen, t.enc.st, t.enc.err))
        (exec .eEmit (withEnc { Enc.reset with count := 1#8, val := 9#8, olen := 2048 })) =
        some ([], 2048, .fault, .outputOverflow) ∧
      seen (fun t => (t.enc.obuf, t.enc.olen, t.enc.st, t.enc.err))
        (exec .eEmit { withEnc { Enc.reset with count := 1#8, val := 9#8, olen := 2 } with
          cfg := { Params.reference with encOutCap := 3 } }) =
        some ([], 2, .fault, .outputOverflow) := by decide

/-- V-E16, V-E17 -/
theorem test_eAdv :
    seen (fun t => (t.enc.i, t.enc.st)) (exec .eAdv (withEnc { Enc.reset with ilen := 5, count := 3#8 })) =
        some (3, .eOuter) ∧
      seen (fun t => (t.enc.i, t.enc.st)) (exec .eAdv (withEnc { Enc.reset with ilen := 5, i := 3, count := 2#8 })) =
        some (5, .eRet) := by decide

/-- V-E19 -/
theorem test_eRet :
    seen (fun t => (t.enc.st, t.status .enc)) (exec .eRet (withEnc { Enc.reset with st := .eRet, olen := 4 })) =
      some (.done, 0x00000902#32) := by decide

/-- V-D1, V-D2 -/
theorem test_dInit :
    seen (fun t => (t.dec.i, t.dec.count, t.dec.value, t.dec.j, t.dec.olen, t.dec.st))
        (exec .dInit (withDec
          { Dec.reset with ilen := 4, i := 4, count := 2#8, value := 98#8, j := 2#8, olen := 5, st := .dInit })) =
        some (0, 0#8, 0#8, 0#8, 0, .dRdcnt) ∧
      seen (fun t => (t.dec.i, t.dec.olen, t.dec.st))
        (exec .dInit (withDec { Dec.reset with ilen := 0, i := 4, olen := 5 })) = some (0, 0, .dRet) := by decide

/-- V-D3 -/
theorem test_dInit_odd :
    seen (fun t => (t.dec.i, t.dec.count, t.dec.olen, t.dec.st, t.dec.err, t.status .dec))
      (exec .dInit (withDec { Dec.reset with ilen := 3, i := 4, count := 2#8, olen := 5, st := .dInit })) =
      some (0, 0#8, 0, .fault, .decodeError, 0x00000A14#32) := by decide

/-- V-D4 -/
theorem test_dRdcnt :
    seen (fun t => (t.dec.count, t.dec.st))
      (exec .dRdcnt (withDec { Dec.reset with ibuf := encodedBytes, ilen := 4, i := 2, count := 3#8 })) =
      some (2#8, .dRdval) := by decide

/-- V-D6 -/
theorem test_dRdval :
    seen (fun t => (t.dec.value, t.dec.j, t.dec.st))
      (exec .dRdval (withDec { Dec.reset with ibuf := encodedBytes, ilen := 4, i := 2, value := 97#8, j := 3#8 })) =
      some (98#8, 0#8, .dLoop) := by decide

/-- V-D7, V-D9, V-D10, V-D11 -/
theorem test_dLoop :
    seen (fun t => t.dec.st) (exec .dLoop (withDec { Dec.reset with j := 0#8, count := 3#8 })) = some .dAppend ∧
      seen (fun t => t.dec.st) (exec .dLoop (withDec { Dec.reset with j := 0#8, count := 0#8 })) = some .dNext ∧
      seen (fun t => t.dec.st) (exec .dLoop (withDec { Dec.reset with j := 254#8, count := 255#8 })) =
        some .dAppend ∧
      seen (fun t => t.dec.st) (exec .dLoop (withDec { Dec.reset with j := 255#8, count := 255#8 })) =
        some .dNext := by decide

/-- V-D12, V-D13 -/
theorem test_dAppend :
    seen (fun t => (t.dec.obuf, t.dec.olen, t.dec.j, t.dec.st))
        (exec .dAppend (withDec
          { Dec.reset with obuf := [(0, 97#8), (1, 97#8)], value := 97#8, olen := 2, j := 2#8, count := 3#8 })) =
        some ([(0, 97#8), (1, 97#8), (2, 97#8)], 3, 3#8, .dLoop) ∧
      seen (fun t => (t.dec.obuf, t.dec.olen, t.dec.j, t.dec.st))
        (exec .dAppend (withDec { Dec.reset with value := 1#8, olen := 261119, j := 254#8, count := 255#8 })) =
        some ([(261119, 1#8)], 261120, 255#8, .dLoop) := by decide

/-- V-D14 -/
theorem test_dAppend_overflow :
    seen (fun t => (t.dec.obuf, t.dec.olen, t.dec.j, t.dec.st, t.dec.err))
      (exec .dAppend (withDec { Dec.reset with value := 97#8, olen := 261120, j := 0#8, count := 1#8 })) =
      some ([], 261120, 0#8, .fault, .outputOverflow) := by decide

/-- V-D15, V-D16 -/
theorem test_dNext :
    seen (fun t => (t.dec.i, t.dec.st)) (exec .dNext (withDec { Dec.reset with ilen := 4 })) = some (2, .dRdcnt) ∧
      seen (fun t => (t.dec.i, t.dec.st)) (exec .dNext (withDec { Dec.reset with ilen := 4, i := 2 })) =
        some (4, .dRet) := by decide

/-- V-D17 -/
theorem test_dRet :
    seen (fun t => (t.dec.st, t.status .dec)) (exec .dRet (withDec { Dec.reset with st := .dRet, olen := 5 })) =
      some (.done, 0x00000902#32) := by decide

/-- The big-step vector of 95_test_vectors 2.3 for the pair `[3,97]`. -/
theorem test_pair :
    seen (fun t => ((t.dec.i, t.dec.olen, t.dec.obuf), t.dec.count, t.dec.j, t.dec.st))
      (takeTurn .pair (withDec { Dec.reset with ibuf := encodedBytes, ilen := 4, st := .dRdcnt })) =
      some ((2, 3, [(0, 97#8), (1, 97#8), (2, 97#8)]), 3#8, 3#8, .dRdcnt) := by decide

/-- 60_exceptions R242: the pair `[3,97]` with one free byte in the output. -/
theorem test_pair_overflow :
    seen (fun t => ((t.dec.i, t.dec.olen, t.dec.obuf), t.dec.j, t.dec.st, t.dec.err))
      (exec (.pair 3#8 97#8) (withDec { Dec.reset with ilen := 2, st := .dRdcnt, olen := 261119 })) =
      some ((0, 261120, [(261119, 97#8)]), 1#8, .fault, .outputOverflow) := by decide

/-- The zero-count pair `[0,5]` of 95_test_vectors 2.3. -/
theorem test_pairZero :
    seen (fun t => ((t.dec.i, t.dec.olen, t.dec.obuf), t.dec.count, t.dec.j, t.dec.st))
      (takeTurn .pair (withDec { Dec.reset with ibuf := [(0, 0#8), (1, 5#8)], ilen := 2, st := .dRdcnt })) =
      some ((2, 0, []), 0#8, 0#8, .dRet) := by decide

/-- 95_test_vectors 2.4: a start from rest clears the fault code; a BUSY unit ignores it. -/
theorem test_hStart :
    seen (fun t => (t.dec.st, t.dec.err))
        (exec (.hStart .dec true 5#30) (withDec { Dec.reset with st := .fault, err := .decodeError })) =
        some (.dInit, .none) ∧
      seen (fun t => t.enc.st) (exec (.hStart .enc false 0#30) (withEnc { Enc.reset with st := .eCmp })) =
        some .eCmp := by decide

/-- 42_host_operations R184: the result stays, the fault code goes. -/
theorem test_hClear :
    seen (fun t => (t.enc.st, t.enc.err, t.enc.olen))
        (exec (.hClear .enc 0#30) (withEnc { Enc.reset with st := .fault, err := .outputOverflow, olen := 4 })) =
        some (.idle, .none, 4) ∧
      seen (fun t => t.dec.st) (exec (.hClear .dec 0#30) (withDec { Dec.reset with st := .dLoop })) =
        some .dLoop := by decide

/-- 42_host_operations R185 -/
theorem test_hCtrlNop : exec (.hCtrlNop .enc 7#30) State.reset = .next State.reset := rfl

/-- 42_host_operations R181: stored below the capacity, ignored at it and while BUSY. -/
theorem test_hWrIbuf :
    seen (fun t => t.enc.ibuf) (exec (.hWrIbuf .enc 1023 7#8) State.reset) = some [(1023, 7#8)] ∧
      seen (fun t => t.enc.ibuf) (exec (.hWrIbuf .enc 1024 7#8) State.reset) = some [] ∧
      seen (fun t => t.enc.ibuf) (exec (.hWrIbuf .enc 0 7#8) (withEnc { Enc.reset with st := .eLoad })) =
        some [] := by decide

/-- 95_test_vectors 2.4: 1025 is more than `ENC_IN_CAP`; 1024 and 0 are taken. -/
theorem test_hWrIlen :
    seen (fun t => t.enc.ilen) (exec (.hWrIlen .enc 1025#32) (withEnc { Enc.reset with ilen := 5 })) = some 5 ∧
      seen (fun t => t.enc.ilen) (exec (.hWrIlen .enc 1024#32) (withEnc { Enc.reset with ilen := 5 })) = some 1024 ∧
      seen (fun t => t.dec.ilen) (exec (.hWrIlen .dec 0#32) (withDec { Dec.reset with ilen := 5 })) = some 0 := by
  decide

/-- 10_state R42: `STATE` of `E_LOAD` is 1, BUSY is bit 0. -/
theorem test_hRdStatus :
    seen (fun t => t.replies) (exec (.hRdStatus .enc) (withEnc { Enc.reset with st := .eLoad })) =
      some [.reg 0x00000101#32] := by decide

/-- 10_state R40: `ICAP` and `OCAP` of RC, `J` of the encoder, an unused number. -/
theorem test_hRdReg :
    seen (fun t => t.replies) (exec (.hRdReg .enc 8#4) State.reset) = some [.reg 1024#32] ∧
      seen (fun t => t.replies) (exec (.hRdReg .dec 9#4) State.reset) = some [.reg 261120#32] ∧
      seen (fun t => t.replies) (exec (.hRdReg .dec 7#4) (withDec { Dec.reset with j := 9#8 })) = some [.reg 9#32] ∧
      seen (fun t => t.replies) (exec (.hRdReg .dec 12#4) State.reset) = some [.reg 0#32] := by decide

/-- 42_host_operations R188, R189: the bytes of the two buffers are not mixed up. -/
theorem test_hRdBuf :
    seen (fun t => t.replies)
        (exec (.hRdObuf .enc 1) (withEnc { Enc.reset with ibuf := rawBytes, obuf := [(0, 3#8), (1, 8#8)] })) =
        some [.byte 8#8] ∧
      seen (fun t => t.replies)
        (exec (.hRdIbuf .dec 2) (withDec { Dec.reset with ibuf := encodedBytes, obuf := [(2, 5#8)] })) =
        some [.byte 2#8] := by decide

/-- 42_host_operations R190: `OLEN` cannot be written; register 0 starts the unit. -/
theorem test_hWrReg :
    seen (fun t => t.enc.olen) (exec (.hWrReg .enc 3#4 99#32) State.reset) = some 0 ∧
      seen (fun t => t.enc.st) (exec (.hWrReg .enc 0#4 1#32) State.reset) = some .eLoad ∧
      seen (fun t => t.dec.ilen) (exec (.hWrReg .dec 2#4 7#32) State.reset) = some 7 := by decide

/-! ## The step and the placing of a word -/

/-- A placed state code is run by the very next step (log 14). -/
theorem test_step_runs_placed_code :
    seen (fun t => t.enc.st) (step (State.reset.withFetchWord 8 0x4)) = some .eCmp := by decide

/-- A placed pair word is run by the very next step, and the agenda is empty again. -/
theorem test_step_runs_placed_pair :
    seen (fun t => (t.dec.olen, t.dec.obuf, t.dec.st, t.agenda)) (step (State.reset.withFetchWord 16 0x0207)) =
      some (2, [(0, 7#8), (1, 7#8)], .dRet, []) := by decide

/-- A placed `CTRL` word is run by the very next step. -/
theorem test_step_runs_placed_ctrl :
    seen (fun t => (t.enc.st, t.agenda)) (step (State.reset.withFetchWord 32 1)) = some (.eLoad, []) := by decide

/-- With nothing on the agenda the units take turns (log 4). -/
theorem test_step_alternates :
    seen (fun t => (t.enc.st, t.nextUnit)) (step (withEnc { Enc.reset with st := .eLoad })) = some (.eRinit, .dec) := by
  decide

/-! ## The host's scripts -/

/-- 30_encoding R103: the poll of a BUSY unit is repeated. -/
theorem test_script_polls_while_busy :
    (match Script.perform [.host] (.begin (Script.run .enc).tail) (withEnc { Enc.reset with st := .eLoad }) with
      | .next (h, s) => decide (h.todo = [.poll .enc] ∧ s.replies = [.reg 0x101#32])
      | .fault _ => false
      | .refused _ => false) = true := by decide

/-- 30_encoding R103, V-D3: `STATUS = 0xA14` ends `DECODE` with the fault reported, `RESULT` is not begun. -/
theorem test_script_reports_fault :
    (match Script.perform [.host, .host] (.begin ([.poll .dec, .ifDone] ++ Script.result .dec))
        (withDec { Dec.reset with st := .fault, err := .decodeError, olen := 2 }) with
      | .next (h, s) => decide (h.report = some (.failed 1#4) ∧ s.replies = [.reg 0xA14#32])
      | .fault _ => false
      | .refused _ => false) = true := by decide

/-- 30_encoding R103: `RESULT` reads as many bytes as `OLEN` says. -/
theorem test_script_reads_olen_bytes :
    (match Script.perform [.host] (.begin (Script.result .enc)) (withEnc { Enc.reset with olen := 2 }) with
      | .next (h, _) => decide (h.todo = [.readByte .enc 0, .readByte .enc 1])
      | .fault _ => false
      | .refused _ => false) = true := by decide

/-- 30_encoding R103: the bytes ascending, then the length. -/
theorem test_script_load :
    Script.load .dec [3#8, 97#8] =
      [.call (.wrIbuf .dec 0 3#8), .call (.wrIbuf .dec 1 97#8), .call (.wrIlen .dec 2#32)] := rfl

/-! ## The two functions -/

/-- V-F3, V-F15, and V-F14 with its inverse V-G4. -/
theorem test_encode :
    Reference.encode [5#8, 5#8, 5#8, 9#8, 9#8, 5#8, 5#8] = [3#8, 5#8, 2#8, 9#8, 2#8, 5#8] ∧
      Reference.encode [97#8, 97#8, 97#8, 98#8, 98#8] = [3#8, 97#8, 2#8, 98#8] := by decide

/-- V-G6, V-G3 -/
theorem test_decode :
    Reference.decode [0#8, 5#8, 2#8, 9#8] = .ok [9#8, 9#8] ∧
      Reference.decode [3#8, 97#8, 2#8] = .error .decodeError := ⟨rfl, rfl⟩

/-! ## States that meet the hypotheses of the obligations

`EncoderRun…` and its kin need a unit about to start, the micro-operation statements a unit in the middle of a run. The
encoder works on `[5,5,6]`, whose encoding `[2,5,1,6]` fills the output of `small` exactly; the decoder on `[2,7,1,9]`, whose
decoding `[7,7,9]` does too. In `tight` neither fits. -/

/-- A small legal configuration. -/
def small : Params := { encInCap := 4, encOutCap := 4, decInCap := 4, decOutCap := 3, iw := 4 }

/-- The same with less room for the results. -/
def tight : Params := { encInCap := 4, encOutCap := 3, decInCap := 4, decOutCap := 2, iw := 4 }

/-- Both units in the middle of things. -/
def mid (cfg : Params) (est : EncSt) (count val : Byte) (eolen : Nat) (dst : DecSt) (dcount value j : Byte)
    (dolen : Nat) : State :=
  { State.reset with
    cfg := cfg
    enc := { Enc.reset with
      ibuf := [(0, 5#8), (1, 5#8), (2, 6#8)], ilen := 3, obuf := [(0, 1#8), (1, 9#8)]
      count := count, val := val, st := est, olen := eolen }
    dec := { Dec.reset with
      ibuf := [(0, 2#8), (1, 7#8), (2, 1#8), (3, 9#8)], ilen := 4, obuf := [(0, 4#8), (1, 4#8)]
      count := dcount, value := value, j := j, st := dst, olen := dolen } }

/-- Both units about to start. -/
def atStart (cfg : Params) : State := mid cfg .eLoad 0#8 0#8 2 .dInit 0#8 0#8 0#8 2

/-- Both units at the first read of their input. -/
def atRead : State := mid small .eOuter 0#8 0#8 0 .dRdcnt 0#8 0#8 0#8 0

/-- The encoder at the first comparison, the decoder at the second read of its pair. -/
def atCompare : State := mid small .eCmp 1#8 5#8 0 .dRdval 2#8 0#8 0#8 0

/-- Both units about to store, with room. -/
def atStore : State := mid small .eEmit 2#8 5#8 2 .dAppend 2#8 7#8 1#8 2

/-- Both units about to store, with the output full. -/
def atFull : State := mid tight .eEmit 2#8 5#8 2 .dAppend 2#8 7#8 1#8 2

/-- The decoder at a pair that does not fit. -/
def atWidePair : State := mid tight .idle 0#8 0#8 0 .dRdcnt 0#8 0#8 0#8 1

/-- A decoder with an odd length, about to start. -/
def atOddStart : State := { atStart small with dec := { (atStart small).dec with ilen := 3 } }

theorem witness_inv_atStart : Inv (atStart small) := by
  refine ⟨by decide, ?_, ?_⟩ <;> constructor <;> first | decide | exact ⟨by decide, by decide⟩
theorem witness_inv_atStart_tight : Inv (atStart tight) := by
  refine ⟨by decide, ?_, ?_⟩ <;> constructor <;> first | decide | exact ⟨by decide, by decide⟩
theorem witness_inv_atRead : Inv atRead := by
  refine ⟨by decide, ?_, ?_⟩ <;> constructor <;> first | decide | exact ⟨by decide, by decide⟩
theorem witness_inv_atCompare : Inv atCompare := by
  refine ⟨by decide, ?_, ?_⟩ <;> constructor <;> first | decide | exact ⟨by decide, by decide⟩
theorem witness_inv_atStore : Inv atStore := by
  refine ⟨by decide, ?_, ?_⟩ <;> constructor <;> first | decide | exact ⟨by decide, by decide⟩
theorem witness_inv_atWidePair : Inv atWidePair := by
  refine ⟨by decide, ?_, ?_⟩ <;> constructor <;> first | decide | exact ⟨by decide, by decide⟩
theorem witness_inv_atOddStart : Inv atOddStart := by
  refine ⟨by decide, ?_, ?_⟩ <;> constructor <;> first | decide | exact ⟨by decide, by decide⟩

/-- Both units at rest. -/
def atRest : State := mid small .idle 0#8 0#8 0 .done 1#8 9#8 1#8 3

theorem witness_inv_atRest : Inv atRest := by
  refine ⟨by decide, ?_, ?_⟩ <;> constructor <;> first | decide | exact ⟨by decide, by decide⟩

/-- The invariant does not see the agenda. -/
theorem witness_inv_agenda {s : State} (h : Inv s) (ts : List Turn) : Inv { s with agenda := ts } :=
  h.congr rfl rfl rfl rfl

/-! ### Reset, encoding -/

/-- With nothing on the agenda, and with a pair turn. -/
theorem witness_ResetRestsIdleWithZeroRegisters :
    (State.reset.cfg.wf = true ∧ State.reset.busy .enc = false ∧ State.reset.busy .dec = false ∧
      State.reset.nextTurn = .micro .enc) ∧
    ((atRest.pushTurn .pair).cfg.wf = true ∧ (atRest.pushTurn .pair).busy .enc = false ∧
      (atRest.pushTurn .pair).busy .dec = false ∧ (atRest.pushTurn .pair).nextTurn = .pair) := by decide

theorem witness_ResetTurnClearsBothUnits :
    ((atStart small).pushTurn .reset).cfg.wf = true ∧ ((atStart small).pushTurn .reset).agenda = .reset :: [] := by decide

theorem witness_DecodeOfEncodeIsIdentity : (Instr.pair 1#8 0#8).wf = true ∧ (Instr.hStart .dec true 3#30).wf = true := by
  decide

theorem witness_EncodeOfDecodeIsIdentity :
    decode (.pair16 0#8 0#8) = .ok (.pairZero 0#8) ∧ decode (.state4 .enc 8#4) = .ok .eRet := ⟨rfl, rfl⟩

theorem witness_StateCodesSplitThreeWays :
    (0#4).toNat = 0 ∧ (9#4).toNat = 9 ∧ (10#4).toNat = 10 ∧ 11 ≤ (11#4).toNat ∧ 11 ≤ (15#4).toNat ∧ (8#4).toNat = 8 ∧
      (1 ≤ (1#4).toNat ∧ (1#4).toNat ≤ 8) ∧ ¬(UnitId.enc = .dec ∧ (8#4).toNat = 8) := by decide

theorem witness_EvenStreamIsSequenceOfPairs :
    ([] : List Byte).length % 2 = 0 ∧ [3#8, 97#8].length % 2 = 0 ∧ [3#8].length % 2 = 1 := by decide

/-! ### The step -/

theorem witness_StepRunsTheDecodedOperation_micro :
    let s := (atStart small).pushTurn (.micro .dec)
    s.cfg.wf = true ∧ s.agenda = .micro .dec :: [] ∧ decode (.state4 .dec (s.stCode .dec)) = .ok .dInit :=
  ⟨by decide, rfl, rfl⟩

theorem witness_StepRunsTheDecodedOperation_ctrl :
    let s := (atStart small).pushTurn (.ctrl .enc 2#32)
    s.cfg.wf = true ∧ s.agenda = .ctrl .enc 2#32 :: [] ∧ decode (.ctrl32 .enc 2#32) = .ok (.hClear .enc 0#30) :=
  ⟨by decide, rfl, rfl⟩

theorem witness_StepRunsTheDecodedOperation_call :
    let s := (atStart small).pushTurn (.call (.rdStatus .enc))
    s.cfg.wf = true ∧ s.agenda = .call (.rdStatus .enc) :: [] ∧
      decode (.named (.rdStatus .enc)) = .ok (.hRdStatus .enc) :=
  ⟨by decide, rfl, rfl⟩

theorem witness_StepRunsTheDecodedOperation_pair :
    let s := atRead.pushTurn .pair
    s.cfg.wf = true ∧ s.agenda = .pair :: [] ∧ s.dec.st = .dRdcnt ∧ s.dec.i + 1 < s.cfg.decInCap ∧
      decode (.pair16 (s.byteAt .decIbuf s.dec.i) (s.byteAt .decIbuf (s.dec.i + 1))) = .ok (.pair 2#8 7#8) :=
  ⟨by decide, rfl, rfl, by decide, rfl⟩

theorem witness_StepRunsTheDecodedOperation_empty :
    (atStart small).cfg.wf = true ∧ (atStart small).agenda = [] ∧
      decode (.state4 (atStart small).nextUnit ((atStart small).stCode (atStart small).nextUnit)) = .ok .eLoad :=
  ⟨by decide, rfl, rfl⟩

theorem witness_RestingUnitTakesNoStep :
    (atRest.pushTurn (.micro .dec)).cfg.wf = true ∧ (atRest.pushTurn (.micro .dec)).busy .dec = false ∧
      (atRest.pushTurn (.micro .dec)).agenda = .micro .dec :: [] ∧ atRest.busy atRest.nextUnit = false ∧
      atRest.agenda = [] ∧ (atRest.pushTurn .pair).dec.st ≠ .dRdcnt ∧ (atRest.pushTurn .pair).agenda = .pair :: [] := by
  decide

/-- An `IW` one bit too small for the capacities, and one above 32. -/
theorem witness_BrokenParametersRefusedElseNoWrap :
    (let s := { State.reset with cfg := { small with iw := 2 } }
     ¬(1 ≤ s.cfg.iw ∧ s.cfg.iw ≤ 32 ∧
       max (max s.cfg.encInCap s.cfg.encOutCap) (max s.cfg.decInCap s.cfg.decOutCap) + 2 < 2 ^ s.cfg.iw)) ∧
    (let s := { State.reset with cfg := { small with iw := 33 } }
     ¬(1 ≤ s.cfg.iw ∧ s.cfg.iw ≤ 32 ∧
       max (max s.cfg.encInCap s.cfg.encOutCap) (max s.cfg.decInCap s.cfg.decOutCap) + 2 < 2 ^ s.cfg.iw)) ∧
    (Inv atCompare ∧ atCompare.enc.st.counting = true) :=
  ⟨by decide, by decide, witness_inv_atCompare, by decide⟩

theorem witness_AgendaTurnsRunInOrder :
    (atStart small).cfg.wf = true ∧
      { atStart small with agenda := [.micro .enc, .reset, .pair] }.agenda = [.micro .enc, .reset] ++ [.pair] := by decide

/-! ### The encoder -/

theorem witness_OuterLatchesScannedByte :
    (let s := withEnc { Enc.reset with i := 1023 }
     s.enc.i < s.cfg.encInCap) ∧ Inv atRead ∧ atRead.enc.st = .eOuter := ⟨by decide, witness_inv_atRead, rfl⟩

/-- A match, a changed byte, the end of the input and the cap. -/
theorem witness_CompareCountsTheSegment :
    (atCompare.enc.ilen ≤ atCompare.cfg.encInCap ∧ atCompare.enc.i + atCompare.enc.count.toNat < atCompare.enc.ilen ∧
      atCompare.byteAt .encIbuf (atCompare.enc.i + atCompare.enc.count.toNat) = atCompare.enc.val ∧
      atCompare.enc.count.toNat < 255) ∧
    (∀ c : Byte, c = 2#8 ∨ c = 3#8 ∨ c = 255#8 →
      let s := mid small .eCmp c 5#8 0 .idle 0#8 0#8 0#8 0
      s.enc.ilen ≤ s.cfg.encInCap ∧ ¬(s.enc.i + s.enc.count.toNat < s.enc.ilen ∧
        s.byteAt .encIbuf (s.enc.i + s.enc.count.toNat) = s.enc.val ∧ s.enc.count.toNat < 255)) ∧
    (Inv atCompare ∧ atCompare.enc.st = .eCmp ∧ atCompare.enc.count = 1#8) := by
  refine ⟨by decide, ?_, witness_inv_atCompare, rfl, rfl⟩
  rintro c (rfl | rfl | rfl) <;> decide

/-- The encoder about to advance, the decoder at the end of its inner loop. -/
def atAdvance : State := mid small .eAdv 2#8 5#8 2 .dNext 2#8 7#8 2#8 2

/-- The decoder at its inner test. -/
def atLoop : State := mid small .eRinit 0#8 0#8 0 .dLoop 2#8 7#8 0#8 0

theorem witness_inv_atAdvance : Inv atAdvance := by
  refine ⟨by decide, ?_, ?_⟩ <;> constructor <;> first | decide | exact ⟨by decide, by decide⟩
theorem witness_inv_atLoop : Inv atLoop := by
  refine ⟨by decide, ?_, ?_⟩ <;> constructor <;> first | decide | exact ⟨by decide, by decide⟩

theorem witness_EncoderRegisterStepResults : Inv atAdvance ∧ atAdvance.enc.st = .eAdv := ⟨witness_inv_atAdvance, rfl⟩

theorem witness_DecoderRegisterStepResults :
    (Inv atLoop ∧ atLoop.dec.st = .dLoop) ∧ (Inv atAdvance ∧ atAdvance.dec.st = .dNext) :=
  ⟨⟨witness_inv_atLoop, rfl⟩, witness_inv_atAdvance, rfl⟩

theorem witness_EmitStoresPairOrOverflows :
    atStore.enc.olen + 2 ≤ atStore.cfg.encOutCap ∧ atFull.cfg.encOutCap < atFull.enc.olen + 2 ∧ Inv atStore ∧
      atStore.enc.st = .eEmit := ⟨by decide, by decide, witness_inv_atStore, rfl⟩

/-! ### The decoder -/

theorem witness_InitClearsAndRejectsOddLength :
    atOddStart.dec.ilen % 2 = 1 ∧ (atStart small).dec.ilen % 2 = 0 ∧ State.reset.dec.ilen % 2 = 0 := by decide

theorem witness_PairBytesAreReadInOrder :
    (let s := withDec { Dec.reset with i := 2047 }
     s.dec.i < s.cfg.decInCap) ∧
    (let s := withDec { Dec.reset with i := 2046 }
     s.dec.i + 1 < s.cfg.decInCap) ∧
    Inv atRead ∧ atRead.dec.st = .dRdcnt ∧ Inv atCompare ∧ atCompare.dec.st = .dRdval :=
  ⟨by decide, by decide, witness_inv_atRead, rfl, witness_inv_atCompare, rfl⟩

theorem witness_AppendStoresByteOrOverflows :
    atStore.dec.olen + 1 ≤ atStore.cfg.decOutCap ∧ atFull.cfg.decOutCap < atFull.dec.olen + 1 ∧ Inv atStore ∧
      atStore.dec.st = .dAppend := ⟨by decide, by decide, witness_inv_atStore, rfl⟩

/-- A run that fits exactly, the same with one byte less room, and the bounds of the count. -/
theorem witness_PairWordAppendsItsRun :
    atWidePair.dec.olen + (1#8).toNat ≤ atWidePair.cfg.decOutCap ∧ atWidePair.dec.olen + (0#8).toNat ≤ atWidePair.cfg.decOutCap ∧
      atWidePair.dec.olen ≤ atWidePair.cfg.decOutCap ∧ atWidePair.cfg.decOutCap < atWidePair.dec.olen + (2#8).toNat ∧
      atWidePair.cfg.decOutCap < atWidePair.dec.olen + (255#8).toNat := by decide

theorem witness_PairWordIsItsMicroOperations :
    (Inv atRead ∧ atRead.dec.st = .dRdcnt ∧
      atRead.dec.olen + (atRead.byteAt .decIbuf atRead.dec.i).toNat ≤ atRead.cfg.decOutCap) ∧
    (Inv atWidePair ∧ atWidePair.dec.st = .dRdcnt ∧
      atWidePair.cfg.decOutCap < atWidePair.dec.olen + (atWidePair.byteAt .decIbuf atWidePair.dec.i).toNat) :=
  ⟨⟨witness_inv_atRead, rfl, by decide⟩, witness_inv_atWidePair, rfl, by decide⟩

theorem witness_ReadOutsideBufferFaults :
    (let s := withEnc { Enc.reset with i := 1024, ilen := 1025 }
     s.cfg.encInCap ≤ s.enc.i ∧ s.enc.i + s.enc.count.toNat < s.enc.ilen ∧
       s.cfg.encInCap ≤ s.enc.i + s.enc.count.toNat) ∧
    (let s := withDec { Dec.reset with i := 2048 }
     s.cfg.decInCap ≤ s.dec.i) ∧
    (let s := withDec { Dec.reset with i := 2047 }
     s.cfg.decInCap ≤ s.dec.i + 1) := by decide

/-! ### Host operations -/

/-- For `H_START` and `H_CLEAR`: both units, BUSY and at rest. -/
theorem witness_StartBeginsRunOfRestingUnit :
    (atStart small).busy .enc = true ∧ (atStart small).busy .dec = true ∧ atRest.busy .enc = false ∧
      atRest.busy .dec = false := by decide

theorem witness_ClearAcknowledgesRestingUnit :
    (atStart small).busy .enc = true ∧ (atStart small).busy .dec = true ∧ atRest.busy .enc = false ∧
      atRest.busy .dec = false := by decide

theorem witness_CtrlWordActsByItsTwoLowBits :
    ((0xFFFFFFFC#32).getLsbD 0 = false ∧ (0xFFFFFFFC#32).getLsbD 1 = false) ∧ (0x3#32).getLsbD 0 = true ∧
      ((0x2#32).getLsbD 0 = false ∧ (0x2#32).getLsbD 1 = true) := by decide

/-- The two addresses of `IBUF` around the capacity. -/
theorem witness_InputByteWriteStoresOneByte :
    (atStart small).busy .enc = true ∧ atRest.cfg.inCap .dec ≤ 4 ∧
      (atRest.busy .dec = false ∧ 3 < atRest.cfg.inCap .dec) := by decide

theorem witness_LengthWriteIsTakenOrIgnored :
    (atStart small).busy .dec = true ∧ atRest.cfg.inCap .enc < (5#32).toNat ∧
      (atRest.busy .enc = false ∧ (4#32).toNat ≤ atRest.cfg.inCap .enc ∧ (0#32).toNat ≤ atRest.cfg.inCap .enc) := by decide

theorem witness_RegisterReadReturnsTheMap : 10 ≤ (10#4).toNat ∧ 10 ≤ (15#4).toNat := by decide

theorem witness_StatusReadReturnsAListedValue : Inv atRest ∧ Inv atStore := ⟨witness_inv_atRest, witness_inv_atStore⟩

theorem witness_BufferReadReturnsTheByte :
    3 < atRest.cfg.outCap .enc ∧ 3 < atRest.cfg.inCap .dec ∧ atRest.cfg.outCap .enc ≤ 4 ∧ atRest.cfg.inCap .dec ≤ 4 := by
  decide

theorem witness_RegisterWriteReachesOnlyCtrlAndLength :
    (∀ n : RegNum, n = 1#4 ∨ n = 3#4 ∨ n = 15#4 → n ≠ 0#4 ∧ n ≠ 2#4) ∧ (atStart small).busy .dec = true ∧
      atRest.cfg.inCap .enc ≤ 4 ∧ atRest.cfg.inCap .enc < (5#32).toNat := by decide

/-! ### Invariants and isolation -/

theorem witness_StepKeepsTheInvariant : Inv (atStart small) ∧ ∃ t, step (atStart small) = .next t :=
  ⟨witness_inv_atStart, _, rfl⟩

theorem witness_StepAlwaysAnswers : Inv atRead := witness_inv_atRead

theorem witness_OnlyTableTransitionsHappen :
    (∃ t, takeTurn (.micro .enc) atRead = .next t) ∧ (∃ t, takeTurn .pair atWidePair = .next t) ∧
      (∃ t, takeTurn .reset atRead = .next t) ∧ (∃ t, takeTurn (.ctrl .enc 1#32) atRest = .next t) ∧
      (∃ t, takeTurn (.call (.wrReg .dec 0#4 2#32)) atRest = .next t) ∧ ∃ t, takeTurn (.micro .dec) atRest = .next t :=
  ⟨⟨_, rfl⟩, ⟨_, rfl⟩, ⟨_, rfl⟩, ⟨_, rfl⟩, ⟨_, rfl⟩, _, rfl⟩

/-- A fourth byte that the encoder's length 3 leaves out. -/
theorem witness_UnitReadsStayBelowLength :
    (Inv atRead ∧ (∀ k, k < atRead.enc.ilen →
        Memory.find [(0, 5#8), (1, 5#8), (2, 6#8), (3, 1#8)] k = Memory.find atRead.enc.ibuf k) ∧
      ∃ t, takeTurn (.micro .enc) atRead = .next t) ∧
    (Inv atRead ∧ (∀ k, k < atRead.dec.ilen →
        Memory.find [(0, 2#8), (1, 7#8), (2, 1#8), (3, 9#8), (9, 0#8)] k = Memory.find atRead.dec.ibuf k) ∧
      ∃ t, takeTurn (.micro .dec) atRead = .next t) :=
  ⟨⟨witness_inv_atRead, by decide, _, rfl⟩, witness_inv_atRead, by decide, _, rfl⟩

theorem witness_WrittenInputHidesFreeBytes :
    Inv atRead ∧ atRead.inputWritten .enc ∧ atRead.inputWritten .dec ∧
      (∃ t, takeTurn (.micro .enc) atRead = .next t) ∧ ∃ t, takeTurn (.micro .dec) atRead = .next t := by
  refine ⟨witness_inv_atRead, ?_, ?_, ⟨_, rfl⟩, _, rfl⟩ <;> unfold State.inputWritten <;> decide

/-- The units' own turns, and a write and a read of the host on each. -/
theorem witness_UnitsShareNoState :
    (∃ t, takeTurn (.micro .enc) atRead = .next t) ∧ (∃ t, takeTurn (.micro .dec) atRead = .next t) ∧
      (∃ t, takeTurn .pair atRead = .next t ∧ Turn.pair.unit = some .dec) ∧
      (∃ t, takeTurn (.ctrl .enc 1#32) atRest = .next t ∧ (Turn.ctrl .enc 1#32).unit = some .enc) ∧
      (∃ t, takeTurn (.call (.wrIlen .dec 4#32)) atRest = .next t ∧ (Turn.call (.wrIlen .dec 4#32)).unit = some .dec) ∧
      ∃ t, takeTurn (.call (.rdObuf .enc 4)) atRest = .next t ∧ (Turn.call (.rdObuf .enc 4)).unit = some .enc :=
  ⟨⟨_, rfl⟩, ⟨_, rfl⟩, ⟨_, rfl, rfl⟩, ⟨_, rfl, rfl⟩, ⟨_, rfl, rfl⟩, _, rfl, rfl⟩

theorem witness_BusyUnitIgnoresTheHost :
    (atRead.busy .enc = true ∧ ∃ t, takeTurn (.ctrl .enc 1#32) atRead = .next t) ∧
      (atRead.busy .dec = true ∧ ∃ t, takeTurn (.call (.wrIlen .dec 0#32)) atRead = .next t) :=
  ⟨⟨rfl, _, rfl⟩, rfl, _, rfl⟩

theorem witness_HostReadsHaveNoSideEffect :
    (∃ t, exec (.hRdStatus .enc) atRest = .next t) ∧ (∃ t, exec (.hRdReg .dec 15#4) atRest = .next t) ∧
      (1 < atRest.cfg.outCap .dec ∧ ∃ t, exec (.hRdObuf .dec 1) atRest = .next t) ∧
      (3 < atRest.cfg.inCap .dec ∧ ∃ t, exec (.hRdIbuf .dec 3) atRest = .next t) :=
  ⟨⟨_, rfl⟩, ⟨_, rfl⟩, ⟨by decide, _, rfl⟩, by decide, _, rfl⟩

/-! ### The two functions -/

theorem witness_LongRunSplitsIntoFullSegments : 1 ≤ 1 ∧ 1 ≤ 255 ∧ 1 ≤ 256 := by decide

theorem witness_SeparateRunsAreNeverMerged :
    ([] : List Byte).head? ≠ some 5#8 ∧ [6#8, 5#8].head? ≠ some 5#8 ∧ (5#8 : Byte) ≠ 6#8 := by decide

theorem witness_DecodeIsTotalAndAdditiveOnEvenLengths :
    ([] : List Byte).length % 2 = 0 ∧ [3#8].length % 2 = 1 ∧ Reference.decode [0#8, 5#8] = .ok [] ∧
      Reference.decode [2#8, 9#8] = .ok [9#8, 9#8] := ⟨rfl, rfl, rfl, rfl⟩

/-- A canonical buffer and one that is not. -/
theorem witness_EncodeOfDecodeFixesExactlyTheCanonical :
    Reference.decode [2#8, 7#8] = .ok [7#8, 7#8] ∧ Reference.decode [1#8, 7#8, 1#8, 7#8] = .ok [7#8, 7#8] :=
  ⟨rfl, rfl⟩

/-! ### Unit runs -/

theorem witness_EncoderRunComputesEncode :
    (Inv (atStart small) ∧ (atStart small).enc.st = .eLoad ∧
      (Reference.encode ((atStart small).input .enc)).length ≤ (atStart small).cfg.encOutCap) ∧
    (Inv (atStart tight) ∧ (atStart tight).enc.st = .eLoad ∧
      (atStart tight).cfg.encOutCap < (Reference.encode ((atStart tight).input .enc)).length) ∧
    Reference.encode ((atStart small).input .enc) = [2#8, 5#8] ++ [1#8, 6#8] :=
  ⟨⟨witness_inv_atStart, rfl, by decide⟩, ⟨witness_inv_atStart_tight, rfl, by decide⟩, by decide⟩

/-- The empty input. -/
theorem witness_EncoderRunComputesEncode_empty :
    let s := { atStart small with enc := { (atStart small).enc with ilen := 0 } }
    Inv s ∧ s.enc.st = .eLoad ∧ s.input .enc = [] ∧ (Reference.encode (s.input .enc)).length ≤ s.cfg.encOutCap := by
  refine ⟨⟨by decide, ?_, ?_⟩, by decide⟩ <;> constructor <;> first | decide | exact ⟨by decide, by decide⟩

theorem witness_DecoderRunComputesDecode :
    (Inv atOddStart ∧ atOddStart.dec.st = .dInit ∧ atOddStart.dec.ilen % 2 = 1) ∧
    (Inv (atStart small) ∧ (atStart small).dec.st = .dInit ∧
      Reference.decode ((atStart small).input .dec) = .ok [7#8, 7#8, 9#8] ∧
      [7#8, 7#8, 9#8].length ≤ (atStart small).cfg.decOutCap ∧
      (atStart small).input .dec = [2#8, 7#8] ++ [1#8, 9#8]) ∧
    (Inv (atStart tight) ∧ (atStart tight).dec.st = .dInit ∧
      Reference.decode ((atStart tight).input .dec) = .ok [7#8, 7#8, 9#8] ∧
      (atStart tight).cfg.decOutCap < [7#8, 7#8, 9#8].length) :=
  ⟨⟨witness_inv_atOddStart, rfl, rfl⟩, ⟨witness_inv_atStart, rfl, rfl, by decide, by decide⟩,
    witness_inv_atStart_tight, rfl, rfl, by decide⟩

/-- The empty input. -/
theorem witness_DecoderRunComputesDecode_empty :
    let s := { atStart small with dec := { (atStart small).dec with ilen := 0 } }
    Inv s ∧ s.dec.st = .dInit ∧ s.input .dec = [] ∧ Reference.decode (s.input .dec) = .ok [] := by
  refine ⟨⟨by decide, ?_, ?_⟩, by decide, by decide, rfl⟩ <;> constructor <;>
    first | decide | exact ⟨by decide, by decide⟩

theorem witness_EmptyInputGivesEmptyResult :
    (let s := withEnc { Enc.reset with st := .eLoad }
     s.enc.st = .eLoad ∧ s.enc.ilen = 0) ∧
    (let s := withDec { Dec.reset with st := .dInit }
     s.dec.st = .dInit ∧ s.dec.ilen = 0) := by decide

theorem witness_EveryUnitRunEnds :
    Inv (atStart tight) ∧ (atStart tight).enc.st = .eLoad ∧ (atStart tight).dec.st = .dInit :=
  ⟨witness_inv_atStart_tight, rfl, rfl⟩

/-- The configuration the size bounds ask for: output twice the encoder's input, 255 times the decoder's pairs. -/
theorem witness_SizeBoundsKeepSizedBuffersFaultFree :
    let s := { atStart small with cfg := { encInCap := 4, encOutCap := 8, decInCap := 4, decOutCap := 510, iw := 10 } }
    Inv s ∧ s.enc.st = .eLoad ∧ 2 * s.cfg.encInCap ≤ s.cfg.encOutCap ∧ s.dec.st = .dInit ∧ s.dec.ilen % 2 = 0 ∧
      255 * (s.cfg.decInCap / 2) ≤ s.cfg.decOutCap ∧ Reference.decode (s.input .dec) = .ok [7#8, 7#8, 9#8] := by
  refine ⟨⟨by decide, ?_, ?_⟩, by decide, by decide, by decide, by decide, by decide, rfl⟩ <;> constructor <;>
    first | decide | exact ⟨by decide, by decide⟩

/-- Two units that agree on input and capacity and on nothing else. -/
def atStart' : State :=
  { atStart { small with encInCap := 3, iw := 9 } with
    enc := { (atStart small).enc with i := 3, count := 9#8, val := 1#8, olen := 0, obuf := [(3, 3#8)] }
    dec := { (atStart small).dec with i := 4, count := 9#8, value := 1#8, j := 8#8, olen := 0, obuf := [] }
    resets := 7 }

theorem witness_UnitRunIsPureFunctionOfItsInput :
    (Inv (atStart small) ∧ Inv atStart' ∧ (atStart small).enc.st = .eLoad ∧ atStart'.enc.st = .eLoad ∧
      (atStart small).input .enc = atStart'.input .enc ∧ (atStart small).enc.ilen = atStart'.enc.ilen ∧
      (atStart small).cfg.encOutCap = atStart'.cfg.encOutCap ∧ 2 ≤ 2) ∧
    ((atStart small).dec.st = .dInit ∧ atStart'.dec.st = .dInit ∧ (atStart small).input .dec = atStart'.input .dec ∧
      (atStart small).dec.ilen = atStart'.dec.ilen ∧ (atStart small).cfg.decOutCap = atStart'.cfg.decOutCap ∧ 1 ≤ 1) := by
  refine ⟨⟨witness_inv_atStart, ⟨by decide, ?_, ?_⟩, by decide⟩, by decide⟩ <;> constructor <;>
    first | decide | exact ⟨by decide, by decide⟩

/-- Turns of all agents around the encoder's 14 steps. -/
def mixedEnc : List Turn :=
  [.ctrl .enc 2#32, .micro .dec, .pair, .call (.wrIbuf .enc 0 9#8), .ctrl .dec 1#32] ++ List.replicate 14 (.micro .enc)

theorem witness_EncoderRunIgnoresInterleaving :
    let s := { atStart small with agenda := mixedEnc ++ [.reset] }
    Inv s ∧ s.enc.st = .eLoad ∧ s.agenda = mixedEnc ++ [.reset] ∧ Turn.reset ∉ mixedEnc ∧
      mixedEnc.getLast? = some (.micro .enc) ∧ (Reference.encode (s.input .enc)).length ≤ s.cfg.encOutCap ∧
      mixedEnc.count (.micro .enc) = 3 + 4 * ((Reference.encode (s.input .enc)).length / 2) + s.enc.ilen :=
  ⟨witness_inv_agenda witness_inv_atStart _, rfl, rfl, by decide, by decide, by decide, by decide⟩

/-- Turns of all agents around the decoder's 16 micro-operations. -/
def mixedDec : List Turn :=
  [.ctrl .dec 2#32, .micro .enc, .call (.wrIlen .dec 0#32), .ctrl .enc 1#32] ++ List.replicate 16 (.micro .dec)

theorem witness_DecoderRunIgnoresInterleaving :
    let s := { atStart small with agenda := mixedDec ++ [.reset] }
    Inv s ∧ s.dec.st = .dInit ∧ s.agenda = mixedDec ++ [.reset] ∧ Turn.reset ∉ mixedDec ∧ Turn.pair ∉ mixedDec ∧
      mixedDec.getLast? = some (.micro .dec) ∧ Reference.decode (s.input .dec) = .ok [7#8, 7#8, 9#8] ∧
      [7#8, 7#8, 9#8].length ≤ s.cfg.decOutCap ∧
      mixedDec.count (.micro .dec) = 2 + 4 * (s.dec.ilen / 2) + 2 * [7#8, 7#8, 9#8].length :=
  ⟨witness_inv_agenda witness_inv_atStart _, rfl, rfl, by decide, by decide, by decide, rfl, by decide, by decide⟩

theorem witness_BusyUnitsComeToRest :
    Inv (atStart small) ∧ (atStart small).agenda = [] ∧ (atStart small).enc.st = .eLoad ∧
      (atStart small).dec.st = .dInit := ⟨witness_inv_atStart, rfl, rfl, rfl⟩

/-- A schedule long enough for a call on `n` bytes. -/
def schedule (cfg : Params) (u : UnitId) (n : Nat) : List Script.Mover :=
  List.replicate (n + 2) .host ++ List.replicate (2 * Script.stepBound u n) .machine ++
    List.replicate (2 + cfg.outCap u) .host

theorem witness_enough (cfg : Params) (u : UnitId) (n : Nat) : Script.enough cfg u n (schedule cfg u n) :=
  ⟨_, _, _, rfl, by simp, by simp, by simp⟩

/-- Both units, an order of the writes that is not the ascending one, no byte at all, and an odd length. -/
theorem witness_HostScriptsReturnTheFunctions :
    (Inv atRest ∧ atRest.agenda = [] ∧ atRest.busy .enc = false ∧ atRest.busy .dec = false) ∧
    ([5#8, 5#8, 6#8].length ≤ atRest.cfg.inCap .enc ∧
      [.call (.wrIlen .enc 3#32), .call (.wrIbuf .enc 2 6#8), .call (.wrIbuf .enc 0 5#8),
        .call (.wrIbuf .enc 1 5#8)].Perm (Script.load .enc [5#8, 5#8, 6#8]) ∧
      Script.enough atRest.cfg .enc [5#8, 5#8, 6#8].length (schedule atRest.cfg .enc 3)) ∧
    ([2#8, 7#8, 1#8, 9#8].length ≤ atRest.cfg.inCap .dec ∧
      Script.enough atRest.cfg .dec [2#8, 7#8, 1#8, 9#8].length (schedule atRest.cfg .dec 4)) ∧
    (([] : List Byte).length ≤ atRest.cfg.inCap .enc ∧ [.call (.wrIlen .enc 0#32)].Perm (Script.load .enc [])) ∧
    ([3#8, 97#8, 2#8].length ≤ atRest.cfg.inCap .dec ∧
      (∀ turn ∈ [.pair, .micro .enc, .micro .dec], turn = .micro .enc ∨ turn = .micro .dec ∨ turn = Turn.pair)) :=
  ⟨⟨witness_inv_atRest, by decide⟩, ⟨by decide, by decide, witness_enough ..⟩, ⟨by decide, witness_enough ..⟩,
    by decide, by decide⟩

theorem witness_HardwareRoundTripReturnsTheBuffer :
    let bytes : List Byte := [5#8, 5#8, 6#8]
    Inv atRest ∧ atRest.agenda = [] ∧ atRest.busy .enc = false ∧ atRest.busy .dec = false ∧
      bytes.length ≤ atRest.cfg.encInCap ∧ (Reference.encode bytes).length ≤ atRest.cfg.encOutCap ∧
      (Reference.encode bytes).length ≤ atRest.cfg.decInCap ∧ bytes.length ≤ atRest.cfg.decOutCap ∧
      Script.enough atRest.cfg .enc bytes.length (schedule atRest.cfg .enc bytes.length) ∧
      Script.enough atRest.cfg .dec (Reference.encode bytes).length
        (schedule atRest.cfg .dec (Reference.encode bytes).length) :=
  ⟨witness_inv_atRest, rfl, rfl, rfl, by decide, by decide, by decide, by decide, witness_enough .., witness_enough ..⟩

end Sys2Proof.Machine.Tests
end

section
/-! ## 00_scope R5 to R7: the legal configuration, and the isolation of the units -/

namespace Sys2Proof.Machine

/-! ### The index sums of a legal configuration (00_scope R6, R7) -/

theorem Inv.index_le {s : State} (h : Inv s) (u : UnitId) : s.index u ≤ s.cfg.inCap u :=
  match u with
  | .enc => h.enc.index_le
  | .dec => h.dec.index_le

theorem Inv.olen_le {s : State} (h : Inv s) (u : UnitId) : s.olen u ≤ s.cfg.outCap u :=
  match u with
  | .enc => h.enc.olen_le
  | .dec => h.dec.olen_le

theorem Inv.ilen_le {s : State} (h : Inv s) (u : UnitId) : s.ilen u ≤ s.cfg.inCap u :=
  match u with
  | .enc => h.enc.ilen_le
  | .dec => h.dec.ilen_le

/-- The end of the encoder's current segment is an index its input buffer can have (10_state R47 (d)). -/
theorem EncInv.segment_end_le {s : State} (h : EncInv s) (hc : s.enc.st.counting = true) :
    s.enc.i + s.enc.count.toNat ≤ s.cfg.encInCap := by
  obtain ⟨_, hend, _⟩ := h.counted hc
  exact hend.trans h.ilen_le

/-- Settles O10: the check of the step is the arithmetic of R6 and R7; under the invariant the registers are bounded by the
capacities, and those leave room for 2 more. -/
theorem brokenParametersRefusedElseNoWrap : Obligations.BrokenParametersRefusedElseNoWrap := by
  unfold Obligations.BrokenParametersRefusedElseNoWrap
  constructor
  · intro s hbroken
    exact step_refused (Bool.eq_false_iff.2 fun hwf => hbroken (s.cfg.wf_iff.1 hwf))
  · intro s hinv
    refine ⟨fun u => ?_, hinv.enc.segment_end_le⟩
    obtain ⟨hin, hout, _⟩ := Params.wf_caps hinv.cfg u
    exact ⟨Nat.add_le_add_right (hinv.index_le u) 2, Nat.add_le_add_right (hinv.olen_le u) 2, hinv.ilen_le u, hin, hout⟩

/-! ### A turn on one unit commutes with replacing the other (00_scope R5)

Everything a turn on unit `u` does is the same with another unit in the place of the one `u` is not. That the turn also
leaves the other unit alone is the case in which the replacement is the unit already there. -/

/-- The state with the unit other than `u` replaced: by `d` where that is the decoder, by `e` where it is the encoder. -/
def State.withOther (u : UnitId) (e : Enc) (d : Dec) (s : State) : State :=
  match u with
  | .enc => s.setDec d
  | .dec => s.setEnc e

section
variable (s : State) (u : UnitId) (e : Enc) (d : Dec)

@[simp] theorem withOther_cfg : (s.withOther u e d).cfg = s.cfg := by cases u <;> rfl
@[simp] theorem withOther_draws : (s.withOther u e d).draws = s.draws := by cases u <;> rfl
@[simp] theorem withOther_busy : (s.withOther u e d).busy u = s.busy u := by cases u <;> rfl
@[simp] theorem withOther_status : (s.withOther u e d).status u = s.status u := by cases u <;> rfl

@[simp] theorem withOther_readReg (n : RegNum) : (s.withOther u e d).readReg u n = s.readReg u n := by
  cases u <;> rfl

@[simp] theorem withOther_byteAt_input (k : Nat) :
    (s.withOther u e d).byteAt (.input u) k = s.byteAt (.input u) k := by cases u <;> rfl

@[simp] theorem withOther_byteAt_output (k : Nat) :
    (s.withOther u e d).byteAt (.output u) k = s.byteAt (.output u) k := by cases u <;> rfl

@[simp] theorem withOther_answer (r : Reply) :
    (s.withOther u e d).answer r = (s.answer r).withOther u e d := by cases u <;> rfl

/-! #### The host's operations -/

@[simp] theorem withOther_start : (s.withOther u e d).start u = (s.start u).withOther u e d := by
  unfold State.start
  rw [withOther_busy, apply_ite (State.withOther u e d)]
  cases u <;> rfl

@[simp] theorem withOther_clear : (s.withOther u e d).clear u = (s.clear u).withOther u e d := by
  unfold State.clear
  rw [withOther_busy, apply_ite (State.withOther u e d)]
  cases u <;> rfl

@[simp] theorem withOther_ctrlWrite (w : Word32) :
    (s.withOther u e d).ctrlWrite u w = (s.ctrlWrite u w).withOther u e d := by
  simp only [State.ctrlWrite, withOther_start, withOther_clear, apply_ite (State.withOther u e d)]

@[simp] theorem withOther_writeIlen (n : Word32) :
    (s.withOther u e d).writeIlen u n = (s.writeIlen u n).withOther u e d := by
  unfold State.writeIlen
  rw [withOther_busy, withOther_cfg, apply_ite (State.withOther u e d), apply_ite (State.withOther u e d)]
  cases u <;> rfl

@[simp] theorem withOther_writeIbuf (k : Nat) (b : Byte) :
    (s.withOther u e d).writeIbuf u k b = (s.writeIbuf u k b).withOther u e d := by
  unfold State.writeIbuf
  rw [withOther_busy, withOther_cfg, apply_ite (State.withOther u e d), apply_ite (State.withOther u e d)]
  cases u <;> rfl

@[simp] theorem withOther_writeReg (n : RegNum) (w : Word32) :
    (s.withOther u e d).writeReg u n w = (s.writeReg u n w).withOther u e d := by
  unfold State.writeReg
  split
  · exact withOther_ctrlWrite ..
  · exact withOther_writeIlen ..
  · rfl

/-- A host read of a buffer whose bytes the replacement does not touch. -/
theorem withOther_hostRead {b : BufferId} (hb : ∀ k, (s.withOther u e d).byteAt b k = s.byteAt b k) (k : Nat) :
    (s.withOther u e d).hostRead b k = (s.hostRead b k).withOther u e d := by
  simp only [State.hostRead, hb, withOther_cfg, withOther_draws, withOther_answer, apply_ite (State.withOther u e d)]
  cases u <;> rfl

/-- Whatever the host does by name on a unit. -/
theorem takeTurn_call_withOther (c : HostCall) (hc : callTarget c = u) :
    takeTurn (.call c) (s.withOther u e d) = mapNext (·.withOther u e d) (takeTurn (.call c) s) := by
  subst hc
  cases c with
  | wrIbuf u k b => simp [callTarget]
  | wrIlen u n => simp [callTarget]
  | rdStatus u => simp [callTarget]
  | rdReg u n => simp [callTarget]
  | rdObuf u k => simp [callTarget, withOther_hostRead _ _ _ _ (withOther_byteAt_output s u e d)]
  | rdIbuf u k => simp [callTarget, withOther_hostRead _ _ _ _ (withOther_byteAt_input s u e d)]
  | wrReg u n w => simp [callTarget]

/-! #### The units' own steps -/

theorem withOther_withInputByte {k : Nat} {go go' : Byte → Answer}
    (h : ∀ b, go b = mapNext (·.withOther u e d) (go' b)) :
    (s.withOther u e d).withInputByte u k go = mapNext (·.withOther u e d) (s.withInputByte u k go') := by
  simp only [State.withInputByte, withOther_cfg, withOther_byteAt_input, h, apply_ite (mapNext _)]
  rfl

theorem takeTurn_micro_of_resting_withOther (h : s.busy u = false) :
    takeTurn (.micro u) (s.withOther u e d) = mapNext (·.withOther u e d) (takeTurn (.micro u) s) := by
  rw [micro_resting h, micro_resting (by rwa [withOther_busy]), mapNext_next]

theorem execECmp_setDec : execECmp (s.setDec d) = mapNext (·.setDec d) (execECmp s) := by
  simp only [execECmp, setDec_enc, apply_ite (mapNext _)]
  congr 1
  refine withOther_withInputByte s .enc s.enc d fun b => ?_
  rw [apply_ite (mapNext _)]
  rfl

theorem execEEmit_setDec : execEEmit (s.setDec d) = mapNext (·.setDec d) (execEEmit s) := by
  simp only [execEEmit, setDec_enc, setDec_cfg, apply_ite (mapNext _)]
  rfl

/-- The encoder's micro-operations with another decoder beside it. -/
theorem takeTurn_micro_enc_setDec :
    takeTurn (.micro .enc) (s.setDec d) = mapNext (·.setDec d) (takeTurn (.micro .enc) s) := by
  have rest (hb : s.busy .enc = false) := takeTurn_micro_of_resting_withOther s .enc s.enc d hb
  cases h : s.enc.st with
  | idle => exact rest (by simp [State.busy, h, EncSt.active])
  | eLoad => rw [micro_eLoad h, micro_eLoad (s := s.setDec d) h]; rfl
  | eRinit => rw [micro_eRinit h, micro_eRinit (s := s.setDec d) h]; rfl
  | eOuter =>
    rw [micro_eOuter h, micro_eOuter (s := s.setDec d) h]
    exact withOther_withInputByte s .enc s.enc d fun b => rfl
  | eCinit => rw [micro_eCinit h, micro_eCinit (s := s.setDec d) h]; rfl
  | eCmp => rw [micro_eCmp h, micro_eCmp (s := s.setDec d) h, execECmp_setDec]
  | eEmit => rw [micro_eEmit h, micro_eEmit (s := s.setDec d) h, execEEmit_setDec]
  | eAdv => rw [micro_eAdv h, micro_eAdv (s := s.setDec d) h]; rfl
  | eRet => rw [micro_eRet h, micro_eRet (s := s.setDec d) h]; rfl
  | done => exact rest (by simp [State.busy, h, EncSt.active])
  | fault => exact rest (by simp [State.busy, h, EncSt.active])

theorem execDInit_setEnc : execDInit (s.setEnc e) = mapNext (·.setEnc e) (execDInit s) := by
  simp only [execDInit, setEnc_dec, apply_ite (mapNext _)]
  rfl

theorem execDAppend_setEnc : execDAppend (s.setEnc e) = mapNext (·.setEnc e) (execDAppend s) := by
  simp only [execDAppend, setEnc_dec, setEnc_cfg, apply_ite (mapNext _)]
  rfl

/-- The decoder's micro-operations with another encoder beside it. -/
theorem takeTurn_micro_dec_setEnc :
    takeTurn (.micro .dec) (s.setEnc e) = mapNext (·.setEnc e) (takeTurn (.micro .dec) s) := by
  have rest (hb : s.busy .dec = false) := takeTurn_micro_of_resting_withOther s .dec e s.dec hb
  cases h : s.dec.st with
  | idle => exact rest (by simp [State.busy, h, DecSt.active])
  | dInit => rw [micro_dInit h, micro_dInit (s := s.setEnc e) h, execDInit_setEnc]
  | dRdcnt =>
    rw [micro_dRdcnt h, micro_dRdcnt (s := s.setEnc e) h]
    exact withOther_withInputByte s .dec e s.dec fun b => rfl
  | dRdval =>
    rw [micro_dRdval h, micro_dRdval (s := s.setEnc e) h]
    exact withOther_withInputByte s .dec e s.dec fun b => rfl
  | dLoop => rw [micro_dLoop h, micro_dLoop (s := s.setEnc e) h]; rfl
  | dAppend => rw [micro_dAppend h, micro_dAppend (s := s.setEnc e) h, execDAppend_setEnc]
  | dNext => rw [micro_dNext h, micro_dNext (s := s.setEnc e) h]; rfl
  | dRet => rw [micro_dRet h, micro_dRet (s := s.setEnc e) h]; rfl
  | done => exact rest (by simp [State.busy, h, DecSt.active])
  | fault => exact rest (by simp [State.busy, h, DecSt.active])

/-- The pair word's two operations (41_decoder R164, R165) with another encoder beside the decoder. -/
theorem runFetched_pair16_setEnc (count value : Byte) :
    runFetched (.pair16 count value) (s.setEnc e) = mapNext (·.setEnc e) (runFetched (.pair16 count value) s) := by
  simp only [runFetched, decode, decodePair16]
  split_ifs
  · rfl
  · simp only [exec, execPair, setEnc_dec, setEnc_cfg, apply_ite (mapNext _)]
    rfl

theorem takePair_setEnc : takePair (s.setEnc e) = mapNext (·.setEnc e) (takePair s) := by
  simp only [takePair, setEnc_dec, apply_ite (mapNext _)]
  congr 1
  exact withOther_withInputByte s .dec e s.dec fun count =>
    withOther_withInputByte s .dec e s.dec fun value => runFetched_pair16_setEnc s e count value

/-! #### Every turn -/

/-- A turn on a unit does the same, replies included, whatever the other unit is. -/
theorem takeTurn_withOther {turn : Turn} (hu : turn.unit = some u) :
    takeTurn turn (s.withOther u e d) = mapNext (·.withOther u e d) (takeTurn turn s) := by
  cases turn with
  | reset => cases hu
  | micro v =>
    obtain rfl := Option.some.inj hu
    cases v with
    | enc => exact takeTurn_micro_enc_setDec s d
    | dec => exact takeTurn_micro_dec_setEnc s e
  | pair => cases hu; exact takePair_setEnc s e
  | ctrl v w => cases hu; simp
  | call c => exact takeTurn_call_withOther s u e d c (Option.some.inj hu)

end

/-- A turn on a unit that answers a state answers it, with the same replacement, where the other unit is replaced. -/
theorem takeTurn_withOther_of_next {s t : State} {turn : Turn} {u : UnitId} (hu : turn.unit = some u)
    (h : takeTurn turn s = .next t) (e : Enc) (d : Dec) :
    takeTurn turn (s.withOther u e d) = .next (t.withOther u e d) := by
  rw [takeTurn_withOther s u e d hu, h, mapNext_next]

/-- A turn on a unit leaves the other unit as it was: replacing that unit by itself changes nothing. -/
theorem withOther_self_of_next {s t : State} {turn : Turn} {u : UnitId} (hu : turn.unit = some u)
    (h : takeTurn turn s = .next t) : t.withOther u s.enc s.dec = t := by
  have hself : s.withOther u s.enc s.dec = s := by cases u <;> rfl
  have hnext := takeTurn_withOther_of_next hu h s.enc s.dec
  rw [hself, h, Host.Outcome.next.injEq] at hnext
  exact hnext.symm

/-- Settles O40: a turn on a unit commutes with replacing the other unit, and so leaves it alone. -/
theorem unitsShareNoState : Obligations.UnitsShareNoState := by
  unfold Obligations.UnitsShareNoState
  intro s t turn h
  refine ⟨fun hu => ⟨?_, fun d => takeTurn_withOther_of_next hu h s.enc d⟩,
    fun hu => ⟨?_, fun e => takeTurn_withOther_of_next hu h e s.dec⟩⟩
  · exact (congrArg State.dec (withOther_self_of_next hu h)).symm
  · exact (congrArg State.enc (withOther_self_of_next hu h)).symm

end Sys2Proof.Machine
end

section
/-! ## 10_state R47: the invariant is kept by every step -/

namespace Sys2Proof.Machine

/-- The answer is a next state, and the invariant holds there. -/
def AnswersInv (a : Answer) : Prop := ∃ t, a = .next t ∧ Inv t

theorem AnswersInv.next {t : State} (h : Inv t) : AnswersInv (.next t) := ⟨t, rfl, h⟩

/-- A unit's read inside its input buffer, and what the step does with the byte there. -/
theorem AnswersInv.withInputByte {s : State} {u : UnitId} {k : Nat} {go : Byte → Answer} (hk : k < s.cfg.inCap u)
    (hgo : AnswersInv (go (s.byteAt (.input u) k))) : AnswersInv (s.withInputByte u k go) := by
  rwa [withInputByte_inside hk]

/-! ### What the invariant says in every state of a unit

R47 (a) to (c) bound the registers and buffers whatever the unit is doing; the other clauses each speak of some active
states. A unit that rests, or has just been started, is in none of those, so its bounds are its whole invariant. -/

/-- The clauses of the encoder's invariant that hold in every one of its states. -/
structure EncBounds (cfg : Params) (e : Enc) : Prop where
  ibuf : BufferInv e.ibuf cfg.encInCap
  obuf : BufferInv e.obuf cfg.encOutCap
  ilen_le : e.ilen ≤ cfg.encInCap
  olen_le : e.olen ≤ cfg.encOutCap
  index_le : e.i ≤ cfg.encInCap
  err_code : e.err = if e.st = .fault then .outputOverflow else .none
  olen_even : e.olen % 2 = 0

/-- The clauses of the decoder's invariant that hold in every one of its states. -/
structure DecBounds (cfg : Params) (d : Dec) : Prop where
  ibuf : BufferInv d.ibuf cfg.decInCap
  obuf : BufferInv d.obuf cfg.decOutCap
  ilen_le : d.ilen ≤ cfg.decInCap
  olen_le : d.olen ≤ cfg.decOutCap
  index_le : d.i ≤ cfg.decInCap
  err_code : d.st = .fault ↔ d.err ≠ .none
  index_even : d.i % 2 = 0

theorem EncInv.bounds {s : State} (h : EncInv s) : EncBounds s.cfg s.enc := { h with }

theorem DecInv.bounds {s : State} (h : DecInv s) : DecBounds s.cfg s.dec := { h with }

/-- Where the encoder rests or is about to begin, its bounds are its invariant. -/
theorem EncInv.of_bounds {s : State} (h : EncBounds s.cfg s.enc)
    (hst : s.enc.st.active = false ∨ s.enc.st = .eLoad) : EncInv s := by
  obtain ⟨hseg, hlatch, hcount, hinit, hret⟩ :=
    hst.elim EncSt.of_resting fun h => by rw [h]; decide
  exact { h with
    load_start := fun hst => absurd hst hinit
    segment := by simp [hseg]
    latch := by simp [hlatch]
    counted := by simp [hcount]
    returned := fun hst => absurd hst hret }

/-- Where the decoder rests or is about to begin, its bounds are its invariant. -/
theorem DecInv.of_bounds {s : State} (h : DecBounds s.cfg s.dec)
    (hst : s.dec.st.active = false ∨ s.dec.st = .dInit) : DecInv s := by
  obtain ⟨hpair, hloop, hrdval, happend, hnext, hret⟩ :=
    hst.elim DecSt.of_resting fun h => by rw [h]; decide
  exact { h with
    pair := by simp [hpair]
    count_read := fun hst => absurd hst hrdval
    loop := by simp [hloop]
    append := fun hst => absurd hst happend
    next := fun hst => absurd hst hnext
    returned := fun hst => absurd hst hret }

/-- No fault is recorded while the encoder is in another state than `FAULT` (10_state R47 (c)). -/
theorem EncInv.err_none {s : State} (h : EncInv s) (hst : s.enc.st ≠ .fault) : s.enc.err = .none := by
  rw [h.err_code, if_neg hst]

/-- No fault is recorded while the decoder is in another state than `FAULT` (10_state R47 (c)). -/
theorem DecInv.err_none {s : State} (h : DecInv s) (hst : s.dec.st ≠ .fault) : s.dec.err = .none :=
  not_not.1 fun herr => hst (h.err_code.2 herr)

/-- The fault code of an encoder in another state than `FAULT`, as the invariant writes it. -/
theorem EncBounds.err_code_of_running {st : EncSt} {err : ErrCode} (hst : st ≠ .fault) (herr : err = .none) :
    err = if st = .fault then .outputOverflow else .none := by rw [if_neg hst, herr]

/-- The fault code of a decoder in another state than `FAULT`, as the invariant writes it. -/
theorem DecBounds.err_code_of_running {st : DecSt} {err : ErrCode} (hst : st ≠ .fault) (herr : err = .none) :
    st = .fault ↔ err ≠ .none := iff_of_false hst (not_not.2 herr)

/-- Clearing the fault code on the way to another state than `FAULT` (42_host_operations R183, R184). -/
theorem EncBounds.clearErr {cfg : Params} {e : Enc} (h : EncBounds cfg e) {st : EncSt} (hst : st ≠ .fault) :
    EncBounds cfg { e with err := .none, st := st } :=
  { h with err_code := EncBounds.err_code_of_running hst rfl }

/-- Clearing the fault code on the way to another state than `FAULT` (42_host_operations R183, R184). -/
theorem DecBounds.clearErr {cfg : Params} {d : Dec} (h : DecBounds cfg d) {st : DecSt} (hst : st ≠ .fault) :
    DecBounds cfg { d with err := .none, st := st } :=
  { h with err_code := DecBounds.err_code_of_running hst rfl }

theorem UnitFault.errCode_ne_none (f : UnitFault) : f.errCode ≠ .none := by cases f <;> decide

/-- Fault entry keeps the decoder's bounds: the code it records is not `NONE` (60_exceptions R245). -/
theorem DecBounds.raise {cfg : Params} {d : Dec} (h : DecBounds cfg d) (f : UnitFault) : DecBounds cfg (d.raise f) :=
  { h with err_code := iff_of_true rfl f.errCode_ne_none }

/-- A run of appends that fits keeps the decoder's bounds, whatever becomes of `DEC.j`. -/
theorem DecBounds.appendRun {cfg : Params} {d : Dec} (h : DecBounds cfg d) {n : Nat} (hn : d.olen + n ≤ cfg.decOutCap)
    (v j : Byte) : DecBounds cfg { d.appendRun n v with j := j } :=
  { h with
    obuf := h.obuf.writeRun n hn v
    olen_le := hn }

theorem EncBounds.reset (cfg : Params) : EncBounds cfg Enc.reset where
  ibuf := .empty _
  obuf := .empty _
  ilen_le := Nat.zero_le _
  olen_le := Nat.zero_le _
  index_le := Nat.zero_le _
  err_code := rfl
  olen_even := rfl

theorem DecBounds.reset (cfg : Params) : DecBounds cfg Dec.reset where
  ibuf := .empty _
  obuf := .empty _
  ilen_le := Nat.zero_le _
  olen_le := Nat.zero_le _
  index_le := Nat.zero_le _
  err_code := by decide
  index_even := rfl

/-- Both units at their reset values meet the invariant in every legal configuration. -/
theorem Inv.of_reset_units {s : State} (hcfg : s.cfg.wf = true) (he : s.enc = Enc.reset) (hd : s.dec = Dec.reset) :
    Inv s :=
  ⟨hcfg, .of_bounds (he ▸ .reset _) (.inl (he ▸ rfl)), .of_bounds (hd ▸ .reset _) (.inl (hd ▸ rfl))⟩

/-- Where the encoder has just tested whether input is left (40_encoder R122, R127). -/
theorem EncInv.of_loop_test {s : State} (h : EncBounds s.cfg s.enc) (hi : s.enc.i ≤ s.enc.ilen)
    (hst : s.enc.st = if s.enc.i < s.enc.ilen then .eOuter else .eRet) : EncInv s := by
  by_cases hlt : s.enc.i < s.enc.ilen
  · rw [if_pos hlt] at hst
    exact { h with
      load_start := by simp [hst]
      segment := fun _ => hlt
      latch := by simp [hst, EncSt.latched]
      counted := by simp [hst, EncSt.counting]
      returned := by simp [hst] }
  · rw [if_neg hlt] at hst
    exact { h with
      load_start := by simp [hst]
      segment := by simp [hst, EncSt.inSegment]
      latch := by simp [hst, EncSt.latched]
      counted := by simp [hst, EncSt.counting]
      returned := fun _ => by omega }

/-- Where the decoder has just tested whether a pair is left (41_decoder R151, R156): read position and length are both
even, so a byte left means a pair left. -/
theorem DecInv.of_loop_test {s : State} (h : DecBounds s.cfg s.dec) (heven : s.dec.ilen % 2 = 0)
    (hi : s.dec.i ≤ s.dec.ilen) (hst : s.dec.st = if s.dec.i < s.dec.ilen then .dRdcnt else .dRet) : DecInv s := by
  have hindex := h.index_even
  by_cases hlt : s.dec.i < s.dec.ilen
  · rw [if_pos hlt] at hst
    exact { h with
      pair := fun _ => ⟨heven, by omega⟩
      count_read := by simp [hst]
      loop := by simp [hst, DecSt.inLoop]
      append := by simp [hst]
      next := by simp [hst]
      returned := by simp [hst] }
  · rw [if_neg hlt] at hst
    exact { h with
      pair := by simp [hst, DecSt.inPair]
      count_read := by simp [hst]
      loop := by simp [hst, DecSt.inLoop]
      append := by simp [hst]
      next := by simp [hst]
      returned := fun _ => ⟨by omega, heven⟩ }

/-- Settles O33: after reset the configuration is the reference one and both units are at their reset values. -/
theorem resetMeetsTheInvariant : Obligations.ResetMeetsTheInvariant :=
  .of_reset_units (by decide) rfl rfl

section
variable {s : State} (h : Inv s)
include h

/-! ### The encoder's micro-operations (40_encoder R121 to R128) -/

theorem answersInv_execELoad (hst : s.enc.st = .eLoad) : AnswersInv (execELoad s) :=
  .next <| h.setEnc { h.enc with
    index_le := Nat.zero_le _
    err_code := h.enc.err_none (by simp [hst])
    load_start := fun _ => rfl
    segment := nofun
    latch := nofun
    counted := nofun
    returned := nofun }

theorem answersInv_execERinit (hst : s.enc.st = .eRinit) : AnswersInv (execERinit s) := by
  have hi : s.enc.i = 0 := h.enc.load_start hst
  have herr := h.enc.err_none (by simp [hst])
  exact .next <| h.setEnc <| .of_loop_test
    { h.enc.bounds with
      olen_le := Nat.zero_le _
      olen_even := rfl
      err_code := EncBounds.err_code_of_running (by simp only [setEnc_enc]; split_ifs <;> simp) herr }
    (by simp [hi]) rfl

theorem answersInv_execEOuter (hst : s.enc.st = .eOuter) : AnswersInv (execEOuter s) := by
  have hi : s.enc.i < s.enc.ilen := h.enc.segment (by rw [hst]; rfl)
  exact .withInputByte (hi.trans_le h.enc.ilen_le) <| .next <| h.setEnc { h.enc with
    err_code := h.enc.err_none (by simp [hst])
    load_start := nofun
    segment := fun _ => hi
    latch := fun _ => rfl
    counted := nofun
    returned := nofun }

theorem answersInv_execECinit (hst : s.enc.st = .eCinit) : AnswersInv (execECinit s) := by
  have hi : s.enc.i < s.enc.ilen := h.enc.segment (by rw [hst]; rfl)
  have hval := h.enc.latch (by rw [hst]; rfl)
  exact .next <| h.setEnc { h.enc with
    err_code := h.enc.err_none (by simp [hst])
    load_start := nofun
    segment := fun _ => hi
    latch := fun _ => hval
    counted := fun _ => ⟨le_rfl, hi, fun k hk => by
      obtain rfl := Nat.lt_one_iff.1 hk
      exact hval.symm⟩
    returned := nofun }

/-- One more byte of the segment is compared and equal, and the count has room for it (40_encoder R125). -/
theorem Inv.count_next (hst : s.enc.st = .eCmp) (hn : s.enc.i + s.enc.count.toNat < s.enc.ilen)
    (heq : s.byteAt .encIbuf (s.enc.i + s.enc.count.toNat) = s.enc.val) (hroom : s.enc.count.toNat < 255) :
    Inv (s.setEnc { s.enc with count := s.enc.count + 1#8, st := .eCmp }) := by
  obtain ⟨hpos, hend, hrun⟩ := h.enc.counted (by rw [hst]; rfl)
  have hcount : (s.enc.count + 1#8).toNat = s.enc.count.toNat + 1 := by simp; omega
  exact h.setEnc { h.enc with
    err_code := h.enc.err_none (by simp [hst])
    load_start := nofun
    segment := fun _ => h.enc.segment (by rw [hst]; rfl)
    latch := fun _ => h.enc.latch (by rw [hst]; rfl)
    counted := fun _ => by
      refine ⟨by simp only [setEnc_enc]; omega, by simp only [setEnc_enc]; omega, fun k hk => ?_⟩
      simp only [setEnc_enc] at hk
      obtain hk | rfl : k < s.enc.count.toNat ∨ k = s.enc.count.toNat := by omega
      · exact hrun k hk
      · exact heq
    returned := nofun }

/-- The segment ends where the comparison stops (40_encoder R125). -/
theorem Inv.segment_done (hst : s.enc.st = .eCmp) : Inv (s.setEnc { s.enc with st := .eEmit }) :=
  h.setEnc { h.enc with
    err_code := h.enc.err_none (by simp [hst])
    load_start := nofun
    segment := fun _ => h.enc.segment (by rw [hst]; rfl)
    latch := fun _ => h.enc.latch (by rw [hst]; rfl)
    counted := fun _ => h.enc.counted (by rw [hst]; rfl)
    returned := nofun }

theorem answersInv_execECmp (hst : s.enc.st = .eCmp) : AnswersInv (execECmp s) := by
  simp only [execECmp]
  split_ifs with hn
  · refine .withInputByte (hn.trans_le h.enc.ilen_le) ?_
    split_ifs with hb
    · obtain ⟨heq, hroom⟩ := hb
      exact .next (h.count_next hst hn heq hroom)
    · exact .next (h.segment_done hst)
  · exact .next (h.segment_done hst)

theorem answersInv_execEEmit (hst : s.enc.st = .eEmit) : AnswersInv (execEEmit s) := by
  have holen := h.enc.olen_even
  simp only [execEEmit]
  split_ifs with hroom
  · exact .next <| h.setEnc <| .of_bounds { h.enc.bounds with err_code := rfl } (.inl rfl)
  · exact .next <| h.setEnc { h.enc with
      obuf := (h.enc.obuf.write (by omega) _).write (by omega) _
      olen_le := by simp only [setEnc_enc, setEnc_cfg]; omega
      olen_even := by simp only [setEnc_enc]; omega
      err_code := h.enc.err_none (by simp [hst])
      load_start := nofun
      segment := fun _ => h.enc.segment (by rw [hst]; rfl)
      latch := fun _ => h.enc.latch (by rw [hst]; rfl)
      counted := fun _ => h.enc.counted (by rw [hst]; rfl)
      returned := nofun }

theorem answersInv_execEAdv (hst : s.enc.st = .eAdv) : AnswersInv (execEAdv s) := by
  obtain ⟨-, hend, -⟩ := h.enc.counted (by rw [hst]; rfl)
  have herr := h.enc.err_none (by simp [hst])
  exact .next <| h.setEnc <| .of_loop_test
    { h.enc.bounds with
      index_le := hend.trans h.enc.ilen_le
      err_code := EncBounds.err_code_of_running (by simp only [setEnc_enc]; split_ifs <;> simp) herr }
    hend rfl

theorem answersInv_execERet (hst : s.enc.st = .eRet) : AnswersInv (execERet s) :=
  .next <| h.setEnc <| .of_bounds { h.enc.bounds with err_code := h.enc.err_none (by simp [hst]) } (.inl rfl)

/-- Every step of the encoder (30_encoding R95). -/
theorem answersInv_micro_enc : AnswersInv (takeTurn (.micro .enc) s) := by
  have resting (hb : s.busy .enc = false) : AnswersInv (takeTurn (.micro .enc) s) := micro_resting hb ▸ .next h
  cases hst : s.enc.st with
  | idle => exact resting (by simp [State.busy, hst, EncSt.active])
  | eLoad => exact micro_eLoad hst ▸ answersInv_execELoad h hst
  | eRinit => exact micro_eRinit hst ▸ answersInv_execERinit h hst
  | eOuter => exact micro_eOuter hst ▸ answersInv_execEOuter h hst
  | eCinit => exact micro_eCinit hst ▸ answersInv_execECinit h hst
  | eCmp => exact micro_eCmp hst ▸ answersInv_execECmp h hst
  | eEmit => exact micro_eEmit hst ▸ answersInv_execEEmit h hst
  | eAdv => exact micro_eAdv hst ▸ answersInv_execEAdv h hst
  | eRet => exact micro_eRet hst ▸ answersInv_execERet h hst
  | done => exact resting (by simp [State.busy, hst, EncSt.active])
  | fault => exact resting (by simp [State.busy, hst, EncSt.active])

/-! ### The decoder's micro-operations (41_decoder R151 to R157) -/

theorem answersInv_execDInit (hst : s.dec.st = .dInit) : AnswersInv (execDInit s) := by
  have herr := h.dec.err_none (by simp [hst])
  have hclear : DecBounds s.cfg { s.dec with i := 0, count := 0#8, value := 0#8, j := 0#8, olen := 0 } :=
    { h.dec.bounds with
      olen_le := Nat.zero_le _
      index_le := Nat.zero_le _
      index_even := rfl }
  by_cases hodd : s.dec.ilen % 2 = 1
  · simp only [execDInit, if_pos hodd]
    exact .next <| h.setDec <| .of_bounds (hclear.raise _) (.inl rfl)
  · simp only [execDInit, if_neg hodd]
    exact .next <| h.setDec <| .of_loop_test
      { hclear with
        err_code := DecBounds.err_code_of_running (by simp only [setDec_dec]; split_ifs <;> simp) herr }
      (Nat.mod_two_ne_one.1 hodd) (Nat.zero_le _) rfl

theorem answersInv_execDRdcnt (hst : s.dec.st = .dRdcnt) : AnswersInv (execDRdcnt s) := by
  obtain ⟨heven, hi⟩ := h.dec.pair (by rw [hst]; rfl)
  exact .withInputByte ((Nat.lt_of_succ_lt hi).trans_le h.dec.ilen_le) <| .next <| h.setDec { h.dec with
    err_code := DecBounds.err_code_of_running nofun (h.dec.err_none (by simp [hst]))
    pair := fun _ => ⟨heven, hi⟩
    count_read := fun _ => rfl
    loop := nofun
    append := nofun
    next := nofun
    returned := nofun }

theorem answersInv_execDRdval (hst : s.dec.st = .dRdval) : AnswersInv (execDRdval s) := by
  obtain ⟨heven, hi⟩ := h.dec.pair (by rw [hst]; rfl)
  have hcount := h.dec.count_read hst
  exact .withInputByte (hi.trans_le h.dec.ilen_le) <| .next <| h.setDec { h.dec with
    err_code := DecBounds.err_code_of_running nofun (h.dec.err_none (by simp [hst]))
    pair := fun _ => ⟨heven, hi⟩
    count_read := nofun
    loop := fun _ => ⟨hcount, rfl, Nat.zero_le _⟩
    append := nofun
    next := nofun
    returned := nofun }

theorem answersInv_execDLoop (hst : s.dec.st = .dLoop) : AnswersInv (execDLoop s) := by
  have hpair := h.dec.pair (by rw [hst]; rfl)
  obtain ⟨hcount, hvalue, hle⟩ := h.dec.loop (by rw [hst]; rfl)
  have herr := h.dec.err_none (by simp [hst])
  refine .next <| h.setDec ?_
  by_cases hlt : s.dec.j.toNat < s.dec.count.toNat
  · rw [if_pos hlt]
    exact { h.dec with
      err_code := DecBounds.err_code_of_running nofun herr
      pair := fun _ => hpair
      count_read := nofun
      loop := fun _ => ⟨hcount, hvalue, hle⟩
      append := fun _ => hlt
      next := nofun
      returned := nofun }
  · rw [if_neg hlt]
    exact { h.dec with
      err_code := DecBounds.err_code_of_running nofun herr
      pair := fun _ => hpair
      count_read := nofun
      loop := fun _ => ⟨hcount, hvalue, hle⟩
      append := nofun
      next := fun _ => BitVec.eq_of_toNat_eq (hle.antisymm (not_lt.1 hlt))
      returned := nofun }

theorem answersInv_execDAppend (hst : s.dec.st = .dAppend) : AnswersInv (execDAppend s) := by
  obtain ⟨hcount, hvalue, -⟩ := h.dec.loop (by rw [hst]; rfl)
  have hlt := h.dec.append hst
  simp only [execDAppend]
  split_ifs with hroom
  · exact .next <| h.setDec <| .of_bounds (h.dec.bounds.raise _) (.inl rfl)
  · have hj : (s.dec.j + 1#8).toNat = s.dec.j.toNat + 1 := by simp; omega
    exact .next <| h.setDec { h.dec with
      obuf := h.dec.obuf.write (by omega) _
      olen_le := by simp only [setDec_dec, setDec_cfg]; omega
      err_code := DecBounds.err_code_of_running nofun (h.dec.err_none (by simp [hst]))
      pair := fun _ => h.dec.pair (by rw [hst]; rfl)
      count_read := nofun
      loop := fun _ => ⟨hcount, hvalue, by simp only [setDec_dec]; omega⟩
      append := nofun
      next := nofun
      returned := nofun }

/-- The advance to the next pair (41_decoder R156), from a unit that works on a whole pair and records no fault. -/
theorem Inv.advance {d : Dec} (hd : DecBounds s.cfg d) (hpair : d.ilen % 2 = 0 ∧ d.i + 1 < d.ilen)
    (hst : d.st ≠ .fault) : Inv (s.setDec d.advance) := by
  obtain ⟨heven, hi⟩ := hpair
  have herr : d.err = .none := not_not.1 fun herr => hst (hd.err_code.2 herr)
  have hcap := hd.ilen_le
  have hindex := hd.index_even
  exact h.setDec <| .of_loop_test
    { hd with
      index_le := by simp only [setDec_dec, setDec_cfg, Dec.advance_i]; omega
      index_even := by simp only [setDec_dec, Dec.advance_i]; omega
      err_code := DecBounds.err_code_of_running (by simp only [setDec_dec, Dec.advance_st]; split_ifs <;> simp) herr }
    heven (by simp only [setDec_dec, Dec.advance_i, Dec.advance_ilen]; omega) rfl

theorem answersInv_execDNext (hst : s.dec.st = .dNext) : AnswersInv (execDNext s) :=
  .next <| h.advance h.dec.bounds (h.dec.pair (by rw [hst]; rfl)) (by simp [hst])

theorem answersInv_execDRet (hst : s.dec.st = .dRet) : AnswersInv (execDRet s) :=
  .next <| h.setDec <| .of_bounds
    { h.dec.bounds with err_code := DecBounds.err_code_of_running nofun (h.dec.err_none (by simp [hst])) } (.inl rfl)

/-- Every step of the decoder (30_encoding R96). -/
theorem answersInv_micro_dec : AnswersInv (takeTurn (.micro .dec) s) := by
  have resting (hb : s.busy .dec = false) : AnswersInv (takeTurn (.micro .dec) s) := micro_resting hb ▸ .next h
  cases hst : s.dec.st with
  | idle => exact resting (by simp [State.busy, hst, DecSt.active])
  | dInit => exact micro_dInit hst ▸ answersInv_execDInit h hst
  | dRdcnt => exact micro_dRdcnt hst ▸ answersInv_execDRdcnt h hst
  | dRdval => exact micro_dRdval hst ▸ answersInv_execDRdval h hst
  | dLoop => exact micro_dLoop hst ▸ answersInv_execDLoop h hst
  | dAppend => exact micro_dAppend hst ▸ answersInv_execDAppend h hst
  | dNext => exact micro_dNext hst ▸ answersInv_execDNext h hst
  | dRet => exact micro_dRet hst ▸ answersInv_execDRet h hst
  | done => exact resting (by simp [State.busy, hst, DecSt.active])
  | fault => exact resting (by simp [State.busy, hst, DecSt.active])

/-! ### The pair word as one step (41_decoder R164, R165) -/

theorem answersInv_execPair (hst : s.dec.st = .dRdcnt) (count value : Byte) :
    AnswersInv (execPair count value s) := by
  have hlatch : DecBounds s.cfg { s.dec with count := count, value := value } := { h.dec.bounds with }
  simp only [execPair]
  split_ifs with hroom
  · have hfill := Nat.add_sub_of_le h.dec.olen_le
    exact .next <| h.setDec <| .of_bounds (.raise (hlatch.appendRun hfill.le _ _) _) (.inl rfl)
  · exact .next <| h.advance (hlatch.appendRun (not_lt.1 hroom) _ _) (h.dec.pair (by rw [hst]; rfl)) (by simp [hst])

theorem answersInv_execPairZero (hst : s.dec.st = .dRdcnt) (value : Byte) :
    AnswersInv (execPairZero value s) :=
  .next <| h.advance { h.dec.bounds with } (h.dec.pair (by rw [hst]; rfl)) (by simp [hst])

theorem answersInv_takePair : AnswersInv (takePair s) := by
  simp only [takePair]
  split_ifs with hst
  · obtain ⟨-, hi⟩ := h.dec.pair (by rw [hst]; rfl)
    have hcap : s.dec.i + 1 < s.cfg.inCap .dec := hi.trans_le h.dec.ilen_le
    refine .withInputByte (by omega) <| .withInputByte hcap ?_
    simp only [runFetched, decode, decodePair16]
    split_ifs
    · exact answersInv_execPairZero h hst _
    · exact answersInv_execPair h hst _ _
  · exact .next h

/-! ### The host's operations (42_host_operations R181 to R190) -/

theorem Inv.start (u : UnitId) : Inv (s.start u) := by
  cases hb : s.busy u with
  | true => rwa [start_busy hb]
  | false =>
    cases u with
    | enc => rw [start_enc hb]; exact h.setEnc (.of_bounds (h.enc.bounds.clearErr nofun) (.inr rfl))
    | dec => rw [start_dec hb]; exact h.setDec (.of_bounds (h.dec.bounds.clearErr nofun) (.inr rfl))

theorem Inv.clear (u : UnitId) : Inv (s.clear u) := by
  cases hb : s.busy u with
  | true => rwa [clear_busy hb]
  | false =>
    cases u with
    | enc => rw [clear_enc hb]; exact h.setEnc (.of_bounds (h.enc.bounds.clearErr nofun) (.inl rfl))
    | dec => rw [clear_dec hb]; exact h.setDec (.of_bounds (h.dec.bounds.clearErr nofun) (.inl rfl))

theorem Inv.ctrlWrite (u : UnitId) (w : Word32) : Inv (s.ctrlWrite u w) := by
  unfold State.ctrlWrite
  split_ifs
  · exact h.start u
  · exact h.clear u
  · exact h

theorem Inv.writeIlen (u : UnitId) (n : Word32) : Inv (s.writeIlen u n) := by
  by_cases hok : s.busy u = false ∧ n.toNat ≤ s.cfg.inCap u
  · obtain ⟨hb, hn⟩ := hok
    cases u with
    | enc => rw [writeIlen_enc hb hn]; exact h.setEnc (.of_bounds { h.enc.bounds with ilen_le := hn } (.inl hb))
    | dec => rw [writeIlen_dec hb hn]; exact h.setDec (.of_bounds { h.dec.bounds with ilen_le := hn } (.inl hb))
  · rwa [writeIlen_ignored (by simpa [-not_and, not_and_or] using hok)]

theorem Inv.writeIbuf (u : UnitId) (k : Nat) (b : Byte) : Inv (s.writeIbuf u k b) := by
  by_cases hok : s.busy u = false ∧ k < s.cfg.inCap u
  · obtain ⟨hb, hk⟩ := hok
    cases u with
    | enc =>
      rw [writeIbuf_enc hb hk]
      exact h.setEnc (.of_bounds { h.enc.bounds with ibuf := h.enc.ibuf.write hk b } (.inl hb))
    | dec =>
      rw [writeIbuf_dec hb hk]
      exact h.setDec (.of_bounds { h.dec.bounds with ibuf := h.dec.ibuf.write hk b } (.inl hb))
  · rwa [writeIbuf_ignored (by simpa [-not_and, not_and_or] using hok)]

theorem Inv.writeReg (u : UnitId) (n : RegNum) (w : Word32) : Inv (s.writeReg u n w) := by
  unfold State.writeReg
  split
  · exact h.ctrlWrite u w
  · exact h.writeIlen u w
  · exact h

theorem Inv.answer (r : Reply) : Inv (s.answer r) := h.congr rfl rfl rfl rfl

theorem Inv.hostRead (b : BufferId) (k : Nat) : Inv (s.hostRead b k) := by
  unfold State.hostRead
  split_ifs <;> exact h.congr rfl rfl rfl rfl

theorem answersInv_call (c : HostCall) : AnswersInv (takeTurn (.call c) s) := by
  cases c with
  | wrIbuf u k b => exact .next (h.writeIbuf u k b)
  | wrIlen u n => exact .next (h.writeIlen u n)
  | rdStatus u => exact .next (h.answer _)
  | rdReg u n => exact .next (h.answer _)
  | rdObuf u k => exact .next (h.hostRead _ k)
  | rdIbuf u k => exact .next (h.hostRead _ k)
  | wrReg u n w => exact .next (h.writeReg u n w)

/-! ### Every turn, and the step -/

/-- Where the invariant holds every turn answers a next state, and the invariant holds there. -/
theorem answersInv_takeTurn (turn : Turn) : AnswersInv (takeTurn turn s) := by
  cases turn with
  | reset => exact .next (.of_reset_units h.cfg rfl rfl)
  | micro u =>
    cases u with
    | enc => exact answersInv_micro_enc h
    | dec => exact answersInv_micro_dec h
  | pair => exact answersInv_takePair h
  | ctrl u w => exact turn_ctrl u w s ▸ .next (h.ctrlWrite u w)
  | call c => exact answersInv_call h c

theorem answersInv_step : AnswersInv (step s) := by
  rw [step_eq h.cfg]
  exact answersInv_takeTurn (h.congr (popTurn_enc s) (popTurn_dec s) (popTurn_cfg s) (popTurn_resets s)) _

end

/-- Settles O34: a step is one turn, and each kind of turn keeps the invariant. -/
theorem stepKeepsTheInvariant : Obligations.StepKeepsTheInvariant := by
  unfold Obligations.StepKeepsTheInvariant
  intro s t h hstep
  obtain ⟨t', hnext, ht⟩ := answersInv_step h
  rw [hstep, Host.Outcome.next.injEq] at hnext
  exact hnext ▸ ht

end Sys2Proof.Machine
end

section
/-! ## 10_state R47 (h): a written input hides the free bytes -/

namespace Sys2Proof.Machine

/-- The state with other values in the place of the bytes nothing has written (20_memory R71, log 6). -/
def State.withResets (r : Nat) (s : State) : State := { s with resets := r }

/-- A byte of a written input is what was written, whatever the free values are. -/
theorem byteAt_input_withResets {s : State} {u : UnitId} (hw : s.inputWritten u) {k : Nat} (hk : k < s.ilen u)
    (r : Nat) : (s.withResets r).byteAt (.input u) k = s.byteAt (.input u) k := by
  obtain ⟨b, hb⟩ := Option.isSome_iff_exists.1 (hw k hk)
  have hb' : Memory.find ((s.withResets r).buffer (.input u)) k = some b := hb ▸ by cases u <;> rfl
  simp [State.byteAt, hb, hb']

/-- So a read of it below `ILEN`, and what the step does with the byte, are the same. -/
theorem withInputByte_withResets {s : State} {u : UnitId} (hw : s.inputWritten u) {k : Nat} (hk : k < s.ilen u)
    {r : Nat} {go go' : Byte → Answer} (hgo : ∀ b, go b = mapNext (·.withResets r) (go' b)) :
    (s.withResets r).withInputByte u k go = mapNext (·.withResets r) (s.withInputByte u k go') := by
  rw [State.withInputByte, State.withInputByte, byteAt_input_withResets hw hk, hgo, apply_ite (mapNext _)]
  rfl

theorem micro_resting_withResets {s : State} {u : UnitId} (hb : s.busy u = false) (r : Nat) :
    takeTurn (.micro u) (s.withResets r) = mapNext (·.withResets r) (takeTurn (.micro u) s) := by
  have hb' : (s.withResets r).busy u = false := hb
  rw [micro_resting hb, micro_resting hb', mapNext_next]

section
variable {s : State} (h : Inv s)
include h

/-- The encoder reads its input at the scan position and inside the segment it counts, both below `ILEN`. -/
theorem micro_enc_withResets (hw : s.inputWritten .enc) (r : Nat) :
    takeTurn (.micro .enc) (s.withResets r) = mapNext (·.withResets r) (takeTurn (.micro .enc) s) := by
  have resting (hb : s.busy .enc = false) := micro_resting_withResets hb r
  have henc : (s.withResets r).enc = s.enc := rfl
  cases hst : s.enc.st with
  | idle => exact resting (by simp [State.busy, hst, EncSt.active])
  | eLoad => rw [micro_eLoad hst, micro_eLoad (henc ▸ hst)]; rfl
  | eRinit => rw [micro_eRinit hst, micro_eRinit (henc ▸ hst)]; rfl
  | eOuter =>
    rw [micro_eOuter hst, micro_eOuter (henc ▸ hst)]
    exact withInputByte_withResets hw (h.enc.segment (by rw [hst]; rfl)) fun b => rfl
  | eCinit => rw [micro_eCinit hst, micro_eCinit (henc ▸ hst)]; rfl
  | eCmp =>
    rw [micro_eCmp hst, micro_eCmp (henc ▸ hst)]
    simp only [execECmp, henc]
    split_ifs with hn
    · refine withInputByte_withResets hw hn fun b => ?_
      rw [apply_ite (mapNext _)]
      rfl
    · rfl
  | eEmit =>
    rw [micro_eEmit hst, micro_eEmit (henc ▸ hst), execEEmit, execEEmit, apply_ite (mapNext _)]
    rfl
  | eAdv => rw [micro_eAdv hst, micro_eAdv (henc ▸ hst)]; rfl
  | eRet => rw [micro_eRet hst, micro_eRet (henc ▸ hst)]; rfl
  | done => exact resting (by simp [State.busy, hst, EncSt.active])
  | fault => exact resting (by simp [State.busy, hst, EncSt.active])

/-- The decoder reads the two bytes of a pair, both below `ILEN`. -/
theorem micro_dec_withResets (hw : s.inputWritten .dec) (r : Nat) :
    takeTurn (.micro .dec) (s.withResets r) = mapNext (·.withResets r) (takeTurn (.micro .dec) s) := by
  have resting (hb : s.busy .dec = false) := micro_resting_withResets hb r
  have hdec : (s.withResets r).dec = s.dec := rfl
  cases hst : s.dec.st with
  | idle => exact resting (by simp [State.busy, hst, DecSt.active])
  | dInit =>
    rw [micro_dInit hst, micro_dInit (hdec ▸ hst), execDInit, execDInit, apply_ite (mapNext _)]
    rfl
  | dRdcnt =>
    obtain ⟨-, hi⟩ := h.dec.pair (by rw [hst]; rfl)
    rw [micro_dRdcnt hst, micro_dRdcnt (hdec ▸ hst)]
    exact withInputByte_withResets hw (Nat.lt_of_succ_lt hi) fun b => rfl
  | dRdval =>
    obtain ⟨-, hi⟩ := h.dec.pair (by rw [hst]; rfl)
    rw [micro_dRdval hst, micro_dRdval (hdec ▸ hst)]
    exact withInputByte_withResets hw hi fun b => rfl
  | dLoop => rw [micro_dLoop hst, micro_dLoop (hdec ▸ hst)]; rfl
  | dAppend =>
    rw [micro_dAppend hst, micro_dAppend (hdec ▸ hst), execDAppend, execDAppend, apply_ite (mapNext _)]
    rfl
  | dNext => rw [micro_dNext hst, micro_dNext (hdec ▸ hst)]; rfl
  | dRet => rw [micro_dRet hst, micro_dRet (hdec ▸ hst)]; rfl
  | done => exact resting (by simp [State.busy, hst, DecSt.active])
  | fault => exact resting (by simp [State.busy, hst, DecSt.active])

end

/-- Settles O39: a unit's step reads its input below `ILEN` alone, where every byte was written. -/
theorem writtenInputHidesFreeBytes : Obligations.WrittenInputHidesFreeBytes := by
  unfold Obligations.WrittenInputHidesFreeBytes
  intro s t u r h hw hstep
  have hmicro : takeTurn (.micro u) (s.withResets r) = mapNext (·.withResets r) (takeTurn (.micro u) s) := by
    cases u with
    | enc => exact micro_enc_withResets h hw r
    | dec => exact micro_dec_withResets h hw r
  rw [hstep] at hmicro
  exact hmicro

end Sys2Proof.Machine
end

section
/-! ## 10_state R39, R42: the status flags and the fields of `STATUS` -/

namespace Sys2Proof.Machine

section
variable (s : State) (u : UnitId)

theorem status_busy : (s.status u).getLsbD 0 = s.busy u := by
  simp only [State.status, BitVec.getLsbD_append]; simp

theorem status_done : (s.status u).getLsbD 1 = s.doneFlag u := by
  simp only [State.status, BitVec.getLsbD_append]; simp

theorem status_err : (s.status u).getLsbD 2 = s.errFlag u := by
  simp only [State.status, BitVec.getLsbD_append]; simp

theorem status_reserved_low : (s.status u).getLsbD 3 = false := by
  simp only [State.status, BitVec.getLsbD_append]; simp

theorem status_errCode : (s.status u).extractLsb' 4 4 = s.errCode u := by
  simp only [State.status, BitVec.extractLsb'_append_eq_ite]; simp

theorem status_stCode : (s.status u).extractLsb' 8 4 = s.stCode u := by
  simp only [State.status, BitVec.extractLsb'_append_eq_ite]; simp

theorem status_reserved_high : (s.status u).extractLsb' 12 20 = 0#20 := by
  simp only [State.status, BitVec.extractLsb'_append_eq_ite]; simp

end

/-- Settles O29: each field of the word is the one put in; register 1 is read as `STATUS` and its write is ignored. -/
theorem statusFieldsStandWhereTheSpecSays : Obligations.StatusFieldsStandWhereTheSpecSays := by
  unfold Obligations.StatusFieldsStandWhereTheSpecSays
  intro s u w
  exact ⟨status_busy s u, status_done s u, status_err s u, status_reserved_low s u, status_errCode s u,
    status_stCode s u, status_reserved_high s u, rfl, rfl⟩

/-- Every encoder state is active or exactly one of the three resting states (00_scope R12). -/
theorem EncSt.one_flag (st : EncSt) :
    [st.active, decide (st = .done), decide (st = .fault), decide (st = .idle)].count true = 1 := by
  cases st <;> rfl

/-- Every decoder state is active or exactly one of the three resting states (00_scope R12). -/
theorem DecSt.one_flag (st : DecSt) :
    [st.active, decide (st = .done), decide (st = .fault), decide (st = .idle)].count true = 1 := by
  cases st <;> rfl

/-- Settles O36: the flags split the states of a unit; the event output is the `or` of two of them. -/
theorem exactlyOneStatusFlagHolds : Obligations.ExactlyOneStatusFlagHolds := by
  unfold Obligations.ExactlyOneStatusFlagHolds
  intro s u
  refine ⟨?_, Bool.or_eq_true_iff⟩
  cases u with
  | enc => exact s.enc.st.one_flag
  | dec => exact s.dec.st.one_flag

end Sys2Proof.Machine
end

section
/-! ## 20_memory R66, R67, R73: the order of turns, the units' reads and the host's reads -/

namespace Sys2Proof.Machine

/-! ### The turns of the agenda (20_memory R73, log 3) -/

/-- A step with turns to come takes the first of them, and leaves the others to come. -/
theorem step_of_agenda {s : State} {t : Turn} {ts : List Turn} (hcfg : s.cfg.wf = true) (h : s.agenda = t :: ts) :
    step s = takeTurn t (s.withOrder ts s.nextUnit) := by
  rw [step_eq hcfg, nextTurn_cons s h, popTurn_cons s h]
  rfl

/-- As many steps as there are turns at the head of the agenda run these turns, whatever comes after them. -/
theorem steps_of_agenda {s : State} {ts rest : List Turn} (hcfg : s.cfg.wf = true) (h : s.agenda = ts ++ rest) :
    steps ts.length s = runTurns ts (s.withOrder rest s.nextUnit) := by
  induction ts generalizing s with
  | nil =>
    obtain rfl : s.agenda = rest := h
    rfl
  | cons t ts ih =>
    rw [List.length_cons, steps_succ, step_of_agenda hcfg h, runTurns, takeTurn_withOrder, takeTurn_withOrder]
    cases hturn : takeTurn t s with
    | next s' => exact ih (takeTurn_cfg hturn ▸ hcfg) rfl
    | fault r => rfl
    | refused r => rfl

/-- Settles O11: a step takes the first turn of the agenda, and what a turn does is independent of the turns to come. -/
theorem agendaTurnsRunInOrder : Obligations.AgendaTurnsRunInOrder := by
  unfold Obligations.AgendaTurnsRunInOrder
  intro s ts rest hcfg h
  exact steps_of_agenda hcfg h

/-! ### The units' reads (20_memory R67) -/

/-- Settles O35: where the invariant holds every turn answers a next state, and a step is one turn. -/
theorem stepAlwaysAnswers : Obligations.StepAlwaysAnswers := by
  unfold Obligations.StepAlwaysAnswers
  intro s h
  obtain ⟨t, hnext, -⟩ := answersInv_step h
  exact ⟨t, hnext⟩

/-- Settles O22: the four operations read by `withInputByte`, which faults outside the buffer; `E_CMP` reads only where
the index is below `ILEN`. -/
theorem readOutsideBufferFaults : Obligations.ReadOutsideBufferFaults := by
  unfold Obligations.ReadOutsideBufferFaults
  intro s
  simp only [exec, execEOuter, execECmp, execDRdcnt, execDRdval]
  refine ⟨fun h => withInputByte_outside h _, fun hn h => ?_, fun h => withInputByte_outside h _,
    fun h => withInputByte_outside h _⟩
  rw [if_pos hn]
  exact withInputByte_outside h _

/-- The state with other written bytes in a unit's input buffer. -/
def State.withInput (u : UnitId) (m : Memory) (s : State) : State :=
  match u with
  | .enc => s.setEnc { s.enc with ibuf := m }
  | .dec => s.setDec { s.dec with ibuf := m }

section
variable (s : State) (u : UnitId) (m : Memory)

@[simp] theorem withInput_cfg : (s.withInput u m).cfg = s.cfg := by cases u <;> rfl
@[simp] theorem withInput_resets : (s.withInput u m).resets = s.resets := by cases u <;> rfl
@[simp] theorem withInput_busy : (s.withInput u m).busy u = s.busy u := by cases u <;> rfl
@[simp] theorem withInput_buffer : (s.withInput u m).buffer (.input u) = m := by cases u <;> rfl

end

/-- The buffer `m` lists below the unit's length what the unit's input buffer lists there. -/
def State.InputAgrees (s : State) (u : UnitId) (m : Memory) : Prop :=
  ∀ k, k < s.ilen u → Memory.find m k = Memory.find (s.buffer (.input u)) k

/-- A read of the input below `ILEN`, and what the step does with the byte, do not depend on the bytes from `ILEN` on. -/
theorem withInputByte_withInput {s : State} {u : UnitId} {m : Memory} (hm : s.InputAgrees u m) {k : Nat}
    (hk : k < s.ilen u) {go go' : Byte → Answer} (hgo : ∀ b, go b = mapNext (·.withInput u m) (go' b)) :
    (s.withInput u m).withInputByte u k go = mapNext (·.withInput u m) (s.withInputByte u k go') := by
  have hbyte : (s.withInput u m).byteAt (.input u) k = s.byteAt (.input u) k := by simp [State.byteAt, hm k hk]
  simp only [State.withInputByte, withInput_cfg, hbyte, hgo, apply_ite (mapNext _)]
  rfl

theorem micro_resting_withInput {s : State} {u : UnitId} (hb : s.busy u = false) (m : Memory) :
    takeTurn (.micro u) (s.withInput u m) = mapNext (·.withInput u m) (takeTurn (.micro u) s) := by
  rw [micro_resting hb, micro_resting (by rwa [withInput_busy]), mapNext_next]

section
variable {s : State} (h : Inv s) {m : Memory}
include h

/-- The encoder reads its input in `E_OUTER`, at the scan position, which is below `ILEN` there, and in `E_CMP`, which
tests its index against `ILEN` first. -/
theorem micro_enc_withInput (hm : s.InputAgrees .enc m) :
    takeTurn (.micro .enc) (s.withInput .enc m) = mapNext (·.withInput .enc m) (takeTurn (.micro .enc) s) := by
  have resting (hb : s.busy .enc = false) := micro_resting_withInput hb m
  have hst' : (s.withInput .enc m).enc.st = s.enc.st := rfl
  cases hst : s.enc.st with
  | idle => exact resting (by simp [State.busy, hst, EncSt.active])
  | eLoad => rw [micro_eLoad hst, micro_eLoad (hst'.trans hst)]; rfl
  | eRinit => rw [micro_eRinit hst, micro_eRinit (hst'.trans hst)]; rfl
  | eOuter =>
    rw [micro_eOuter hst, micro_eOuter (hst'.trans hst)]
    exact withInputByte_withInput hm (h.enc.segment (by rw [hst]; rfl)) fun b => rfl
  | eCinit => rw [micro_eCinit hst, micro_eCinit (hst'.trans hst)]; rfl
  | eCmp =>
    rw [micro_eCmp hst, micro_eCmp (hst'.trans hst), execECmp, execECmp, apply_ite (mapNext _)]
    refine ite_congr rfl (fun hn => withInputByte_withInput hm hn fun b => ?_) fun _ => rfl
    rw [apply_ite (mapNext _)]
    rfl
  | eEmit =>
    rw [micro_eEmit hst, micro_eEmit (hst'.trans hst), execEEmit, execEEmit, apply_ite (mapNext _)]
    rfl
  | eAdv => rw [micro_eAdv hst, micro_eAdv (hst'.trans hst)]; rfl
  | eRet => rw [micro_eRet hst, micro_eRet (hst'.trans hst)]; rfl
  | done => exact resting (by simp [State.busy, hst, EncSt.active])
  | fault => exact resting (by simp [State.busy, hst, EncSt.active])

/-- The decoder reads its input in `D_RDCNT` and `D_RDVAL`: the two bytes of a pair, both below `ILEN` there. -/
theorem micro_dec_withInput (hm : s.InputAgrees .dec m) :
    takeTurn (.micro .dec) (s.withInput .dec m) = mapNext (·.withInput .dec m) (takeTurn (.micro .dec) s) := by
  have resting (hb : s.busy .dec = false) := micro_resting_withInput hb m
  have hst' : (s.withInput .dec m).dec.st = s.dec.st := rfl
  cases hst : s.dec.st with
  | idle => exact resting (by simp [State.busy, hst, DecSt.active])
  | dInit =>
    rw [micro_dInit hst, micro_dInit (hst'.trans hst), execDInit, execDInit, apply_ite (mapNext _)]
    rfl
  | dRdcnt =>
    obtain ⟨-, hi⟩ := h.dec.pair (by rw [hst]; rfl)
    rw [micro_dRdcnt hst, micro_dRdcnt (hst'.trans hst)]
    exact withInputByte_withInput hm (Nat.lt_of_succ_lt hi) fun b => rfl
  | dRdval =>
    obtain ⟨-, hi⟩ := h.dec.pair (by rw [hst]; rfl)
    rw [micro_dRdval hst, micro_dRdval (hst'.trans hst)]
    exact withInputByte_withInput hm hi fun b => rfl
  | dLoop => rw [micro_dLoop hst, micro_dLoop (hst'.trans hst)]; rfl
  | dAppend =>
    rw [micro_dAppend hst, micro_dAppend (hst'.trans hst), execDAppend, execDAppend, apply_ite (mapNext _)]
    rfl
  | dNext => rw [micro_dNext hst, micro_dNext (hst'.trans hst)]; rfl
  | dRet => rw [micro_dRet hst, micro_dRet (hst'.trans hst)]; rfl
  | done => exact resting (by simp [State.busy, hst, DecSt.active])
  | fault => exact resting (by simp [State.busy, hst, DecSt.active])

end

/-- Settles O38: each unit's step commutes with replacing its input by one that agrees with it below `ILEN`. -/
theorem unitReadsStayBelowLength : Obligations.UnitReadsStayBelowLength := by
  unfold Obligations.UnitReadsStayBelowLength
  constructor
  · intro s t m h hm hstep
    have hmicro := micro_enc_withInput h hm
    rw [hstep] at hmicro
    exact hmicro
  · intro s t m h hm hstep
    have hmicro := micro_dec_withInput h hm
    rw [hstep] at hmicro
    exact hmicro

/-! ### The host's reads (20_memory R66) -/

/-- The host's reads of what the block holds: a register, or a byte of a buffer below its capacity. -/
def IsHostRead (cfg : Params) (i : Instr) (u : UnitId) (n : RegNum) (k : Nat) : Prop :=
  i = .hRdStatus u ∨ i = .hRdReg u n ∨ (i = .hRdObuf u k ∧ k < cfg.outCap u) ∨ (i = .hRdIbuf u k ∧ k < cfg.inCap u)

/-- A host read of a buffer byte below the capacity hands over the byte there, whatever the host has read before. -/
theorem hostRead_answer {s : State} {b : BufferId} {k : Nat} (hk : k < s.cfg.capOf b) (q : Reply) :
    (s.answer q).hostRead b k = (s.answer q).answer (.byte (s.byteAt b k)) := by
  rw [hostRead_inside (s := s.answer q) hk]
  cases b <;> rfl

/-- A host read hands over one reply and does nothing else; after another reply it hands over the same one. -/
theorem exec_hostRead {s : State} {i : Instr} {u : UnitId} {n : RegNum} {k : Nat} (hi : IsHostRead s.cfg i u n k) :
    ∃ r, exec i s = .next (s.answer r) ∧ ∀ q, exec i (s.answer q) = .next ((s.answer q).answer r) := by
  obtain rfl | rfl | ⟨rfl, hk⟩ | ⟨rfl, hk⟩ := hi
  · exact ⟨.reg (s.status u), rfl, fun q => by cases u <;> rfl⟩
  · exact ⟨.reg (s.readReg u n), rfl, fun q => by cases u <;> rfl⟩
  · rw [← capOf_output] at hk
    exact ⟨_, congrArg _ (hostRead_inside hk), fun q => congrArg _ (hostRead_answer hk q)⟩
  · rw [← capOf_input] at hk
    exact ⟨_, congrArg _ (hostRead_inside hk), fun q => congrArg _ (hostRead_answer hk q)⟩

/-- Settles O42: all a host read does is to hand over its reply, and no read depends on the replies. -/
theorem hostReadsHaveNoSideEffect : Obligations.HostReadsHaveNoSideEffect := by
  unfold Obligations.HostReadsHaveNoSideEffect
  intro s t i u n k hi hexec
  obtain ⟨r, hread, hagain⟩ := exec_hostRead hi
  obtain rfl : s.answer r = t := by rwa [hread, Host.Outcome.next.injEq] at hexec
  exact ⟨rfl, rfl, rfl, rfl, rfl, r, rfl, hagain r⟩

end Sys2Proof.Machine
end

section
/-! ## 30_encoding R90 to R104: decoder and encoder undo each other -/

namespace Sys2Proof

/-! ### Every operation (R104) -/

open Laws in
/-- Decoding what the encoder writes gives a well-formed operation back, row by row of the table. -/
theorem decode_encode (i : Instr) : RoundTrip.Statement i :=
  match i with
  | .pair count value => RoundTrip.pair count value
  | .pairZero value => RoundTrip.pairZero value
  | .eLoad => RoundTrip.eLoad
  | .eRinit => RoundTrip.eRinit
  | .eOuter => RoundTrip.eOuter
  | .eCinit => RoundTrip.eCinit
  | .eCmp => RoundTrip.eCmp
  | .eEmit => RoundTrip.eEmit
  | .eAdv => RoundTrip.eAdv
  | .eRet => RoundTrip.eRet
  | .dInit => RoundTrip.dInit
  | .dRdcnt => RoundTrip.dRdcnt
  | .dRdval => RoundTrip.dRdval
  | .dLoop => RoundTrip.dLoop
  | .dAppend => RoundTrip.dAppend
  | .dNext => RoundTrip.dNext
  | .dRet => RoundTrip.dRet
  | .hStart u clear reserved => RoundTrip.hStart u clear reserved
  | .hClear u reserved => RoundTrip.hClear u reserved
  | .hCtrlNop u reserved => RoundTrip.hCtrlNop u reserved
  | .hWrIbuf u k b => RoundTrip.hWrIbuf u k b
  | .hWrIlen u n => RoundTrip.hWrIlen u n
  | .hRdStatus u => RoundTrip.hRdStatus u
  | .hRdReg u n => RoundTrip.hRdReg u n
  | .hRdObuf u k => RoundTrip.hRdObuf u k
  | .hRdIbuf u k => RoundTrip.hRdIbuf u k
  | .hWrReg u n w => RoundTrip.hWrReg u n w

/-- Settles O3: the table's rows, one lemma each. -/
theorem decodeOfEncodeIsIdentity : Obligations.DecodeOfEncodeIsIdentity := by
  unfold Obligations.DecodeOfEncodeIsIdentity
  exact decode_encode

/-! ### Every form (R91, R95 to R97) -/

/-- The operation is well-formed and `f` is its form. -/
def Instr.IsNameOf (i : Instr) (f : Fetched) : Prop := i.wf = true ∧ encode i = f

theorem decodePair16_isNameOf (first second : Byte) : (decodePair16 first second).IsNameOf (.pair16 first second) := by
  by_cases h : first = 0#8
  · rw [decodePair16, if_pos h, h]
    exact ⟨rfl, rfl⟩
  · rw [decodePair16, if_neg h]
    exact ⟨decide_eq_true h, rfl⟩

theorem decodeEncCode_isNameOf {code : BitVec 4} {i : Instr} (h : decodeEncCode code = .ok i) :
    i.IsNameOf (.state4 .enc code) := by
  unfold decodeEncCode at h
  split at h <;> cases h <;> exact ⟨rfl, congrArg (Fetched.state4 .enc) (BitVec.eq_of_toNat_eq (.symm ‹_›))⟩

theorem decodeDecCode_isNameOf {code : BitVec 4} {i : Instr} (h : decodeDecCode code = .ok i) :
    i.IsNameOf (.state4 .dec code) := by
  unfold decodeDecCode at h
  split at h <;> cases h <;> exact ⟨rfl, congrArg (Fetched.state4 .dec) (BitVec.eq_of_toNat_eq (.symm ‹_›))⟩

/-- A `CTRL` word is put together again from its two low bits and the rest (R97). -/
theorem decodeCtrl_isNameOf (u : UnitId) (w : Word32) : (decodeCtrl u w).IsNameOf (.ctrl32 u w) := by
  have hw := ctrlWord_of_fields w
  cases h0 : w.getLsbD 0 with
  | true =>
    rw [h0] at hw
    rw [decodeCtrl_start h0]
    exact ⟨rfl, congrArg (Fetched.ctrl32 u) hw⟩
  | false =>
    cases h1 : w.getLsbD 1 with
    | true =>
      rw [h0, h1] at hw
      rw [decodeCtrl_clear h0 h1]
      exact ⟨rfl, congrArg (Fetched.ctrl32 u) hw⟩
    | false =>
      rw [h0, h1] at hw
      rw [decodeCtrl_nop h0 h1]
      exact ⟨rfl, congrArg (Fetched.ctrl32 u) hw⟩

theorem decodeCall_isNameOf (c : HostCall) : (decodeCall c).IsNameOf (.named c) := by
  cases c <;> exact ⟨rfl, rfl⟩

/-- Settles O4: each of the four forms is the one name of what it decodes to. -/
theorem encodeOfDecodeIsIdentity : Obligations.EncodeOfDecodeIsIdentity := by
  unfold Obligations.EncodeOfDecodeIsIdentity
  intro f i h
  cases f with
  | pair16 first second => cases h; exact decodePair16_isNameOf first second
  | state4 u code =>
    cases u with
    | enc => exact decodeEncCode_isNameOf h
    | dec => exact decodeDecCode_isNameOf h
  | ctrl32 u w => cases h; exact decodeCtrl_isNameOf u w
  | named c => cases h; exact decodeCall_isNameOf c

/-! ### Streams of pair words (R94, R99 (b)) -/

/-- A pair word gives its two bytes back. -/
@[simp] theorem encodeBytes_decodePair16 (first second : Byte) :
    encodeBytes (decodePair16 first second) = [first, second] := by
  by_cases h : first = 0#8 <;> simp [decodePair16, h, encodeBytes]

theorem decodeStream_of_even : ∀ stream : List Byte, stream.length % 2 = 0 →
    ∃ words, decodeStream stream = .ok words ∧ 2 * words.length = stream.length ∧
      words.flatMap encodeBytes = stream
  | [], _ => ⟨[], rfl, rfl, rfl⟩
  | [_], h => by cases h
  | first :: second :: rest, h => by
    simp only [List.length_cons] at h
    obtain ⟨words, hdecode, hlength, hbytes⟩ := decodeStream_of_even rest (by omega)
    exact ⟨decodePair16 first second :: words, by simp only [decodeStream, hdecode],
      by simp only [List.length_cons]; omega, by simp [hbytes]⟩

theorem decodeStream_of_odd : ∀ stream : List Byte, stream.length % 2 = 1 →
    decodeStream stream = .error .unpairedByte
  | [], h => by cases h
  | [_], _ => rfl
  | first :: second :: rest, h => by
    simp only [List.length_cons] at h
    simp only [decodeStream, decodeStream_of_odd rest (by omega)]

/-- Settles O7, by induction on the pairs of the stream. -/
theorem evenStreamIsSequenceOfPairs : Obligations.EvenStreamIsSequenceOfPairs := by
  unfold Obligations.EvenStreamIsSequenceOfPairs
  exact fun stream => ⟨decodeStream_of_even stream, decodeStream_of_odd stream⟩

/-! ### The words of the tables, and the sixteen state codes (R95 to R97, R99 (c)) -/

/-- Settles O5: the decoder evaluates to the operation the table gives, word by word. -/
theorem specWordsDecodeAsWritten : Obligations.SpecWordsDecodeAsWritten := by
  unfold Obligations.SpecWordsDecodeAsWritten
  exact ⟨rfl, rfl, rfl, rfl, rfl, rfl⟩

theorem exists_eq_ok {r : Except Reject Instr} (h : r.isOk = true) : ∃ i, r = .ok i :=
  match r with
  | .ok i => ⟨i, rfl⟩

/-- The encoder has a micro-operation for each of the codes 1 to 8 (R95). -/
theorem decodeEncCode_isOk (code : BitVec 4) (h : 1 ≤ code.toNat ∧ code.toNat ≤ 8) :
    (decodeEncCode code).isOk = true := by revert code; decide

/-- The decoder has a micro-operation for each of the codes 1 to 7 (R96). -/
theorem decodeDecCode_isOk (code : BitVec 4) (h : 1 ≤ code.toNat ∧ code.toNat ≤ 7) :
    (decodeDecCode code).isOk = true := by revert code; decide

/-- Settles O6: the codes a unit rejects are finitely many; every other one selects an operation. -/
theorem stateCodesSplitThreeWays : Obligations.StateCodesSplitThreeWays := by
  unfold Obligations.StateCodesSplitThreeWays
  intro u code
  cases u with
  | enc =>
    refine ⟨?_, ?_, fun ⟨h1, h8, _⟩ => exists_eq_ok (decodeEncCode_isOk code ⟨h1, h8⟩)⟩ <;> revert code <;> decide
  | dec =>
    refine ⟨?_, ?_, fun ⟨h1, h8, hne⟩ => exists_eq_ok (decodeDecCode_isOk code ⟨h1, ?_⟩)⟩
    · revert code; decide
    · revert code; decide
    · have hne : code.toNat ≠ 8 := fun h => hne ⟨rfl, h⟩
      omega

end Sys2Proof
end

section
/-! ## 40_encoder R132, 41_decoder R161: what the two functions do with one segment and one pair -/

namespace Sys2Proof.Reference

@[simp] theorem encode_nil : encode [] = [] := rfl

/-- The first segment and the rest (40_encoder R132). -/
theorem encode_cons (v : Byte) (rest : List Byte) :
    encode (v :: rest) = BitVec.ofNat 8 (segment v rest) :: v :: encode (rest.drop (segment v rest - 1)) := by
  simp only [encode, List.length_cons, encodeWithin]
  rw [encodeWithin_enough _ _ _ (by simp) le_rfl]

theorem le_leading_replicate_append (v : Byte) (k : Nat) (l : List Byte) :
    k ≤ leading v (List.replicate k v ++ l) := by
  induction k with
  | zero => exact Nat.zero_le _
  | succ k ih => simpa [List.replicate_succ, leading] using ih

/-- A run that is full, or not continued, is one segment: it is encoded as its count and its value. -/
theorem encode_segment {c v : Byte} {tail : List Byte} (hpos : 1 ≤ c.toNat)
    (hstop : c.toNat = 255 ∨ tail.head? ≠ some v) :
    encode (List.replicate c.toNat v ++ tail) = c :: v :: encode tail := by
  have hc : c.toNat < 256 := c.isLt
  obtain ⟨k, hk⟩ : ∃ k, c.toNat = k + 1 := ⟨_, (Nat.sub_add_cancel hpos).symm⟩
  have hseg : segment v (List.replicate k v ++ tail) = c.toNat := by
    rcases hstop with hfull | hother
    · have := le_leading_replicate_append v k tail
      simp only [segment]; omega
    · simp only [segment, leading_replicate_append v k tail hother]; omega
  rw [hk, List.replicate_succ, List.cons_append, encode_cons, hseg, BitVec.ofNat_toNat, BitVec.setWidth_eq, hk,
    Nat.add_sub_cancel, List.drop_append_of_le_length (by simp)]
  simp

theorem decode_of_odd : ∀ encoded : List Byte, encoded.length % 2 = 1 → decode encoded = .error .decodeError
  | [], h => by cases h
  | [_], _ => rfl
  | count :: value :: rest, h => by
    simp only [List.length_cons] at h
    simp only [decode, decode_of_odd rest (by omega)]

theorem decode_of_even : ∀ encoded : List Byte, encoded.length % 2 = 0 → ∃ out, decode encoded = .ok out
  | [], _ => ⟨[], rfl⟩
  | [_], h => by cases h
  | count :: value :: rest, h => by
    simp only [List.length_cons] at h
    obtain ⟨out, hout⟩ := decode_of_even rest (by omega)
    exact ⟨List.replicate count.toNat value ++ out, by simp only [decode, hout]⟩

/-- The encoded buffer decodes to `out` followed by what `rest` decodes to. -/
def DecodesTo (encoded out rest : List Byte) : Prop :=
  ∃ tail, decode rest = .ok tail ∧ decode encoded = .ok (out ++ tail)

theorem decodesTo_nil {encoded out : List Byte} : DecodesTo encoded out [] ↔ decode encoded = .ok out :=
  ⟨fun ⟨tail, htail, h⟩ => by cases htail; simpa using h, fun h => ⟨[], rfl, by simpa using h⟩⟩

/-- The whole buffer is still to be decoded. -/
theorem decodesTo_self {encoded : List Byte} (h : encoded.length % 2 = 0) : DecodesTo encoded [] encoded := by
  obtain ⟨out, hout⟩ := decode_of_even encoded h
  exact ⟨out, hout, hout⟩

/-- A pair is decoded to its run (41_decoder R161). -/
theorem DecodesTo.pair {encoded out rest : List Byte} {count value : Byte}
    (h : DecodesTo encoded out (count :: value :: rest)) :
    DecodesTo encoded (out ++ List.replicate count.toNat value) rest := by
  obtain ⟨tail, htail, hall⟩ := h
  simp only [decode] at htail
  cases hrest : decode rest with
  | error e => simp [hrest] at htail
  | ok t =>
    simp only [hrest, Except.ok.injEq] at htail
    exact ⟨t, hrest, by rw [hall, ← htail, List.append_assoc]⟩

/-- What is decoded so far is no longer than the result. -/
theorem DecodesTo.exists_result {encoded out rest : List Byte} (h : DecodesTo encoded out rest) :
    ∃ result, decode encoded = .ok result ∧ out.length ≤ result.length := by
  obtain ⟨tail, _, hall⟩ := h
  exact ⟨out ++ tail, hall, by simp⟩

end Sys2Proof.Reference
end

section
/-! ## 40_encoder R133, 41_decoder R162: what a unit still owes in each state of a run -/

namespace Sys2Proof.Machine

/-- What a run of the encoder on `bytes` has done in a state (40_encoder R121 to R128): the output is the encoding of
the bytes before the scan position; the segment counted in `E_EMIT` is one the function makes too. -/
def EncOwes (bytes : List Byte) (s : State) : EncSt → Prop
  | .idle => False
  | .eLoad | .eRinit => True
  | .eOuter | .eCinit | .eCmp =>
    s.output .enc ++ Reference.encode (bytes.drop s.enc.i) = Reference.encode bytes
  | .eEmit =>
    s.output .enc ++ s.enc.count :: s.enc.val :: Reference.encode (bytes.drop (s.enc.i + s.enc.count.toNat)) =
      Reference.encode bytes
  | .eAdv =>
    s.output .enc ++ Reference.encode (bytes.drop (s.enc.i + s.enc.count.toNat)) = Reference.encode bytes
  | .eRet | .done => s.output .enc = Reference.encode bytes
  | .fault => s.cfg.encOutCap < (Reference.encode bytes).length

/-- What a run of the decoder on `bytes` has done in a state (41_decoder R151 to R157): the output is the decoding of
the pairs before the read position, and the copies already made of the pair read. -/
def DecOwes (bytes : List Byte) (s : State) : DecSt → Prop
  | .idle => False
  | .dInit => True
  | .dRdcnt | .dRdval => Reference.DecodesTo bytes (s.output .dec) (bytes.drop s.dec.i)
  | .dLoop | .dAppend | .dNext =>
    Reference.DecodesTo bytes
      (s.output .dec ++ List.replicate (s.dec.count.toNat - s.dec.j.toNat) s.dec.value) (bytes.drop (s.dec.i + 2))
  | .dRet | .done => Reference.decode bytes = .ok (s.output .dec)
  | .fault =>
    (s.dec.err = .decodeError ∧ Reference.decode bytes = .error .decodeError) ∨
      (s.dec.err = .outputOverflow ∧ ∃ out, Reference.decode bytes = .ok out ∧ s.cfg.decOutCap < out.length)

/-- What a run of the unit on `bytes` has done, in the state it is in. -/
def UnitOwes (u : UnitId) (bytes : List Byte) (s : State) : Prop :=
  match u with
  | .enc => EncOwes bytes s s.enc.st
  | .dec => DecOwes bytes s s.dec.st

/-- A run of the unit on the input `bytes`, somewhere between its start and the acknowledgement of its end. -/
structure UnitRun (u : UnitId) (bytes : List Byte) (s : State) : Prop where
  input : s.input u = bytes
  owes : UnitOwes u bytes s

/-- The answer is a next state in which the run goes on or has ended. -/
def KeepsRun (u : UnitId) (bytes : List Byte) (a : Answer) : Prop := ∃ t, a = .next t ∧ UnitRun u bytes t

theorem KeepsRun.next {u : UnitId} {bytes : List Byte} {t : State} (hin : t.input u = bytes)
    (howes : UnitOwes u bytes t) : KeepsRun u bytes (.next t) := ⟨t, rfl, hin, howes⟩

theorem KeepsRun.withInputByte {s : State} {u : UnitId} {bytes : List Byte} {k : Nat} {go : Byte → Answer}
    (hk : k < s.cfg.inCap u) (hgo : KeepsRun u bytes (go (s.byteAt (.input u) k))) :
    KeepsRun u bytes (s.withInputByte u k go) := by
  rwa [withInputByte_inside hk]

@[simp] theorem output_length (u : UnitId) (s : State) : (s.output u).length = s.olen u := bytes_length ..

/-- Equal bytes of the input from an index on. -/
theorem drop_input_replicate {u : UnitId} {s : State} {v : Byte} (n : Nat) {k : Nat} (hend : k + n ≤ s.ilen u)
    (hrun : ∀ j, j < n → s.byteAt (.input u) (k + j) = v) :
    (s.input u).drop k = List.replicate n v ++ (s.input u).drop (k + n) := by
  induction n generalizing k with
  | zero => rfl
  | succ n ih =>
    have hrest := ih (k := k + 1) (by omega) fun j hj => by
      rw [Nat.add_assoc, Nat.add_comm 1]; exact hrun (j + 1) (by omega)
    have hfirst : s.byteAt (.input u) k = v := hrun 0 (by omega)
    rw [drop_input (by omega), hfirst, hrest, List.replicate_succ, List.cons_append, Nat.add_assoc, Nat.add_comm 1]

section
variable {s : State} {bytes : List Byte}

theorem UnitRun.enc_owes (hrun : UnitRun .enc bytes s) {st : EncSt} (hst : s.enc.st = st) : EncOwes bytes s st :=
  hst ▸ hrun.owes

theorem UnitRun.dec_owes (hrun : UnitRun .dec bytes s) {st : DecSt} (hst : s.dec.st = st) : DecOwes bytes s st :=
  hst ▸ hrun.owes

/-- The pair at the read position (41_decoder R152, R153). -/
theorem UnitRun.drop_pair (hrun : UnitRun .dec bytes s) (hi : s.dec.i + 1 < s.dec.ilen) :
    bytes.drop s.dec.i =
      s.byteAt .decIbuf s.dec.i :: s.byteAt .decIbuf (s.dec.i + 1) :: bytes.drop (s.dec.i + 2) := by
  rw [← hrun.input, drop_input (u := .dec) (Nat.lt_of_succ_lt hi), drop_input (u := .dec) hi]
  rfl

/-- The advance to the next pair, where the output is the decoding of all pairs before that (41_decoder R156). -/
theorem UnitRun.advance {d : Dec} (hin : (s.setDec d).input .dec = bytes)
    (hout : Reference.DecodesTo bytes ((s.setDec d).output .dec) (bytes.drop (d.i + 2))) :
    UnitRun .dec bytes (s.setDec d.advance) := by
  refine ⟨hin, show DecOwes _ _ (if d.i + 2 < d.ilen then .dRdcnt else .dRet) from ?_⟩
  split_ifs with hlt
  · exact hout
  · rw [← hin, drop_input_nil (u := .dec) (not_lt.1 hlt), hin, Reference.decodesTo_nil] at hout
    exact hout

/-! ### The encoder (40_encoder R121 to R128) -/

section
variable (hrun : UnitRun .enc bytes s)
include hrun

theorem keepsRun_execEEmit (hst : s.enc.st = .eEmit) : KeepsRun .enc bytes (execEEmit s) := by
  have howes : s.output .enc ++ s.enc.count :: s.enc.val :: _ = _ := hrun.enc_owes hst
  simp only [execEEmit]
  split_ifs with hroom
  · refine .next hrun.input (show s.cfg.encOutCap < (Reference.encode bytes).length from ?_)
    rw [← howes]
    simp [State.olen]; omega
  · refine .next hrun.input (show State.output .enc _ ++ _ = _ from ?_)
    rw [output_emit (s := s) s.enc.count s.enc.val, List.append_assoc]
    · exact howes
    all_goals rfl

theorem keepsRun_execEAdv (hst : s.enc.st = .eAdv) : KeepsRun .enc bytes (execEAdv s) := by
  have howes : s.output .enc ++ Reference.encode (bytes.drop (s.enc.i + s.enc.count.toNat)) = _ := hrun.enc_owes hst
  refine .next hrun.input
    (show EncOwes _ _ (if s.enc.i + s.enc.count.toNat < s.enc.ilen then .eOuter else .eRet) from ?_)
  split_ifs with hlt
  · exact howes
  · have hdrop : bytes.drop (s.enc.i + s.enc.count.toNat) = [] :=
      hrun.input ▸ drop_input_nil (u := .enc) (not_lt.1 hlt)
    rw [hdrop, Reference.encode_nil, List.append_nil] at howes
    exact howes

variable (h : Inv s)
include h

theorem keepsRun_execERinit (hst : s.enc.st = .eRinit) : KeepsRun .enc bytes (execERinit s) := by
  have hi : s.enc.i = 0 := h.enc.load_start hst
  refine .next hrun.input (show EncOwes _ _ (if s.enc.i < s.enc.ilen then .eOuter else .eRet) from ?_)
  split_ifs with hlt
  · show [] ++ Reference.encode (bytes.drop s.enc.i) = _
    rw [hi]; rfl
  · have hlen : (s.input .enc).length = s.enc.ilen := input_length ..
    obtain rfl : bytes = [] := List.eq_nil_of_length_eq_zero (by rw [← hrun.input, hlen]; omega)
    rfl

theorem keepsRun_execEOuter (hst : s.enc.st = .eOuter) : KeepsRun .enc bytes (execEOuter s) :=
  have hi : s.enc.i < s.enc.ilen := h.enc.segment (by rw [hst]; rfl)
  .withInputByte (hi.trans_le h.enc.ilen_le) (.next hrun.input (hrun.enc_owes hst))

/-- Where the comparison stops, the function's segment stops (40_encoder R125). -/
theorem keepsRun_segment_done (hst : s.enc.st = .eCmp)
    (hstop : s.enc.count.toNat = 255 ∨ (bytes.drop (s.enc.i + s.enc.count.toNat)).head? ≠ some s.enc.val) :
    KeepsRun .enc bytes (.next (s.setEnc { s.enc with st := .eEmit })) := by
  obtain ⟨hpos, hend, heq⟩ := h.enc.counted (by rw [hst]; rfl)
  have howes : s.output .enc ++ Reference.encode (bytes.drop s.enc.i) = _ := hrun.enc_owes hst
  have hdrop : bytes.drop s.enc.i = _ := hrun.input ▸ drop_input_replicate (u := .enc) _ hend heq
  rw [hdrop, Reference.encode_segment hpos hstop] at howes
  exact .next hrun.input howes

theorem keepsRun_execECmp (hst : s.enc.st = .eCmp) : KeepsRun .enc bytes (execECmp s) := by
  simp only [execECmp]
  split_ifs with hn
  · refine .withInputByte (hn.trans_le h.enc.ilen_le) ?_
    split_ifs with hb
    · exact .next hrun.input (hrun.enc_owes hst)
    · refine keepsRun_segment_done hrun h hst ?_
      rw [← hrun.input, drop_input (u := .enc) hn, List.head?_cons, ne_eq, Option.some_inj, or_iff_not_imp_left]
      have hcount : s.enc.count.toNat < 256 := s.enc.count.isLt
      exact fun hfull heq => hb ⟨heq, by omega⟩
  · refine keepsRun_segment_done hrun h hst (.inr ?_)
    rw [← hrun.input, drop_input_nil (u := .enc) (not_lt.1 hn)]
    simp

/-- Every step of the encoder keeps its run. -/
theorem keepsRun_micro_enc : KeepsRun .enc bytes (takeTurn (.micro .enc) s) := by
  have resting (hb : s.busy .enc = false) : KeepsRun .enc bytes (takeTurn (.micro .enc) s) :=
    micro_resting hb ▸ ⟨s, rfl, hrun⟩
  cases hst : s.enc.st with
  | idle => exact resting (by simp [State.busy, hst, EncSt.active])
  | eLoad => exact micro_eLoad hst ▸ .next hrun.input trivial
  | eRinit => exact micro_eRinit hst ▸ keepsRun_execERinit hrun h hst
  | eOuter => exact micro_eOuter hst ▸ keepsRun_execEOuter hrun h hst
  | eCinit => exact micro_eCinit hst ▸ .next hrun.input (hrun.enc_owes hst)
  | eCmp => exact micro_eCmp hst ▸ keepsRun_execECmp hrun h hst
  | eEmit => exact micro_eEmit hst ▸ keepsRun_execEEmit hrun hst
  | eAdv => exact micro_eAdv hst ▸ keepsRun_execEAdv hrun hst
  | eRet => exact micro_eRet hst ▸ .next hrun.input (hrun.enc_owes hst)
  | done => exact resting (by simp [State.busy, hst, EncSt.active])
  | fault => exact resting (by simp [State.busy, hst, EncSt.active])

end

/-! ### The decoder (41_decoder R151 to R157, R164, R165) -/

section
variable (hrun : UnitRun .dec bytes s)
include hrun

theorem keepsRun_execDInit : KeepsRun .dec bytes (execDInit s) := by
  have hlen : bytes.length = s.dec.ilen := by rw [← hrun.input]; exact input_length ..
  simp only [execDInit]
  split_ifs with hodd hpos
  · exact .next hrun.input (.inl ⟨rfl, Reference.decode_of_odd _ (hlen ▸ hodd)⟩)
  · have heven : bytes.length % 2 = 0 := by omega
    exact .next hrun.input (Reference.decodesTo_self heven)
  · obtain rfl : bytes = [] := List.eq_nil_of_length_eq_zero (by omega)
    exact .next hrun.input rfl

theorem keepsRun_execDLoop (hst : s.dec.st = .dLoop) : KeepsRun .dec bytes (execDLoop s) := by
  refine .next hrun.input
    (show DecOwes _ _ (if s.dec.j.toNat < s.dec.count.toNat then .dAppend else .dNext) from ?_)
  split_ifs <;> exact hrun.dec_owes hst

/-- The pair word appends its run or fills the output (41_decoder R164). -/
theorem keepsRun_execPair {count value : Byte}
    (hpair : Reference.DecodesTo bytes (s.output .dec ++ List.replicate count.toNat value) (bytes.drop (s.dec.i + 2))) :
    KeepsRun .dec bytes (execPair count value s) := by
  simp only [execPair]
  split_ifs with hroom
  · obtain ⟨out, hout, hle⟩ := hpair.exists_result
    simp only [List.length_append, output_length, List.length_replicate, State.olen] at hle
    exact .next hrun.input (.inr ⟨rfl, out, hout, by simp only [raise_dec, setDec_cfg]; omega⟩)
  · refine ⟨_, rfl, .advance hrun.input ?_⟩
    rw [output_appendRun (s := s) count.toNat value]
    · exact hpair
    all_goals rfl

/-- The pair word with count 0 appends nothing (41_decoder R165). -/
theorem keepsRun_execPairZero {value : Byte}
    (hpair : Reference.DecodesTo bytes (s.output .dec) (bytes.drop (s.dec.i + 2))) :
    KeepsRun .dec bytes (execPairZero value s) :=
  ⟨_, rfl, .advance hrun.input hpair⟩

variable (h : Inv s)
include h

theorem keepsRun_execDRdcnt (hst : s.dec.st = .dRdcnt) : KeepsRun .dec bytes (execDRdcnt s) :=
  have hi := (h.dec.pair (by rw [hst]; rfl)).2
  .withInputByte ((Nat.lt_of_succ_lt hi).trans_le h.dec.ilen_le) (.next hrun.input (hrun.dec_owes hst))

theorem keepsRun_execDRdval (hst : s.dec.st = .dRdval) : KeepsRun .dec bytes (execDRdval s) := by
  have hi := (h.dec.pair (by rw [hst]; rfl)).2
  have howes : Reference.DecodesTo bytes (s.output .dec) (bytes.drop s.dec.i) := hrun.dec_owes hst
  rw [hrun.drop_pair hi, ← h.dec.count_read hst] at howes
  exact .withInputByte (hi.trans_le h.dec.ilen_le) (.next hrun.input howes.pair)

theorem keepsRun_execDAppend (hst : s.dec.st = .dAppend) : KeepsRun .dec bytes (execDAppend s) := by
  have hlt := h.dec.append hst
  have howes : Reference.DecodesTo bytes
      (s.output .dec ++ List.replicate (s.dec.count.toNat - s.dec.j.toNat) s.dec.value) _ := hrun.dec_owes hst
  simp only [execDAppend]
  split_ifs with hroom
  · obtain ⟨out, hout, hle⟩ := howes.exists_result
    simp only [List.length_append, output_length, List.length_replicate, State.olen] at hle
    exact .next hrun.input (.inr ⟨rfl, out, hout, by simp only [raise_dec, setDec_cfg]; omega⟩)
  · have hj : (s.dec.j + 1#8).toNat = s.dec.j.toNat + 1 := by simp; omega
    refine .next hrun.input (show Reference.DecodesTo bytes
      (State.output .dec _ ++ List.replicate (s.dec.count.toNat - (s.dec.j + 1#8).toNat) s.dec.value) _ from ?_)
    rw [output_appendRun (s := s) 1 s.dec.value, List.append_assoc, List.replicate_append_replicate, hj,
      show 1 + (s.dec.count.toNat - (s.dec.j.toNat + 1)) = s.dec.count.toNat - s.dec.j.toNat by omega]
    · exact howes
    all_goals rfl

theorem keepsRun_execDNext (hst : s.dec.st = .dNext) : KeepsRun .dec bytes (execDNext s) := by
  have howes : Reference.DecodesTo bytes
      (s.output .dec ++ List.replicate (s.dec.count.toNat - s.dec.j.toNat) s.dec.value) _ := hrun.dec_owes hst
  rw [h.dec.next hst, Nat.sub_self, List.replicate_zero, List.append_nil] at howes
  exact ⟨_, rfl, .advance hrun.input howes⟩

/-- Every step of the decoder keeps its run. -/
theorem keepsRun_micro_dec : KeepsRun .dec bytes (takeTurn (.micro .dec) s) := by
  have resting (hb : s.busy .dec = false) : KeepsRun .dec bytes (takeTurn (.micro .dec) s) :=
    micro_resting hb ▸ ⟨s, rfl, hrun⟩
  cases hst : s.dec.st with
  | idle => exact resting (by simp [State.busy, hst, DecSt.active])
  | dInit => exact micro_dInit hst ▸ keepsRun_execDInit hrun
  | dRdcnt => exact micro_dRdcnt hst ▸ keepsRun_execDRdcnt hrun h hst
  | dRdval => exact micro_dRdval hst ▸ keepsRun_execDRdval hrun h hst
  | dLoop => exact micro_dLoop hst ▸ keepsRun_execDLoop hrun hst
  | dAppend => exact micro_dAppend hst ▸ keepsRun_execDAppend hrun h hst
  | dNext => exact micro_dNext hst ▸ keepsRun_execDNext hrun h hst
  | dRet => exact micro_dRet hst ▸ .next hrun.input (hrun.dec_owes hst)
  | done => exact resting (by simp [State.busy, hst, DecSt.active])
  | fault => exact resting (by simp [State.busy, hst, DecSt.active])

/-- The pair word keeps the decoder's run. -/
theorem keepsRun_takePair : KeepsRun .dec bytes (takePair s) := by
  simp only [takePair]
  split_ifs with hst
  · have hi := (h.dec.pair (by rw [hst]; rfl)).2
    have hcap : s.dec.i + 1 < s.cfg.inCap .dec := hi.trans_le h.dec.ilen_le
    have howes : Reference.DecodesTo bytes (s.output .dec) (bytes.drop s.dec.i) := hrun.dec_owes hst
    rw [hrun.drop_pair hi] at howes
    refine .withInputByte (by omega) (.withInputByte hcap ?_)
    simp only [runFetched, decode, decodePair16]
    split_ifs with hzero
    · refine keepsRun_execPairZero hrun ?_
      have hpair := howes.pair
      rw [show s.byteAt .decIbuf s.dec.i = 0#8 from hzero] at hpair
      simpa using hpair
    · exact keepsRun_execPair hrun howes.pair
  · exact ⟨s, rfl, hrun⟩

end

end

end Sys2Proof.Machine
end

section
/-! ## 40_encoder R133, 41_decoder R162: how a run ends -/

namespace Sys2Proof.Machine

/-- A run in which the unit is not BUSY has ended, in `DONE` or in `FAULT` (10_state R39). -/
theorem UnitRun.done_or_fault {u : UnitId} {bytes : List Byte} {s : State} (hrun : UnitRun u bytes s)
    (hrest : s.busy u = false) : s.doneFlag u = true ∨ s.errFlag u = true := by
  cases u with
  | enc =>
    cases hst : s.enc.st <;> simp [State.busy, EncSt.active, hst] at hrest
    · exact (hrun.enc_owes hst).elim
    · exact .inl (by simp [State.doneFlag, hst])
    · exact .inr (by simp [State.errFlag, hst])
  | dec =>
    cases hst : s.dec.st <;> simp [State.busy, DecSt.active, hst] at hrest
    · exact (hrun.dec_owes hst).elim
    · exact .inl (by simp [State.doneFlag, hst])
    · exact .inr (by simp [State.errFlag, hst])

theorem not_busy_of_done {u : UnitId} {s : State} (h : s.doneFlag u = true) : s.busy u = false := by
  cases u <;> simp [State.doneFlag] at h <;> simp [State.busy, h, EncSt.active, DecSt.active]

theorem not_busy_of_err {u : UnitId} {s : State} (h : s.errFlag u = true) : s.busy u = false := by
  cases u <;> simp [State.errFlag] at h <;> simp [State.busy, h, EncSt.active, DecSt.active]

theorem doneFlag_of_err {u : UnitId} {s : State} (h : s.errFlag u = true) : s.doneFlag u = false := by
  cases u <;> simp [State.errFlag] at h <;> simp [State.doneFlag, h]

/-- A run that ended in `DONE` has computed what the script is to report (42_host_operations R192). -/
theorem UnitRun.expected_of_done {u : UnitId} {bytes : List Byte} {s : State} (hrun : UnitRun u bytes s) (h : Inv s)
    (hdone : s.doneFlag u = true) : Script.expected s.cfg u bytes = .returned (s.output u) := by
  cases u with
  | enc =>
    have hout : s.output .enc = Reference.encode bytes := hrun.enc_owes (of_decide_eq_true hdone)
    rw [Script.expected, ← hout, if_pos ((output_length .enc s).trans_le h.enc.olen_le)]
  | dec =>
    have hout : Reference.decode bytes = .ok (s.output .dec) := hrun.dec_owes (of_decide_eq_true hdone)
    simp only [Script.expected, hout]
    rw [if_pos ((output_length .dec s).trans_le h.dec.olen_le)]

/-- A run that ended in `FAULT` holds the code the script is to report (60_exceptions R241, R242). -/
theorem UnitRun.expected_of_fault {u : UnitId} {bytes : List Byte} {s : State} (hrun : UnitRun u bytes s) (h : Inv s)
    (herr : s.errFlag u = true) : Script.expected s.cfg u bytes = .failed (s.errCode u) := by
  cases u with
  | enc =>
    have hst : s.enc.st = .fault := of_decide_eq_true herr
    have hover : s.cfg.encOutCap < (Reference.encode bytes).length := hrun.enc_owes hst
    rw [Script.expected, if_neg (not_le.2 hover), State.errCode, h.enc.err_code, if_pos hst]
    rfl
  | dec =>
    rcases hrun.dec_owes (of_decide_eq_true herr) with ⟨hcode, hdecode⟩ | ⟨hcode, out, hdecode, hover⟩
    · simp only [Script.expected, hdecode, State.errCode, hcode]
      rfl
    · simp only [Script.expected, hdecode, State.errCode, hcode]
      rw [if_neg (not_le.2 hover)]
      rfl

/-- `STATUS` of a unit in `DONE` (10_state R42): `STATE` 9, no fault code, `DONE`. -/
theorem status_of_done {u : UnitId} {s : State} (h : Inv s) (hdone : s.doneFlag u = true) : s.status u = 0x902#32 := by
  cases u with
  | enc =>
    have hst : s.enc.st = .done := of_decide_eq_true hdone
    have herr := h.enc.err_none (by simp [hst])
    simp only [State.status, State.stCode, State.errCode, State.errFlag, State.doneFlag, State.busy, hst, herr]
    rfl
  | dec =>
    have hst : s.dec.st = .done := of_decide_eq_true hdone
    have herr := h.dec.err_none (by simp [hst])
    simp only [State.status, State.stCode, State.errCode, State.errFlag, State.doneFlag, State.busy, hst, herr]
    rfl

/-! ### How many steps a run still takes at most (40_encoder R134, 41_decoder R163) -/

/-- In the encoder's state, with the length and scan position `n`, `i` and the count `c`: a segment of `c` bytes takes
`4 + c` steps, which is at most `5 * c`. -/
def EncSt.stepsLeft (n i c : Nat) : EncSt → Nat
  | .idle | .done | .fault => 0
  | .eLoad => 3 + 5 * n
  | .eRinit => 2 + 5 * n
  | .eOuter => 1 + 5 * (n - i)
  | .eCinit => 5 * (n - i)
  | .eCmp => 5 * (n - i) - c
  | .eEmit => 5 * (n - i) - c - 1
  | .eAdv => 5 * (n - i) - c - 2
  | .eRet => 1

/-- In the decoder's state, with the length and read position `n`, `i` and the copies made `j`: a pair of count `c`
takes `4 + 2 * c` steps, which is at most 257 for each of its two bytes. -/
def DecSt.stepsLeft (n i j : Nat) : DecSt → Nat
  | .idle | .done | .fault => 0
  | .dInit => 2 + 257 * n
  | .dRdcnt => 1 + 257 * (n - i)
  | .dRdval => 257 * (n - i)
  | .dLoop => 257 * (n - i) - 1 - 2 * j
  | .dAppend | .dNext => 257 * (n - i) - 2 - 2 * j
  | .dRet => 1

/-- A bound on the steps the unit's run still takes; 0 for a unit at rest. -/
def State.stepsLeft (u : UnitId) (s : State) : Nat :=
  match u with
  | .enc => s.enc.st.stepsLeft s.enc.ilen s.enc.i s.enc.count.toNat
  | .dec => s.dec.st.stepsLeft s.dec.ilen s.dec.i s.dec.j.toNat

theorem stepsLeft_enc {s : State} {st : EncSt} (hst : s.enc.st = st) :
    s.stepsLeft .enc = st.stepsLeft s.enc.ilen s.enc.i s.enc.count.toNat := hst ▸ rfl

theorem stepsLeft_dec {s : State} {st : DecSt} (hst : s.dec.st = st) :
    s.stepsLeft .dec = st.stepsLeft s.dec.ilen s.dec.i s.dec.j.toNat := hst ▸ rfl

theorem EncSt.stepsLeft_le (st : EncSt) (n i c : Nat) : st.stepsLeft n i c ≤ 3 + 5 * n := by
  cases st <;> simp only [EncSt.stepsLeft] <;> omega

theorem DecSt.stepsLeft_le (st : DecSt) (n i j : Nat) : st.stepsLeft n i j ≤ 2 + 257 * n := by
  cases st <;> simp only [DecSt.stepsLeft] <;> omega

theorem stepsLeft_le_stepBound (u : UnitId) (s : State) : s.stepsLeft u ≤ Script.stepBound u (s.ilen u) :=
  match u with
  | .enc => EncSt.stepsLeft_le ..
  | .dec => DecSt.stepsLeft_le ..

theorem stepsLeft_of_resting {u : UnitId} {s : State} (hrest : s.busy u = false) : s.stepsLeft u = 0 := by
  cases u with
  | enc =>
    cases hst : s.enc.st <;> simp [State.busy, hst, EncSt.active] at hrest <;>
      simp [State.stepsLeft, EncSt.stepsLeft, hst]
  | dec =>
    cases hst : s.dec.st <;> simp [State.busy, hst, DecSt.active] at hrest <;>
      simp [State.stepsLeft, DecSt.stepsLeft, hst]

/-- After the encoder's loop test (40_encoder R122, R127). -/
theorem EncSt.stepsLeft_loop_test (n i c : Nat) :
    EncSt.stepsLeft n i c (if i < n then .eOuter else .eRet) ≤ 1 + 5 * (n - i) := by
  split_ifs
  · exact le_rfl
  · exact Nat.le_add_right 1 _

/-- After the decoder's loop test (41_decoder R151, R156). -/
theorem DecSt.stepsLeft_loop_test (n i j : Nat) :
    DecSt.stepsLeft n i j (if i < n then .dRdcnt else .dRet) ≤ 1 + 257 * (n - i) := by
  split_ifs
  · exact le_rfl
  · exact Nat.le_add_right 1 _

/-- The answer is a next state with fewer steps left to the unit than `n`. -/
def LeavesFewer (u : UnitId) (n : Nat) (a : Answer) : Prop := ∃ t, a = .next t ∧ t.stepsLeft u < n

theorem LeavesFewer.withInputByte {s : State} {u : UnitId} {n k : Nat} {go : Byte → Answer}
    (hk : k < s.cfg.inCap u) (hgo : LeavesFewer u n (go (s.byteAt (.input u) k))) :
    LeavesFewer u n (s.withInputByte u k go) := by
  rwa [withInputByte_inside hk]

section
variable {s : State} (h : Inv s)
include h

/-- A comparison counts one byte more or ends the segment (40_encoder R125). -/
theorem leavesFewer_execECmp (hst : s.enc.st = .eCmp) :
    LeavesFewer .enc (5 * (s.enc.ilen - s.enc.i) - s.enc.count.toNat) (execECmp s) := by
  obtain ⟨hpos, hend, -⟩ := h.enc.counted (by rw [hst]; rfl)
  have hstop : LeavesFewer .enc (5 * (s.enc.ilen - s.enc.i) - s.enc.count.toNat)
      (.next (s.setEnc { s.enc with st := .eEmit })) := ⟨_, rfl, by
    show 5 * (s.enc.ilen - s.enc.i) - s.enc.count.toNat - 1 < _; omega⟩
  simp only [execECmp]
  split_ifs with hn
  · refine .withInputByte (hn.trans_le h.enc.ilen_le) ?_
    split_ifs with hb
    · have hcount : (s.enc.count + 1#8).toNat = s.enc.count.toNat + 1 := by simp; omega
      exact ⟨_, rfl, by show 5 * (s.enc.ilen - s.enc.i) - (s.enc.count + 1#8).toNat < _; omega⟩
    · exact hstop
  · exact hstop

/-- Every step of a BUSY encoder leaves it fewer. -/
theorem leavesFewer_micro_enc (hbusy : s.busy .enc = true) :
    LeavesFewer .enc (s.stepsLeft .enc) (takeTurn (.micro .enc) s) := by
  cases hst : s.enc.st with
  | idle | done | fault => simp [State.busy, hst, EncSt.active] at hbusy
  | eLoad =>
    rw [stepsLeft_enc hst, micro_eLoad hst]
    exact ⟨_, rfl, show 2 + 5 * s.enc.ilen < 3 + 5 * s.enc.ilen by omega⟩
  | eRinit =>
    rw [stepsLeft_enc hst, micro_eRinit hst]
    exact ⟨_, rfl, (EncSt.stepsLeft_loop_test ..).trans_lt
      (show 1 + 5 * (s.enc.ilen - s.enc.i) < 2 + 5 * s.enc.ilen by omega)⟩
  | eOuter =>
    rw [stepsLeft_enc hst, micro_eOuter hst]
    exact .withInputByte ((h.enc.segment (by rw [hst]; rfl)).trans_le h.enc.ilen_le)
      ⟨_, rfl, show 5 * (s.enc.ilen - s.enc.i) < 1 + 5 * (s.enc.ilen - s.enc.i) by omega⟩
  | eCinit =>
    have hi : s.enc.i < s.enc.ilen := h.enc.segment (by rw [hst]; rfl)
    rw [stepsLeft_enc hst, micro_eCinit hst]
    exact ⟨_, rfl, show 5 * (s.enc.ilen - s.enc.i) - 1 < 5 * (s.enc.ilen - s.enc.i) by omega⟩
  | eCmp => rw [stepsLeft_enc hst, micro_eCmp hst]; exact leavesFewer_execECmp h hst
  | eEmit =>
    obtain ⟨hpos, hend, -⟩ := h.enc.counted (by rw [hst]; rfl)
    rw [stepsLeft_enc hst, micro_eEmit hst, execEEmit]
    split_ifs
    · exact ⟨_, rfl, show 0 < 5 * (s.enc.ilen - s.enc.i) - s.enc.count.toNat - 1 by omega⟩
    · exact ⟨_, rfl, show 5 * (s.enc.ilen - s.enc.i) - s.enc.count.toNat - 2 <
        5 * (s.enc.ilen - s.enc.i) - s.enc.count.toNat - 1 by omega⟩
  | eAdv =>
    obtain ⟨hpos, hend, -⟩ := h.enc.counted (by rw [hst]; rfl)
    rw [stepsLeft_enc hst, micro_eAdv hst]
    exact ⟨_, rfl, (EncSt.stepsLeft_loop_test ..).trans_lt
      (show 1 + 5 * (s.enc.ilen - (s.enc.i + s.enc.count.toNat)) <
        5 * (s.enc.ilen - s.enc.i) - s.enc.count.toNat - 2 by omega)⟩
  | eRet =>
    rw [stepsLeft_enc hst, micro_eRet hst]
    exact ⟨_, rfl, Nat.zero_lt_one⟩

/-- Every step of a BUSY decoder leaves it fewer. -/
theorem leavesFewer_micro_dec (hbusy : s.busy .dec = true) :
    LeavesFewer .dec (s.stepsLeft .dec) (takeTurn (.micro .dec) s) := by
  have hj : s.dec.j.toNat < 256 := s.dec.j.isLt
  cases hst : s.dec.st with
  | idle | done | fault => simp [State.busy, hst, DecSt.active] at hbusy
  | dInit =>
    rw [stepsLeft_dec hst, micro_dInit hst, execDInit]
    split_ifs
    · exact ⟨_, rfl, show 0 < 2 + 257 * s.dec.ilen by omega⟩
    · exact ⟨_, rfl, show 1 + 257 * (s.dec.ilen - 0) < 2 + 257 * s.dec.ilen by omega⟩
    · exact ⟨_, rfl, show 1 < 2 + 257 * s.dec.ilen by omega⟩
  | dRdcnt =>
    obtain ⟨-, hi⟩ := h.dec.pair (by rw [hst]; rfl)
    rw [stepsLeft_dec hst, micro_dRdcnt hst]
    exact .withInputByte ((Nat.lt_of_succ_lt hi).trans_le h.dec.ilen_le)
      ⟨_, rfl, show 257 * (s.dec.ilen - s.dec.i) < 1 + 257 * (s.dec.ilen - s.dec.i) by omega⟩
  | dRdval =>
    obtain ⟨-, hi⟩ := h.dec.pair (by rw [hst]; rfl)
    rw [stepsLeft_dec hst, micro_dRdval hst]
    exact .withInputByte (hi.trans_le h.dec.ilen_le)
      ⟨_, rfl, show 257 * (s.dec.ilen - s.dec.i) - 1 - 2 * 0 < 257 * (s.dec.ilen - s.dec.i) by omega⟩
  | dLoop =>
    obtain ⟨-, hi⟩ := h.dec.pair (by rw [hst]; rfl)
    rw [stepsLeft_dec hst, micro_dLoop hst, execDLoop]
    split_ifs <;> exact ⟨_, rfl, show 257 * (s.dec.ilen - s.dec.i) - 2 - 2 * s.dec.j.toNat <
      257 * (s.dec.ilen - s.dec.i) - 1 - 2 * s.dec.j.toNat by omega⟩
  | dAppend =>
    obtain ⟨-, hi⟩ := h.dec.pair (by rw [hst]; rfl)
    have hlt := h.dec.append hst
    have hcount : s.dec.count.toNat < 256 := s.dec.count.isLt
    have hnext : (s.dec.j + 1#8).toNat = s.dec.j.toNat + 1 := by simp; omega
    rw [stepsLeft_dec hst, micro_dAppend hst, execDAppend]
    split_ifs
    · exact ⟨_, rfl, show 0 < 257 * (s.dec.ilen - s.dec.i) - 2 - 2 * s.dec.j.toNat by omega⟩
    · exact ⟨_, rfl, show 257 * (s.dec.ilen - s.dec.i) - 1 - 2 * (s.dec.j + 1#8).toNat <
        257 * (s.dec.ilen - s.dec.i) - 2 - 2 * s.dec.j.toNat by omega⟩
  | dNext =>
    obtain ⟨-, hi⟩ := h.dec.pair (by rw [hst]; rfl)
    rw [stepsLeft_dec hst, micro_dNext hst]
    exact ⟨_, rfl, (DecSt.stepsLeft_loop_test s.dec.ilen (s.dec.i + 2) _).trans_lt
      (show 1 + 257 * (s.dec.ilen - (s.dec.i + 2)) < 257 * (s.dec.ilen - s.dec.i) - 2 - 2 * s.dec.j.toNat by omega)⟩
  | dRet =>
    rw [stepsLeft_dec hst, micro_dRet hst]
    exact ⟨_, rfl, Nat.zero_lt_one⟩

/-- Every step of a BUSY unit leaves it fewer (40_encoder R134, 41_decoder R163). -/
theorem leavesFewer_micro {u : UnitId} (hbusy : s.busy u = true) :
    LeavesFewer u (s.stepsLeft u) (takeTurn (.micro u) s) := by
  cases u with
  | enc => exact leavesFewer_micro_enc h hbusy
  | dec => exact leavesFewer_micro_dec h hbusy

end

end Sys2Proof.Machine
end

section
/-! ## 20_memory R73: what the machine's own turns change of a unit, and what stays -/

namespace Sys2Proof.Machine

/-! ### One unit and its surroundings -/

/-- The state differs from `s` in one unit alone. -/
inductive OnlyUnit (s : State) : UnitId → State → Prop where
  | enc (e : Enc) : OnlyUnit s .enc (s.setEnc e)
  | dec (d : Dec) : OnlyUnit s .dec (s.setDec d)

/-- Everything `t` holds of the unit `u` is as in `s`: its registers and buffers, the configuration, the free bytes. -/
structure SameUnit (u : UnitId) (s t : State) : Prop where
  cfg : t.cfg = s.cfg
  resets : t.resets = s.resets
  enc : u = .enc → t.enc = s.enc
  dec : u = .dec → t.dec = s.dec

section
variable {u : UnitId} {s t : State}

theorem SameUnit.refl (u : UnitId) (s : State) : SameUnit u s s := ⟨rfl, rfl, fun _ => rfl, fun _ => rfl⟩

theorem SameUnit.trans {t' : State} (h : SameUnit u s t) (h' : SameUnit u t t') : SameUnit u s t' :=
  ⟨h'.cfg.trans h.cfg, h'.resets.trans h.resets, fun hu => (h'.enc hu).trans (h.enc hu),
    fun hu => (h'.dec hu).trans (h.dec hu)⟩

theorem SameUnit.withOrder (h : SameUnit u s t) (a : List Turn) (n : UnitId) : SameUnit u s (t.withOrder a n) :=
  ⟨h.cfg, h.resets, h.enc, h.dec⟩

theorem SameUnit.answer (u : UnitId) (s : State) (r : Reply) : SameUnit u s (s.answer r) :=
  ⟨rfl, rfl, fun _ => rfl, fun _ => rfl⟩

theorem OnlyUnit.cfg (h : OnlyUnit s u t) : t.cfg = s.cfg := by cases h <;> rfl
theorem OnlyUnit.replies (h : OnlyUnit s u t) : t.replies = s.replies := by cases h <;> rfl
theorem OnlyUnit.agenda (h : OnlyUnit s u t) : t.agenda = s.agenda := by cases h <;> rfl

theorem OnlyUnit.same {v : UnitId} (h : OnlyUnit s v t) (hne : v ≠ u) : SameUnit u s t := by
  cases h with
  | enc e => exact ⟨rfl, rfl, fun hu => absurd hu.symm hne, fun _ => rfl⟩
  | dec d => exact ⟨rfl, rfl, fun _ => rfl, fun hu => absurd hu.symm hne⟩

theorem unitId_ne_other (u : UnitId) : u ≠ u.other := by cases u <;> decide

theorem eq_other_of_ne {v : UnitId} (h : v ≠ u) : v = u.other := by
  revert h; cases u <;> cases v <;> decide

/-! ### What is read of a unit depends on the unit -/

section
variable (h : SameUnit u s t)
include h

theorem SameUnit.busy : t.busy u = s.busy u := by cases u <;> simp [State.busy, h.enc, h.dec]
theorem SameUnit.ilen : t.ilen u = s.ilen u := by cases u <;> simp [State.ilen, h.enc, h.dec]
theorem SameUnit.olen : t.olen u = s.olen u := by cases u <;> simp [State.olen, h.enc, h.dec]
theorem SameUnit.doneFlag : t.doneFlag u = s.doneFlag u := by cases u <;> simp [State.doneFlag, h.enc, h.dec]
theorem SameUnit.errFlag : t.errFlag u = s.errFlag u := by cases u <;> simp [State.errFlag, h.enc, h.dec]
theorem SameUnit.stCode : t.stCode u = s.stCode u := by cases u <;> simp [State.stCode, h.enc, h.dec]
theorem SameUnit.errCode : t.errCode u = s.errCode u := by cases u <;> simp [State.errCode, h.enc, h.dec]
theorem SameUnit.stepsLeft : t.stepsLeft u = s.stepsLeft u := by cases u <;> simp [State.stepsLeft, h.enc, h.dec]

theorem SameUnit.status : t.status u = s.status u := by
  simp only [State.status, h.busy, h.doneFlag, h.errFlag, h.stCode, h.errCode]

theorem SameUnit.byteAt_input (k : Nat) : t.byteAt (.input u) k = s.byteAt (.input u) k :=
  byteAt_congr (by cases u <;> simp [State.buffer, BufferId.input, h.enc, h.dec]) h.resets k

theorem SameUnit.byteAt_output (k : Nat) : t.byteAt (.output u) k = s.byteAt (.output u) k :=
  byteAt_congr (by cases u <;> simp [State.buffer, BufferId.output, h.enc, h.dec]) h.resets k

theorem SameUnit.input : t.input u = s.input u := by
  simp only [State.input, h.ilen]; exact bytes_congr fun k _ => h.byteAt_input k

theorem SameUnit.output : t.output u = s.output u := by
  simp only [State.output, h.olen]; exact bytes_congr fun k _ => h.byteAt_output k

theorem SameUnit.unitOwes (bytes : List Byte) : UnitOwes u bytes t = UnitOwes u bytes s := by
  have hout := h.output
  cases u with
  | enc =>
    have henc := h.enc rfl
    simp only [UnitOwes, henc]
    cases s.enc.st <;> simp only [EncOwes, henc, hout, h.cfg]
  | dec =>
    have hdec := h.dec rfl
    simp only [UnitOwes, hdec]
    cases s.dec.st <;> simp only [DecOwes, hdec, hout, h.cfg]

theorem SameUnit.unitRun {bytes : List Byte} (hrun : UnitRun u bytes s) : UnitRun u bytes t :=
  ⟨h.input.trans hrun.input, h.unitOwes bytes ▸ hrun.owes⟩

end

end

/-! ### The units' turns -/

/-- The turns of the units themselves: their micro-operations and the decoder's pair word. -/
def IsUnitTurn (turn : Turn) : Prop := turn = .micro .enc ∨ turn = .micro .dec ∨ turn = .pair

theorem isUnitTurn_micro (u : UnitId) : IsUnitTurn (.micro u) := by cases u <;> simp [IsUnitTurn]

/-- What a turn of the unit `u` makes of `s`: another state of that unit, the same one if it rests, a run kept. -/
structure UnitStep (u : UnitId) (s t : State) : Prop where
  only : OnlyUnit s u t
  rests : s.busy u = false → t = s
  keeps : ∀ {bytes}, UnitRun u bytes s → UnitRun u bytes t

theorem onlyUnit_of_withInputByte {s t : State} {u v : UnitId} {k : Nat} {go : Byte → Answer}
    (h : s.withInputByte u k go = .next t) (hgo : ∀ b, go b = .next t → OnlyUnit s v t) : OnlyUnit s v t := by
  rw [State.withInputByte] at h
  split_ifs at h
  exact hgo _ h

theorem onlyUnit_micro_enc {s t : State} (h : takeTurn (.micro .enc) s = .next t) : OnlyUnit s .enc t := by
  have resting (hb : s.busy .enc = false) : OnlyUnit s .enc t := by
    rw [micro_resting hb] at h; cases h; exact .enc s.enc
  cases hst : s.enc.st with
  | idle => exact resting (by simp [State.busy, hst, EncSt.active])
  | eLoad => rw [micro_eLoad hst] at h; cases h; exact .enc _
  | eRinit => rw [micro_eRinit hst] at h; cases h; exact .enc _
  | eOuter => rw [micro_eOuter hst] at h; exact onlyUnit_of_withInputByte h fun b hb => by cases hb; exact .enc _
  | eCinit => rw [micro_eCinit hst] at h; cases h; exact .enc _
  | eCmp =>
    rw [micro_eCmp hst, execECmp] at h
    split_ifs at h
    · refine onlyUnit_of_withInputByte h fun b hb => ?_
      split_ifs at hb <;> cases hb <;> exact .enc _
    · cases h; exact .enc _
  | eEmit => rw [micro_eEmit hst, execEEmit] at h; split_ifs at h <;> cases h <;> exact .enc _
  | eAdv => rw [micro_eAdv hst] at h; cases h; exact .enc _
  | eRet => rw [micro_eRet hst] at h; cases h; exact .enc _
  | done => exact resting (by simp [State.busy, hst, EncSt.active])
  | fault => exact resting (by simp [State.busy, hst, EncSt.active])

theorem onlyUnit_micro_dec {s t : State} (h : takeTurn (.micro .dec) s = .next t) : OnlyUnit s .dec t := by
  have resting (hb : s.busy .dec = false) : OnlyUnit s .dec t := by
    rw [micro_resting hb] at h; cases h; exact .dec s.dec
  cases hst : s.dec.st with
  | idle => exact resting (by simp [State.busy, hst, DecSt.active])
  | dInit => rw [micro_dInit hst, execDInit] at h; split_ifs at h <;> cases h <;> exact .dec _
  | dRdcnt => rw [micro_dRdcnt hst] at h; exact onlyUnit_of_withInputByte h fun b hb => by cases hb; exact .dec _
  | dRdval => rw [micro_dRdval hst] at h; exact onlyUnit_of_withInputByte h fun b hb => by cases hb; exact .dec _
  | dLoop => rw [micro_dLoop hst] at h; cases h; exact .dec _
  | dAppend => rw [micro_dAppend hst, execDAppend] at h; split_ifs at h <;> cases h <;> exact .dec _
  | dNext => rw [micro_dNext hst] at h; cases h; exact .dec _
  | dRet => rw [micro_dRet hst] at h; cases h; exact .dec _
  | done => exact resting (by simp [State.busy, hst, DecSt.active])
  | fault => exact resting (by simp [State.busy, hst, DecSt.active])

theorem onlyUnit_takePair {s t : State} (h : takePair s = .next t) : OnlyUnit s .dec t := by
  rw [takePair] at h
  split_ifs at h
  · refine onlyUnit_of_withInputByte h fun count h => onlyUnit_of_withInputByte h fun value h => ?_
    simp only [runFetched, decode, decodePair16] at h
    split_ifs at h
    · cases h; exact .dec _
    · simp only [exec, execPair] at h
      split_ifs at h <;> cases h <;> exact .dec _
  · cases h; exact .dec s.dec

/-- The answer's next state is one in which the run is kept. -/
theorem KeepsRun.of_next {u : UnitId} {bytes : List Byte} {t : State} (h : KeepsRun u bytes (.next t)) :
    UnitRun u bytes t := by
  obtain ⟨t', heq, hrun⟩ := h
  cases heq
  exact hrun

/-- A micro-operation of a unit is a step of that unit. -/
theorem unitStep_micro {s t : State} (hinv : Inv s) {u : UnitId} (h : takeTurn (.micro u) s = .next t) :
    UnitStep u s t := by
  have rests (hb : s.busy u = false) : t = s := by rw [micro_resting hb] at h; cases h; rfl
  cases u with
  | enc => exact ⟨onlyUnit_micro_enc h, rests, fun hrun => (h ▸ keepsRun_micro_enc hrun hinv).of_next⟩
  | dec => exact ⟨onlyUnit_micro_dec h, rests, fun hrun => (h ▸ keepsRun_micro_dec hrun hinv).of_next⟩

/-- The pair word is a step of the decoder (41_decoder R164). -/
theorem unitStep_pair {s t : State} (hinv : Inv s) (h : takeTurn .pair s = .next t) : UnitStep .dec s t := by
  change takePair s = .next t at h
  refine ⟨onlyUnit_takePair h, fun hb => ?_, fun hrun => (h ▸ keepsRun_takePair hrun hinv).of_next⟩
  have hst : s.dec.st ≠ .dRdcnt := fun hst => by simp [State.busy, hst, DecSt.active] at hb
  rw [takePair, if_neg hst] at h
  cases h
  rfl

theorem exists_unitStep {s t : State} (hinv : Inv s) {turn : Turn} (hturn : IsUnitTurn turn)
    (h : takeTurn turn s = .next t) : ∃ u, UnitStep u s t := by
  rcases hturn with rfl | rfl | rfl
  · exact ⟨.enc, unitStep_micro hinv h⟩
  · exact ⟨.dec, unitStep_micro hinv h⟩
  · exact ⟨.dec, unitStep_pair hinv h⟩

theorem UnitStep.not_busy {u v : UnitId} {s t : State} (h : UnitStep v s t) (hrest : s.busy u = false) :
    t.busy u = false := by
  by_cases hv : v = u
  · subst hv; rw [h.rests hrest, hrest]
  · rw [(h.only.same hv).busy, hrest]

/-! ### The machine's own step -/

theorem popTurn_eq_withOrder (s : State) : s.popTurn = s.withOrder s.popTurn.agenda s.popTurn.nextUnit := by
  unfold State.popTurn
  cases s.agenda <;> rfl

/-- A step is the next turn at the state as it was; then the turn is off the order. -/
theorem step_eq_next_turn {s : State} (h : Inv s) :
    ∃ t, takeTurn s.nextTurn s = .next t ∧ Inv t ∧
      step s = .next (t.withOrder s.popTurn.agenda s.popTurn.nextUnit) := by
  obtain ⟨t, ht, hinv⟩ := answersInv_takeTurn h s.nextTurn
  refine ⟨t, ht, hinv, ?_⟩
  rw [step_eq h.cfg, popTurn_eq_withOrder, takeTurn_withOrder, ht, mapNext_next]
  rfl

theorem mem_of_mem_popTurn {s : State} {turn : Turn} (h : turn ∈ s.popTurn.agenda) : turn ∈ s.agenda := by
  unfold State.popTurn at h
  split at h
  · next hnil => exact h
  · next hcons => rw [hcons]; exact List.mem_cons_of_mem _ h

theorem isUnitTurn_nextTurn {s : State} (h : ∀ turn ∈ s.agenda, IsUnitTurn turn) : IsUnitTurn s.nextTurn := by
  unfold State.nextTurn
  split
  · exact isUnitTurn_micro _
  · next hcons => exact h _ (hcons ▸ List.mem_cons_self)

/-- A bound on the machine's own steps until the unit rests, with nothing on the agenda: every second one is the unit's
(70_reset_and_hazards R293, log 4). -/
def State.turnsLeft (u : UnitId) (s : State) : Nat := 2 * s.stepsLeft u - if s.nextUnit = u then 1 else 0

theorem turnsLeft_congr {u : UnitId} {s t : State} (h : SameUnit u s t) (hnext : t.nextUnit = s.nextUnit) :
    t.turnsLeft u = s.turnsLeft u := by
  simp only [State.turnsLeft, h.stepsLeft, hnext]

theorem stepsLeft_pos {u : UnitId} {s : State} (h : Inv s) (hbusy : s.busy u = true) : 0 < s.stepsLeft u := by
  obtain ⟨t, -, hlt⟩ := leavesFewer_micro h hbusy
  omega

theorem not_busy_of_turnsLeft {u : UnitId} {s : State} (h : Inv s) (hleft : s.turnsLeft u = 0) : s.busy u = false := by
  rw [Bool.eq_false_iff]
  intro hbusy
  have := stepsLeft_pos h hbusy
  rw [State.turnsLeft] at hleft
  split_ifs at hleft <;> omega

/-- A unit's own step uses up a step, where there is one. -/
theorem stepsLeft_micro {u : UnitId} {s t : State} (h : Inv s) (ht : takeTurn (.micro u) s = .next t) :
    t.stepsLeft u ≤ s.stepsLeft u - 1 := by
  cases hb : s.busy u with
  | true =>
    obtain ⟨t', ht', hlt⟩ := leavesFewer_micro h hb
    cases ht.symm.trans ht'
    omega
  | false => rw [(unitStep_micro h ht).rests hb, stepsLeft_of_resting hb]

/-- With nothing on the agenda every step of the machine brings the unit nearer to its rest. -/
theorem turnsLeft_step {u : UnitId} {s t : State} (h : Inv s) (hagenda : s.agenda = [])
    (hstep : step s = .next t) : t.turnsLeft u ≤ s.turnsLeft u - 1 := by
  obtain ⟨t', ht', -, hstep'⟩ := step_eq_next_turn h
  rw [nextTurn_nil s hagenda] at ht'
  rw [popTurn_nil s hagenda, hstep, Host.Outcome.next.injEq] at hstep'
  subst hstep'
  by_cases hu : s.nextUnit = u
  · subst hu
    have hother : s.nextUnit.other ≠ s.nextUnit := (unitId_ne_other _).symm
    have hfewer := stepsLeft_micro h ht'
    show 2 * t'.stepsLeft _ - (if s.nextUnit.other = s.nextUnit then 1 else 0) ≤ _
    rw [if_neg hother, State.turnsLeft, if_pos rfl]
    omega
  · have hsame : SameUnit u s t' := (unitStep_micro h ht').only.same hu
    have hother : s.nextUnit.other = u := (eq_other_of_ne (Ne.symm hu)).symm
    show 2 * t'.stepsLeft _ - (if s.nextUnit.other = u then 1 else 0) ≤ _
    rw [if_pos hother, State.turnsLeft, if_neg hu, hsame.stepsLeft]
    omega

end Sys2Proof.Machine
end

section
/-! ## 30_encoding R103, 42_host_operations R193: the host's moves -/

namespace Sys2Proof.Machine

/-! ### What the host writes to a unit at rest (42_host_operations R181 to R183) -/

section
variable {s : State} {u : UnitId} (hrest : s.busy u = false)
include hrest

theorem writeIbuf_of_resting {k : Nat} (hk : k < s.cfg.inCap u) (b : Byte) :
    OnlyUnit s u (s.writeIbuf u k b) ∧ (s.writeIbuf u k b).busy u = false ∧ (s.writeIbuf u k b).ilen u = s.ilen u ∧
      ∀ k', (s.writeIbuf u k b).byteAt (.input u) k' = if k' = k then b else s.byteAt (.input u) k' := by
  have hbyte (m : Memory) (c : Byte) (k' : Nat) :
      ((Memory.write m k b).find k').getD c = if k' = k then b else (m.find k').getD c := by
    rw [Memory.find_write]; split_ifs <;> rfl
  cases u with
  | enc => rw [writeIbuf_enc hrest hk]; exact ⟨.enc _, hrest, rfl, fun k' => hbyte ..⟩
  | dec => rw [writeIbuf_dec hrest hk]; exact ⟨.dec _, hrest, rfl, fun k' => hbyte ..⟩

theorem writeIlen_of_resting {n : Word32} (hn : n.toNat ≤ s.cfg.inCap u) :
    OnlyUnit s u (s.writeIlen u n) ∧ (s.writeIlen u n).busy u = false ∧ (s.writeIlen u n).ilen u = n.toNat ∧
      ∀ k, (s.writeIlen u n).byteAt (.input u) k = s.byteAt (.input u) k := by
  cases u with
  | enc => rw [writeIlen_enc hrest hn]; exact ⟨.enc _, hrest, rfl, fun k => rfl⟩
  | dec => rw [writeIlen_dec hrest hn]; exact ⟨.dec _, hrest, rfl, fun k => rfl⟩

/-- A start begins a run on the unit's input (42_host_operations R183). -/
theorem start_of_resting : OnlyUnit s u (s.start u) ∧ UnitRun u (s.input u) (s.start u) := by
  cases u with
  | enc => rw [start_enc hrest]; exact ⟨.enc _, rfl, trivial⟩
  | dec => rw [start_dec hrest]; exact ⟨.dec _, rfl, trivial⟩

end

namespace Script

/-! ### The writes of a `LOAD`, in any order -/

theorem mem_load {u : UnitId} {bytes : List Byte} {turn : Turn} :
    turn ∈ load u bytes ↔ (∃ k b, bytes[k]? = some b ∧ turn = .call (.wrIbuf u k b)) ∨
      turn = .call (.wrIlen u (zext32 bytes.length)) := by
  simp only [load, List.mem_append, List.mem_map, List.mem_singleton, Prod.exists, List.mem_zipIdx_iff_getElem?]
  refine or_congr_left ⟨fun ⟨b, k, hb, ht⟩ => ⟨k, b, hb, ht.symm⟩, fun ⟨k, b, hb, ht⟩ => ⟨b, k, hb, ht.symm⟩⟩

/-- What a `LOAD` of `bytes` has brought about while the writes `rem` are still to come. -/
structure Loaded (u : UnitId) (bytes : List Byte) (rem : List Turn) (s : State) : Prop where
  byte : ∀ k b, bytes[k]? = some b → s.byteAt (.input u) k = b ∨ Turn.call (.wrIbuf u k b) ∈ rem
  length : s.ilen u = bytes.length ∨ Turn.call (.wrIlen u (zext32 bytes.length)) ∈ rem

theorem Loaded.of_perm {u : UnitId} {bytes : List Byte} {writes : List Turn} (h : writes.Perm (load u bytes))
    (s : State) : Loaded u bytes writes s :=
  ⟨fun k b hb => .inr (h.mem_iff.2 (mem_load.2 (.inl ⟨k, b, hb, rfl⟩))),
    .inr (h.mem_iff.2 (mem_load.2 (.inr rfl)))⟩

theorem Loaded.congr {u : UnitId} {bytes : List Byte} {rem : List Turn} {s t : State} (h : Loaded u bytes rem s)
    (hsame : SameUnit u s t) : Loaded u bytes rem t :=
  ⟨fun k b hb => by rw [hsame.byteAt_input]; exact h.byte k b hb, by rw [hsame.ilen]; exact h.length⟩

/-- When all writes are done the unit's input is the buffer. -/
theorem Loaded.input {u : UnitId} {bytes : List Byte} {s : State} (h : Loaded u bytes [] s) : s.input u = bytes := by
  have hlen : s.ilen u = bytes.length := h.length.resolve_right (List.not_mem_nil)
  refine List.ext_getElem? fun k => ?_
  rw [State.input, bytes_getElem?, hlen]
  split_ifs with hk
  · have hb : bytes[k]? = some bytes[k] := List.getElem?_eq_getElem hk
    rw [hb, (h.byte k _ hb).resolve_right List.not_mem_nil]
  · exact (List.getElem?_eq_none (not_lt.1 hk)).symm

theorem zext32_toNat {s : State} (h : Inv s) {u : UnitId} {n : Nat} (hn : n ≤ s.cfg.inCap u ∨ n ≤ s.cfg.outCap u) :
    (zext32 n).toNat = n := by
  obtain ⟨hin, hout, hmax⟩ := Params.wf_caps h.cfg u
  exact Nat.mod_eq_of_lt (by omega)

/-- One write of the `LOAD` (42_host_operations R193 (2)). -/
theorem Loaded.write {u : UnitId} {bytes : List Byte} {turn : Turn} {rem : List Turn} {s : State} (hinv : Inv s)
    (hfit : bytes.length ≤ s.cfg.inCap u) (hrest : s.busy u = false) (hturn : turn ∈ load u bytes)
    (h : Loaded u bytes (turn :: rem) s) :
    ∃ t, takeTurn turn s = .next t ∧ OnlyUnit s u t ∧ t.busy u = false ∧ Loaded u bytes rem t := by
  rcases mem_load.1 hturn with ⟨k, b, hb, rfl⟩ | rfl
  · have hk : k < bytes.length := (List.getElem?_eq_some_iff.1 hb).1
    obtain ⟨honly, hrest', hlen, hbyte⟩ := writeIbuf_of_resting hrest (hk.trans_le hfit) b
    refine ⟨_, turn_wrIbuf u k b s, honly, hrest', fun k' b' hb' => ?_, ?_⟩
    · rw [hbyte]
      split_ifs with hkk
      · rw [hkk, hb, Option.some_inj] at hb'
        exact .inl hb'
      · exact (h.byte k' b' hb').imp_right (List.mem_of_ne_of_mem (by simp [hkk]))
    · rw [hlen]
      exact h.length.imp_right (List.mem_of_ne_of_mem (by simp))
  · have hn := zext32_toNat hinv (.inl hfit)
    obtain ⟨honly, hrest', hlen, hbyte⟩ := writeIlen_of_resting hrest (n := zext32 bytes.length) (hn.symm ▸ hfit)
    refine ⟨_, turn_wrIlen u _ s, honly, hrest', fun k' b' hb' => ?_, .inl (hlen.trans hn)⟩
    rw [hbyte]
    exact (h.byte k' b' hb').imp_right (List.mem_of_ne_of_mem (by simp))

/-! ### A call from its first write to its report -/

/-- The replies of polls that found the unit BUSY. -/
def AllBusy (polls : List Reply) : Prop := ∀ p ∈ polls, ∃ w : Word32, p = .reg w ∧ w.getLsbD 0 = true

/-- A host that has read the bytes `front` of a result and has `n` more to read. -/
def Caller.reading (u : UnitId) (front : List Byte) (n : Nat) : Caller :=
  ⟨(List.range' front.length n).map (.readByte u), front, none⟩

theorem Caller.reading_succ (u : UnitId) (front : List Byte) (n : Nat) :
    Caller.reading u front (n + 1) =
      ⟨.readByte u front.length :: (List.range' (front.length + 1) n).map (.readByte u), front, none⟩ := rfl

/-- Where a host stands that calls the unit `u` on `bytes`, and what it has seen since the state `origin`. -/
inductive CallPhase (origin : State) (u : UnitId) (bytes : List Byte) : Caller → State → Prop where
  /-- the writes `rem` and the start are still to come -/
  | loading {rem : List Turn} {s : State} (hrem : ∀ turn ∈ rem, turn ∈ load u bytes) (hrest : s.busy u = false)
      (hloaded : Loaded u bytes rem s) (hreplies : s.replies = origin.replies) :
      CallPhase origin u bytes (.begin (callUnit u rem)) s
  | polling {polls : List Reply} {s : State} (hpolls : AllBusy polls) (hrun : UnitRun u bytes s)
      (hreplies : s.replies = origin.replies ++ polls) :
      CallPhase origin u bytes ⟨[.poll u, .ifDone, .readLength u], [], none⟩ s
  /-- the poll has found `DONE` -/
  | finished {polls : List Reply} {s : State} (hpolls : AllBusy polls) (hrun : UnitRun u bytes s)
      (hdone : s.doneFlag u = true) (hreplies : s.replies = origin.replies ++ polls ++ [.reg 0x902#32]) :
      CallPhase origin u bytes ⟨[.readLength u], [], none⟩ s
  /-- the bytes `front` of the result are read, the bytes `back` are still to come -/
  | reading {polls : List Reply} {front back : List Byte} {s : State} (hpolls : AllBusy polls)
      (hrun : UnitRun u bytes s) (hdone : s.doneFlag u = true) (hout : s.output u = front ++ back)
      (hreplies : s.replies = origin.replies ++ polls ++
        .reg 0x902#32 :: .reg (BitVec.ofNat 32 (s.output u).length) :: front.map .byte) :
      CallPhase origin u bytes (.reading u front back.length) s
  /-- the poll has found a fault -/
  | failed {polls : List Reply} {s : State} (hpolls : AllBusy polls) (hrun : UnitRun u bytes s)
      (herr : s.errFlag u = true) (hreplies : s.replies = origin.replies ++ polls ++ [.reg (s.status u)]) :
      CallPhase origin u bytes ⟨[], [], some (s.errCode u)⟩ s

/-- The machine around a call on the unit `u`: what is on the agenda was there at the start, and the other unit is as it
was if it rested. -/
structure Scene (origin : State) (u : UnitId) (s : State) : Prop where
  inv : Inv s
  cfg : s.cfg = origin.cfg
  agenda : ∀ turn ∈ s.agenda, turn ∈ origin.agenda
  other : origin.busy u.other = false → SameUnit u.other origin s

/-- A host at work on a call, and the machine. -/
structure Calling (origin : State) (u : UnitId) (bytes : List Byte) (h : Caller) (s : State) : Prop where
  scene : Scene origin u s
  phase : CallPhase origin u bytes h s

section
variable {origin : State} {u : UnitId} {bytes : List Byte} {h h' : Caller} {s s' t : State}

theorem CallPhase.congr (hphase : CallPhase origin u bytes h s) (hsame : SameUnit u s t)
    (hreplies : t.replies = s.replies) : CallPhase origin u bytes h t := by
  cases hphase with
  | loading hrem hrest hloaded hr =>
    exact .loading hrem (hsame.busy.trans hrest) (hloaded.congr hsame) (hreplies.trans hr)
  | polling hpolls hrun hr => exact .polling hpolls (hsame.unitRun hrun) (hreplies.trans hr)
  | finished hpolls hrun hdone hr =>
    exact .finished hpolls (hsame.unitRun hrun) (hsame.doneFlag.trans hdone) (hreplies.trans hr)
  | reading hpolls hrun hdone hout hr =>
    exact .reading hpolls (hsame.unitRun hrun) (hsame.doneFlag.trans hdone) (hsame.output.trans hout)
      (by rw [hreplies, hr, hsame.output])
  | failed hpolls hrun herr hr =>
    rw [← hsame.errCode]
    exact .failed hpolls (hsame.unitRun hrun) (hsame.errFlag.trans herr) (by rw [hreplies, hr, hsame.status])

/-- A step of either unit changes a call only while the host polls, and then keeps the unit's run. -/
theorem CallPhase.unitStep (hphase : CallPhase origin u bytes h s) {v : UnitId} (hstep : UnitStep v s t) :
    CallPhase origin u bytes h t := by
  by_cases hv : v = u
  · subst hv
    cases hphase with
    | polling hpolls hrun hr => exact .polling hpolls (hstep.keeps hrun) (hstep.only.replies.trans hr)
    | loading hrem hrest hloaded hr => rw [hstep.rests hrest]; exact .loading hrem hrest hloaded hr
    | finished hpolls hrun hdone hr =>
      rw [hstep.rests (not_busy_of_done hdone)]; exact .finished hpolls hrun hdone hr
    | reading hpolls hrun hdone hout hr =>
      rw [hstep.rests (not_busy_of_done hdone)]; exact .reading hpolls hrun hdone hout hr
    | failed hpolls hrun herr hr =>
      rw [hstep.rests (not_busy_of_err herr)]; exact .failed hpolls hrun herr hr
  · exact hphase.congr (hstep.only.same hv) hstep.only.replies

theorem Scene.withOrder (hscene : Scene origin u s) {a : List Turn} (ha : ∀ turn ∈ a, turn ∈ s.agenda) (n : UnitId) :
    Scene origin u (s.withOrder a n) :=
  ⟨hscene.inv.congr rfl rfl rfl rfl, hscene.cfg, fun turn hturn => hscene.agenda turn (ha turn hturn),
    fun hrest => (hscene.other hrest).withOrder a n⟩

theorem Scene.onlyUnit (hscene : Scene origin u s) (hinv : Inv t) (honly : OnlyUnit s u t) : Scene origin u t :=
  ⟨hinv, honly.cfg.trans hscene.cfg, honly.agenda ▸ hscene.agenda,
    fun hrest => (hscene.other hrest).trans (honly.same (unitId_ne_other u))⟩

theorem Scene.answer (hscene : Scene origin u s) (r : Reply) : Scene origin u (s.answer r) :=
  ⟨hscene.inv.answer r, hscene.cfg, hscene.agenda, fun hrest => (hscene.other hrest).trans (.answer _ s r)⟩

theorem Scene.unitStep (hscene : Scene origin u s) (hinv : Inv t) {v : UnitId} (hstep : UnitStep v s t) :
    Scene origin u t := by
  by_cases hv : v = u
  · exact hscene.onlyUnit hinv (hv ▸ hstep.only)
  · obtain rfl := eq_other_of_ne hv
    refine ⟨hinv, hstep.only.cfg.trans hscene.cfg, hstep.only.agenda ▸ hscene.agenda, fun hrest => ?_⟩
    have hsame := hscene.other hrest
    rwa [hstep.rests (hsame.busy.trans hrest)]

/-! ### One move, and how it brings the call nearer to its end -/

/-- The writes and the start still to come. -/
def Command.isAsk : Command → Bool
  | .ask _ => true
  | .poll _ | .ifDone | .readLength _ | .readByte _ _ => false

def Caller.asksLeft (h : Caller) : Nat := h.todo.countP Command.isAsk

/-- The moves the host still makes where the unit rests and its result has at most `cap` bytes. -/
def Caller.readsLeft (cap : Nat) (h : Caller) : Nat :=
  match h.todo with
  | .poll _ :: _ => 2 + cap
  | .readLength _ :: _ => 1 + cap
  | todo => todo.length

/-- `k` with one taken off by a move of the mover `m`. -/
def spent (m mover : Mover) (k : Nat) : Nat := if mover = m then k - 1 else k

/-- What the move of `m` has brought nearer to its end. -/
structure Moved (u : UnitId) (m : Mover) (h : Caller) (s : State) (h' : Caller) (s' : State) : Prop where
  asks : h'.asksLeft ≤ spent .host m h.asksLeft
  turns : s.agenda = [] → h.asksLeft = 0 → s'.turnsLeft u ≤ spent .machine m (s.turnsLeft u)
  rests : s.busy u = false → h.asksLeft = 0 → s'.busy u = false
  reads : s.busy u = false → h.asksLeft = 0 →
    h'.readsLeft (s.cfg.outCap u) ≤ spent .host m (h.readsLeft (s.cfg.outCap u))

/-- When the unit is started, it stays so. -/
theorem Moved.asks_zero {m : Mover} (hmoved : Moved u m h s h' s') (hasks : h.asksLeft = 0) : h'.asksLeft = 0 := by
  have hle := hmoved.asks
  rwa [hasks, spent, Nat.zero_sub, ite_self, Nat.le_zero] at hle

/-- The move of `m` is made, the call goes on or is over. -/
def Moves (origin : State) (u : UnitId) (bytes : List Byte) (m : Mover) (h : Caller) (s : State) : Prop :=
  ∃ h' s', perform [m] h s = .next (h', s') ∧ Calling origin u bytes h' s' ∧ Moved u m h s h' s'

theorem Moved.of_ask (hlt : h'.asksLeft < h.asksLeft) : Moved u .host h s h' s' where
  asks := Nat.le_sub_one_of_lt hlt
  turns _ h0 := absurd h0 (by omega)
  rests _ h0 := absurd h0 (by omega)
  reads _ h0 := absurd h0 (by omega)

theorem Moved.of_read (hsame : SameUnit u s s') (hnext : s'.nextUnit = s.nextUnit) (hasks : h'.asksLeft = 0)
    (hreads : s.busy u = false → h'.readsLeft (s.cfg.outCap u) ≤ h.readsLeft (s.cfg.outCap u) - 1) :
    Moved u .host h s h' s' where
  asks := hasks.trans_le (Nat.zero_le _)
  turns _ _ := (turnsLeft_congr hsame hnext).le
  rests hrest _ := hsame.busy.trans hrest
  reads hrest _ := hreads hrest

theorem Moved.idle (hover : h.todo = []) : Moved u .host h s h s where
  asks := by simp [Caller.asksLeft, hover]
  turns _ _ := le_rfl
  rests hrest _ := hrest
  reads _ _ := by simp [Caller.readsLeft, hover]

theorem Moved.machine (hturns : s.agenda = [] → s'.turnsLeft u ≤ s.turnsLeft u - 1)
    (hrests : s.busy u = false → s'.busy u = false) : Moved u .machine h s h s' where
  asks := le_rfl
  turns hagenda _ := hturns hagenda
  rests hrest _ := hrests hrest
  reads _ _ := le_rfl

/-- The machine's own step: one of the units moves. -/
theorem Calling.machine_move (hcall : Calling origin u bytes h s) (hagenda : ∀ turn ∈ origin.agenda, IsUnitTurn turn) :
    Moves origin u bytes .machine h s := by
  obtain ⟨hscene, hphase⟩ := hcall
  obtain ⟨t, ht, hinv, hstep⟩ := step_eq_next_turn hscene.inv
  obtain ⟨v, hv⟩ := exists_unitStep hscene.inv
    (isUnitTurn_nextTurn fun turn hturn => hagenda turn (hscene.agenda turn hturn)) ht
  have hscene' : Scene origin u (t.withOrder s.popTurn.agenda s.popTurn.nextUnit) :=
    (hscene.unitStep hinv hv).withOrder (fun turn hturn => hv.only.agenda ▸ mem_of_mem_popTurn hturn) _
  exact ⟨h, _, perform_machine hstep [] h,
    ⟨hscene', (hphase.unitStep hv).congr ((SameUnit.refl u t).withOrder ..) rfl⟩,
    .machine (fun hnil => turnsLeft_step hscene.inv hnil hstep) fun hrest => hv.not_busy hrest⟩

/-! ### The host's moves -/

theorem inv_of_takeTurn {turn : Turn} (hinv : Inv s) (ht : takeTurn turn s = .next t) : Inv t := by
  obtain ⟨t', ht', hinv'⟩ := answersInv_takeTurn hinv turn
  cases ht.symm.trans ht'
  exact hinv'

@[simp] theorem asksLeft_reading (u : UnitId) (front : List Byte) (n : Nat) :
    (Caller.reading u front n).asksLeft = 0 := by
  simp [Caller.reading, Caller.asksLeft, List.countP_eq_zero, Command.isAsk]

@[simp] theorem readsLeft_reading (cap : Nat) (u : UnitId) (front : List Byte) (n : Nat) :
    (Caller.reading u front n).readsLeft cap = n := by
  cases n with
  | zero => rfl
  | succ n => rw [Caller.reading_succ]; simp [Caller.readsLeft]

theorem asksLeft_begin (u : UnitId) (rem : List Turn) : (Caller.begin (callUnit u rem)).asksLeft = rem.length + 1 := by
  have hall : (rem.map Command.ask).countP Command.isAsk = rem.length := by
    rw [List.countP_eq_length.2 (by simp [Command.isAsk]), List.length_map]
  simp only [Caller.asksLeft, Caller.begin, callUnit, List.countP_append, hall]
  rfl

/-- The host starts the unit once everything is written. -/
theorem Scene.start_move (hscene : Scene origin u s) (hrest : s.busy u = false) (hloaded : Loaded u bytes [] s)
    (hreplies : s.replies = origin.replies) : Moves origin u bytes .host (.begin (callUnit u [])) s := by
  have ht : takeTurn (.ctrl u 1#32) s = .next (s.start u) := turn_ctrl ..
  obtain ⟨honly, hrun⟩ := start_of_resting hrest
  rw [hloaded.input] at hrun
  have hscene' := hscene.onlyUnit (inv_of_takeTurn hscene.inv ht) honly
  refine ⟨_, _, perform_host hscene.inv.cfg (request_ask ..) ht [],
    ⟨hscene', .polling (polls := []) nofun hrun ?_⟩, .of_ask Nat.zero_lt_one⟩
  rw [honly.replies, hreplies, List.append_nil]

/-- The host performs one write of the `LOAD`. -/
theorem Scene.write_move (hscene : Scene origin u s) (hfit : bytes.length ≤ origin.cfg.inCap u) {turn : Turn}
    {rem : List Turn} (hrem : ∀ t ∈ turn :: rem, t ∈ load u bytes) (hrest : s.busy u = false)
    (hloaded : Loaded u bytes (turn :: rem) s) (hreplies : s.replies = origin.replies) :
    Moves origin u bytes .host (.begin (callUnit u (turn :: rem))) s := by
  obtain ⟨t, ht, honly, hrest', hloaded'⟩ :=
    hloaded.write hscene.inv (hscene.cfg ▸ hfit) hrest (hrem turn List.mem_cons_self)
  have hscene' := hscene.onlyUnit (inv_of_takeTurn hscene.inv ht) honly
  have hrem' : ∀ t ∈ rem, t ∈ load u bytes := fun t ht => hrem t (List.mem_cons_of_mem _ ht)
  refine ⟨_, _, perform_host hscene.inv.cfg (request_ask ..) ht [],
    ⟨hscene', .loading hrem' hrest' hloaded' (honly.replies.trans hreplies)⟩,
    .of_ask (h' := .begin (callUnit u rem)) ?_⟩
  rw [asksLeft_begin, asksLeft_begin]
  exact Nat.lt_succ_self _

/-- A read of the host: the reply is the last one, and nothing else happens. -/
theorem perform_read {turn : Turn} {r : Reply} (hinv : Inv s) (hrequest : h.request = some turn)
    (ht : takeTurn turn s = .next (s.answer r)) : perform [.host] h s = .next (h.hear (some r), s.answer r) := by
  rw [perform_host hinv.cfg hrequest ht, answer_replies, List.getLast?_concat, perform_nil]

/-- A poll finds the unit BUSY, or `DONE`, or in a fault (42_host_operations R193 (4), (5)). -/
theorem Scene.poll_move (hscene : Scene origin u s) {polls : List Reply} (hpolls : AllBusy polls)
    (hrun : UnitRun u bytes s) (hreplies : s.replies = origin.replies ++ polls) :
    Moves origin u bytes .host ⟨[.poll u, .ifDone, .readLength u], [], none⟩ s := by
  have hsame := SameUnit.answer u s (.reg (s.status u))
  have hperform := perform_read (h := ⟨[.poll u, .ifDone, .readLength u], [], none⟩) hscene.inv (request_poll ..)
    (turn_rdStatus u s)
  have hbusy := status_busy s u
  have hdoneBit := status_done s u
  cases hb : s.busy u with
  | true =>
    rw [hear_poll_busy _ _ _ (hbusy.trans hb)] at hperform
    refine ⟨_, _, hperform, ⟨hscene.answer _, .polling (polls := polls ++ [.reg (s.status u)]) (fun p hp => ?_)
      (hsame.unitRun hrun) ?_⟩, .of_read hsame rfl rfl fun hrest => ?_⟩
    · rcases List.mem_append.1 hp with hp | hp
      · exact hpolls p hp
      · exact ⟨_, List.mem_singleton.1 hp, hbusy.trans hb⟩
    · rw [answer_replies, hreplies, List.append_assoc]
    · simp [hb] at hrest
  | false =>
    rcases hrun.done_or_fault hb with hdone | herr
    · rw [hear_poll_done _ _ _ (hbusy.trans hb) (hdoneBit.trans hdone)] at hperform
      refine ⟨_, _, hperform, ⟨hscene.answer _, .finished hpolls (hsame.unitRun hrun) (hsame.doneFlag.trans hdone) ?_⟩,
        .of_read hsame rfl rfl fun _ => ?_⟩
      · rw [answer_replies, hreplies, status_of_done hscene.inv hdone]
      · simp only [Caller.readsLeft]; omega
    · rw [hear_poll_failed _ _ _ (hbusy.trans hb) (hdoneBit.trans (doneFlag_of_err herr)), status_errCode] at hperform
      refine ⟨_, _, hperform, ⟨hscene.answer _, ?_⟩, .of_read hsame rfl rfl fun _ => Nat.zero_le _⟩
      rw [← hsame.errCode]
      refine .failed hpolls (hsame.unitRun hrun) (hsame.errFlag.trans herr) ?_
      rw [answer_replies, hreplies, hsame.status]

/-- The host reads the length of the result (42_host_operations R193 (6)). -/
theorem Scene.length_move (hscene : Scene origin u s) {polls : List Reply} (hpolls : AllBusy polls)
    (hrun : UnitRun u bytes s) (hdone : s.doneFlag u = true)
    (hreplies : s.replies = origin.replies ++ polls ++ [.reg 0x902#32]) :
    Moves origin u bytes .host ⟨[.readLength u], [], none⟩ s := by
  have hsame := SameUnit.answer u s (.reg (s.readReg u 3#4))
  have hperform := perform_read (h := ⟨[.readLength u], [], none⟩) hscene.inv (request_readLength ..)
    (turn_rdReg u 3#4 s)
  have hreg : s.readReg u 3#4 = BitVec.ofNat 32 (s.output u).length := by rw [output_length]; rfl
  have hlength : (s.readReg u 3#4).toNat = (s.output u).length := by
    rw [output_length]; exact zext32_toNat hscene.inv (.inr (hscene.inv.olen_le u))
  rw [hear_readLength, hlength, List.append_nil, List.range_eq_range'] at hperform
  refine ⟨_, _, hperform, ⟨hscene.answer _, .reading (front := []) (back := s.output u) hpolls (hsame.unitRun hrun)
    (hsame.doneFlag.trans hdone) hsame.output ?_⟩, .of_read hsame rfl (asksLeft_reading u [] _) fun _ => ?_⟩
  · rw [answer_replies, hreplies, hsame.output, hreg, List.append_assoc, List.append_assoc, List.append_assoc]
    rfl
  · refine (readsLeft_reading _ u [] _).trans_le ?_
    rw [output_length]
    exact (hscene.inv.olen_le u).trans (by simp [Caller.readsLeft])

/-- The host reads one byte of the result (42_host_operations R193 (6)). -/
theorem Scene.byte_move (hscene : Scene origin u s) {polls : List Reply} {front back : List Byte} {b : Byte}
    (hpolls : AllBusy polls) (hrun : UnitRun u bytes s) (hdone : s.doneFlag u = true)
    (hout : s.output u = front ++ b :: back)
    (hreplies : s.replies = origin.replies ++ polls ++
      .reg 0x902#32 :: .reg (BitVec.ofNat 32 (s.output u).length) :: front.map .byte) :
    Moves origin u bytes .host (.reading u front (back.length + 1)) s := by
  have hk : front.length < s.olen u := by rw [← output_length, hout]; simp
  have hbyte : s.byteAt (.output u) front.length = b := by
    have hget := bytes_getElem? s (.output u) (s.olen u) front.length
    rw [if_pos hk, show s.bytes (.output u) (s.olen u) = front ++ b :: back from hout] at hget
    simpa using hget.symm
  have hcap : front.length < s.cfg.capOf (.output u) := capOf_output s.cfg u ▸ hk.trans_le (hscene.inv.olen_le u)
  have hread : takeTurn (.call (.rdObuf u front.length)) s = .next (s.answer (.byte b)) := by
    rw [turn_rdObuf, hostRead_inside hcap, hbyte]
  have hsame := SameUnit.answer u s (.byte b)
  have hperform : perform [.host] (.reading u front (back.length + 1)) s =
      .next (.reading u (front ++ [b]) back.length, s.answer (.byte b)) := by
    rw [Caller.reading_succ, perform_read hscene.inv (request_readByte ..) hread, hear_readByte, Caller.reading,
      List.length_append, List.length_singleton]
  refine ⟨_, _, hperform, ⟨hscene.answer _, .reading hpolls (hsame.unitRun hrun) (hsame.doneFlag.trans hdone)
    (by rw [hsame.output, hout, List.append_assoc]; rfl) ?_⟩, .of_read hsame rfl (asksLeft_reading ..) fun _ => ?_⟩
  · rw [answer_replies, hreplies, hsame.output, List.map_append, List.append_assoc]
    rfl
  · rw [readsLeft_reading, readsLeft_reading, Nat.add_sub_cancel]

/-- A host whose script is over lets its move pass. -/
theorem Calling.idle_move (hcall : Calling origin u bytes h s) (hover : h.todo = []) : Moves origin u bytes .host h s :=
  ⟨h, s, by rw [perform_idle (by simp [Caller.request, hover]), perform_nil], hcall, .idle hover⟩

/-- The host's move, wherever it stands. -/
theorem Calling.host_move (hcall : Calling origin u bytes h s) (hfit : bytes.length ≤ origin.cfg.inCap u) :
    Moves origin u bytes .host h s := by
  have hscene := hcall.scene
  cases hcall.phase with
  | @loading rem s hrem hrest hloaded hr =>
    cases rem with
    | nil => exact hscene.start_move hrest hloaded hr
    | cons turn rem => exact hscene.write_move hfit hrem hrest hloaded hr
  | polling hpolls hrun hr => exact hscene.poll_move hpolls hrun hr
  | finished hpolls hrun hdone hr => exact hscene.length_move hpolls hrun hdone hr
  | @reading polls front back s hpolls hrun hdone hout hr =>
    cases back with
    | nil => exact hcall.idle_move rfl
    | cons b back => exact hscene.byte_move hpolls hrun hdone hout hr
  | failed hpolls hrun herr hr => exact hcall.idle_move rfl

theorem Calling.move (hcall : Calling origin u bytes h s) (hfit : bytes.length ≤ origin.cfg.inCap u)
    (hagenda : ∀ turn ∈ origin.agenda, IsUnitTurn turn) (m : Mover) : Moves origin u bytes m h s :=
  match m with
  | .host => hcall.host_move hfit
  | .machine => hcall.machine_move hagenda

/-! ### A whole schedule -/

/-- Where every move keeps `I`, and every move of `mover` takes one off the measure, so does a schedule. -/
theorem perform_countdown {I : Caller → State → Prop} {μ : Caller → State → Nat} (mover : Mover)
    (hmove : ∀ m h s, I h s → ∃ h' s', perform [m] h s = .next (h', s') ∧ I h' s' ∧ μ h' s' ≤ spent mover m (μ h s))
    (schedule : List Mover) (hI : I h s) :
    ∃ h' s', perform schedule h s = .next (h', s') ∧ I h' s' ∧ μ h' s' ≤ μ h s - schedule.count mover := by
  induction schedule generalizing h s with
  | nil => exact ⟨h, s, rfl, hI, le_rfl⟩
  | cons m schedule ih =>
    obtain ⟨h1, s1, hperform1, hI1, hle1⟩ := hmove m h s hI
    obtain ⟨h2, s2, hperform2, hI2, hle2⟩ := ih hI1
    refine ⟨h2, s2, (perform_append hperform1 schedule).trans hperform2, hI2, hle2.trans ?_⟩
    rw [List.count_cons]
    unfold spent at hle1
    split_ifs at hle1 with hm
    · rw [if_pos (beq_iff_eq.2 hm)]; omega
    · rw [if_neg (by simpa using hm)]; omega

end

end Script

end Sys2Proof.Machine
end

section
/-! ## 42_host_operations R192, R193: what `ENCODE` and `DECODE` report -/

namespace Sys2Proof.Machine.Script

section
variable {origin : State} {u : UnitId} {bytes : List Byte} {h : Caller} {s : State}

theorem Calling.begin {writes : List Turn} (hinv : Inv s) (hrest : s.busy u = false)
    (hwrites : writes.Perm (load u bytes)) : Calling s u bytes (.begin (callUnit u writes)) s :=
  ⟨⟨hinv, rfl, fun _ ht => ht, fun _ => .refl ..⟩,
    .loading (fun _ ht => hwrites.mem_iff.1 ht) hrest (.of_perm hwrites s) rfl⟩

/-! ### The report -/

/-- The replies of a call after the polls that found the unit BUSY, by its report (42_host_operations R193). -/
def lastReplies (u : UnitId) (s : State) : Report → List Reply
  | .returned out => .reg 0x902#32 :: .reg (BitVec.ofNat 32 out.length) :: out.map .byte
  | .failed _ => [.reg (s.status u)]

/-- A host that reports has read the result of the unit's run, or its fault code. -/
theorem Calling.report_cases (hcall : Calling origin u bytes h s) {r : Report} (hreport : h.report = some r) :
    UnitRun u bytes s ∧
      (r = .returned (s.output u) ∧ s.doneFlag u = true ∨ r = .failed (s.errCode u) ∧ s.errFlag u = true) ∧
      ∃ polls, AllBusy polls ∧ s.replies = origin.replies ++ polls ++ lastReplies u s r := by
  cases hcall.phase with
  | @loading rem s => cases rem <;> simp [Caller.report, Caller.begin, callUnit, run] at hreport
  | polling => simp [Caller.report] at hreport
  | finished => simp [Caller.report] at hreport
  | @reading polls front back s hpolls hrun hdone hout hr =>
    cases back with
    | cons b back => simp [Caller.report, Caller.reading, List.range'_succ] at hreport
    | nil =>
      rw [List.append_nil] at hout
      cases hreport
      exact ⟨hrun, .inl ⟨by rw [hout]; rfl, hdone⟩, polls, hpolls, by rw [hr, hout]; rfl⟩
  | @failed polls s hpolls hrun herr hr =>
    cases hreport
    exact ⟨hrun, .inr ⟨rfl, herr⟩, polls, hpolls, hr⟩

theorem Calling.report_expected (hcall : Calling origin u bytes h s) {r : Report} (hreport : h.report = some r) :
    r = expected origin.cfg u bytes := by
  have hinv := hcall.scene.inv
  obtain ⟨hrun, ⟨rfl, hdone⟩ | ⟨rfl, herr⟩, -⟩ := hcall.report_cases hreport <;> rw [← hcall.scene.cfg]
  · exact (hrun.expected_of_done hinv hdone).symm
  · exact (hrun.expected_of_fault hinv herr).symm

/-! ### The end of the script -/

theorem todo_nil_of_readsLeft {cap : Nat} (hreads : h.readsLeft cap = 0) : h.todo = [] := by
  unfold Caller.readsLeft at hreads
  split at hreads
  · omega
  · omega
  · exact List.eq_nil_of_length_eq_zero hreads

/-- Once the unit is started its run is on, and the host reads at most `OLEN` bytes. -/
theorem Calling.started (hcall : Calling origin u bytes h s) (hasks : h.asksLeft = 0) :
    UnitRun u bytes s ∧ h.readsLeft (origin.cfg.outCap u) ≤ 2 + origin.cfg.outCap u := by
  have hcap := hcall.scene.cfg ▸ hcall.scene.inv.olen_le u
  cases hcall.phase with
  | loading => simp [asksLeft_begin] at hasks
  | polling hpolls hrun => exact ⟨hrun, le_rfl⟩
  | finished hpolls hrun => exact ⟨hrun, by simp only [Caller.readsLeft]; omega⟩
  | @reading polls front back s hpolls hrun hdone hout =>
    have hlen : (s.output u).length = front.length + back.length := by rw [hout, List.length_append]
    rw [output_length] at hlen
    exact ⟨hrun, by rw [readsLeft_reading]; omega⟩
  | failed hpolls hrun => exact ⟨hrun, Nat.zero_le _⟩

section
variable (hfit : bytes.length ≤ origin.cfg.inCap u) (hagenda : ∀ turn ∈ origin.agenda, IsUnitTurn turn)
include hfit hagenda

/-- The writes and the start take as many moves of the host as there are. -/
theorem Calling.perform_asks (hcall : Calling origin u bytes h s) (schedule : List Mover) :
    ∃ h' s', perform schedule h s = .next (h', s') ∧ Calling origin u bytes h' s' ∧
      h'.asksLeft ≤ h.asksLeft - schedule.count .host :=
  perform_countdown (μ := fun h _ => h.asksLeft) .host (fun m h s hcall => by
    obtain ⟨h', s', hperform, hcall', hmoved⟩ := hcall.move hfit hagenda m
    exact ⟨h', s', hperform, hcall', hmoved.asks⟩) schedule hcall

/-- With nothing on the agenda, twice as many moves of the machine as the run has steps bring it to its end. -/
theorem Calling.perform_turns (hcall : Calling origin u bytes h s) (hasks : h.asksLeft = 0) (hnil : origin.agenda = [])
    {schedule : List Mover} (henough : 2 * stepBound u bytes.length ≤ schedule.count .machine) :
    ∃ h' s', perform schedule h s = .next (h', s') ∧ Calling origin u bytes h' s' ∧ h'.asksLeft = 0 ∧
      s'.busy u = false := by
  obtain ⟨h', s', hperform, ⟨hcall', hasks'⟩, hturns⟩ := perform_countdown
    (I := fun h s => Calling origin u bytes h s ∧ h.asksLeft = 0) (μ := fun _ s => s.turnsLeft u) .machine
    (fun m h s ⟨hcall, hasks⟩ => by
      obtain ⟨h', s', hperform, hcall', hmoved⟩ := hcall.move hfit hagenda m
      have hnil' : s.agenda = [] := List.eq_nil_iff_forall_not_mem.2 fun turn hturn =>
        List.not_mem_nil (hnil ▸ hcall.scene.agenda turn hturn)
      exact ⟨h', s', hperform, ⟨hcall', hmoved.asks_zero hasks⟩, hmoved.turns hnil' hasks⟩) schedule ⟨hcall, hasks⟩
  have hlen : s.ilen u = bytes.length := by rw [← (hcall.started hasks).1.input, input_length]
  have hbound := hlen ▸ stepsLeft_le_stepBound u s
  have hturns' : s.turnsLeft u ≤ 2 * s.stepsLeft u := Nat.sub_le ..
  exact ⟨h', s', hperform, hcall', hasks', not_busy_of_turnsLeft hcall'.scene.inv (by omega)⟩

/-- Then the last poll, the length and the bytes end the script. -/
theorem Calling.perform_reads (hcall : Calling origin u bytes h s) (hasks : h.asksLeft = 0) (hrest : s.busy u = false)
    {schedule : List Mover} (henough : 2 + origin.cfg.outCap u ≤ schedule.count .host) :
    ∃ h' s', perform schedule h s = .next (h', s') ∧ h'.todo = [] := by
  obtain ⟨h', s', hperform, -, hreads⟩ := perform_countdown
    (I := fun h s => Calling origin u bytes h s ∧ h.asksLeft = 0 ∧ s.busy u = false)
    (μ := fun h _ => h.readsLeft (origin.cfg.outCap u)) .host
    (fun m h s ⟨hcall, hasks, hrest⟩ => by
      obtain ⟨h', s', hperform, hcall', hmoved⟩ := hcall.move hfit hagenda m
      exact ⟨h', s', hperform, ⟨hcall', hmoved.asks_zero hasks, hmoved.rests hrest hasks⟩,
        hcall.scene.cfg ▸ hmoved.reads hrest hasks⟩)
    schedule ⟨hcall, hasks, hrest⟩
  have hle := (hcall.started hasks).2
  exact ⟨h', s', hperform, todo_nil_of_readsLeft (cap := origin.cfg.outCap u) (by omega)⟩

end

end

/-- A schedule that is long enough lets the host report (log 4). -/
theorem perform_enough {s : State} {u : UnitId} {bytes : List Byte} {writes : List Turn} {schedule : List Mover}
    (hinv : Inv s) (hrest : s.busy u = false) (hfit : bytes.length ≤ s.cfg.inCap u)
    (hwrites : writes.Perm (load u bytes)) (hnil : s.agenda = []) (henough : enough s.cfg u bytes.length schedule) :
    ∃ h t, perform schedule (.begin (callUnit u writes)) s = .next (h, t) ∧ h.report ≠ none := by
  have hagenda : ∀ turn ∈ s.agenda, IsUnitTurn turn := by simp [hnil]
  obtain ⟨before, during, after, rfl, hbefore, hduring, hafter⟩ := henough
  have hcall := Calling.begin hinv hrest hwrites
  obtain ⟨h1, s1, hperform1, hcall1, hasks1⟩ := hcall.perform_asks hfit hagenda before
  rw [asksLeft_begin, hwrites.length_eq, load_length] at hasks1
  have hasks1 : h1.asksLeft = 0 := by omega
  obtain ⟨h2, s2, hperform2, hcall2, hasks2, hrest2⟩ := hcall1.perform_turns hfit hagenda hasks1 hnil hduring
  obtain ⟨h3, s3, hperform3, hover⟩ := hcall2.perform_reads hfit hagenda hasks2 hrest2 hafter
  refine ⟨h3, s3, ?_, by rw [ne_eq, report_eq_none, not_not]; exact hover⟩
  rw [List.append_assoc, perform_append hperform1, perform_append hperform2, hperform3]

/-- Settles O59: every move keeps the host in one of the phases of its call, whose last two are the two reports; the
writes, then the unit's steps, then the reads each count down under a schedule that is long enough. -/
theorem hostScriptsReturnTheFunctions : Obligations.HostScriptsReturnTheFunctions := by
  unfold Obligations.HostScriptsReturnTheFunctions
  intro s u bytes writes schedule hinv hrest hfit hwrites hagenda
  obtain ⟨h, t, hperform, hcall, -⟩ := (Calling.begin hinv hrest hwrites).perform_asks hfit hagenda schedule
  refine ⟨h, t, hperform, fun hnil henough => ?_, fun r hreport => ⟨hcall.report_expected hreport, ?_⟩, ?_, ?_⟩
  · obtain ⟨h', t', hperform', hover⟩ := perform_enough hinv hrest hfit hwrites hnil henough
    cases hperform.symm.trans hperform'
    exact hover
  · obtain ⟨-, ⟨rfl, hdone⟩ | ⟨rfl, herr⟩, polls, hpolls, hreplies⟩ := hcall.report_cases hreport
    · exact ⟨polls, hpolls, fun out hout => by cases hout; exact ⟨hdone, rfl, hreplies⟩, nofun⟩
    · exact ⟨polls, hpolls, nofun, fun code hcode => by cases hcode; exact ⟨herr, rfl, hreplies⟩⟩
  · rintro rfl hother
    exact (hcall.scene.other hother).dec rfl
  · rintro rfl hother
    exact (hcall.scene.other hother).enc rfl

end Sys2Proof.Machine.Script
end

section
/-! ## 40_encoder R134, 41_decoder R163: a run of a unit's own steps, and that it ends -/

namespace Sys2Proof.Machine

/-- `n` micro-operations of the unit lead from `s` to `t`. -/
def Runs (u : UnitId) (n : Nat) (s t : State) : Prop := runTurns (List.replicate n (.micro u)) s = .next t

section
variable {u : UnitId} {n m : Nat} {s t t' : State}

theorem Runs.refl (u : UnitId) (s : State) : Runs u 0 s s := rfl

theorem Runs.one (h : takeTurn (.micro u) s = .next t) : Runs u 1 s t := runTurns_replicate_succ 0 h

theorem Runs.trans (h : Runs u n s t) (h' : Runs u m t t') : Runs u (n + m) s t' :=
  (runTurns_replicate_add m h).trans h'

theorem Runs.head (h : takeTurn (.micro u) s = .next t) (h' : Runs u n t t') : Runs u (n + 1) s t' :=
  (runTurns_replicate_succ n h).trans h'

/-- A property every step of the unit keeps, where the invariant holds, is kept by a run of them. -/
theorem Runs.keeps {P : State → Prop} (hstep : ∀ {s t}, Inv s → takeTurn (.micro u) s = .next t → P s → P t)
    (h : Runs u n s t) (hinv : Inv s) (hs : P s) : Inv t ∧ P t := by
  induction n generalizing s with
  | zero => cases h; exact ⟨hinv, hs⟩
  | succ n ih =>
    obtain ⟨s', hs', hinv'⟩ := answersInv_takeTurn hinv (.micro u)
    exact ih ((runTurns_replicate_succ n hs').symm.trans h) hinv' (hstep hinv hs' hs)

theorem Runs.inv (h : Runs u n s t) (hinv : Inv s) : Inv t :=
  (h.keeps (P := fun _ => True) (fun _ _ _ => trivial) hinv trivial).1

theorem Runs.unitRun {bytes : List Byte} (h : Runs u n s t) (hinv : Inv s) (hrun : UnitRun u bytes s) :
    UnitRun u bytes t :=
  (h.keeps (fun hinv ht hrun => (unitStep_micro hinv ht).keeps hrun) hinv hrun).2

theorem OnlyUnit.trans (h : OnlyUnit s u t) (h' : OnlyUnit t u t') : OnlyUnit s u t' := by
  cases h with
  | enc e => cases h' with | enc e' => exact .enc e'
  | dec d => cases h' with | dec d' => exact .dec d'

theorem OnlyUnit.refl (u : UnitId) (s : State) : OnlyUnit s u s := by
  cases u with
  | enc => exact .enc s.enc
  | dec => exact .dec s.dec

/-- A run changes nothing outside its unit (00_scope R5). -/
theorem Runs.onlyUnit (h : Runs u n s t) (hinv : Inv s) : OnlyUnit s u t :=
  (h.keeps (fun hinv ht hs => hs.trans (unitStep_micro hinv ht).only) hinv (.refl u s)).2

theorem OnlyUnit.eq_enc (h : OnlyUnit s .enc t) : t = { s with enc := t.enc } := by cases h; rfl

/-- A run of the unit ends: each step leaves it fewer. -/
theorem exists_run_to_rest (u : UnitId) {k : Nat} (hinv : Inv s) (hk : s.stepsLeft u ≤ k) :
    ∃ n t, n ≤ k ∧ Runs u n s t ∧ t.busy u = false := by
  induction k generalizing s with
  | zero =>
    refine ⟨0, s, le_rfl, .refl u s, ?_⟩
    rw [Bool.eq_false_iff]
    intro hbusy
    exact absurd (stepsLeft_pos hinv hbusy) (by omega)
  | succ k ih =>
    obtain ⟨s', hs', hinv'⟩ := answersInv_takeTurn hinv (.micro u)
    have hleft := stepsLeft_micro hinv hs'
    obtain ⟨n, t, hn, hrun, hrest⟩ := ih hinv' (by omega)
    exact ⟨n + 1, t, by omega, .head hs' hrun, hrest⟩

end

/-- Settles O53: the bound on the steps a unit still takes, which every step of a BUSY unit lowers, is R134's and R163's
bound in the first active state. -/
theorem everyUnitRunEnds : Obligations.EveryUnitRunEnds := by
  unfold Obligations.EveryUnitRunEnds
  exact ⟨fun s hinv _ => exists_run_to_rest .enc hinv (EncSt.stepsLeft_le ..),
    fun s hinv _ => exists_run_to_rest .dec hinv (DecSt.stepsLeft_le ..)⟩

end Sys2Proof.Machine
end

section
/-! ## 40_encoder R121 to R128: the encoder's micro-operations, one by one -/

namespace Sys2Proof.Machine

/-- Settles O12: each is its meaning, and in `E_ADV` the counted segment lies within the input. -/
theorem encoderRegisterStepResults : Obligations.EncoderRegisterStepResults := by
  unfold Obligations.EncoderRegisterStepResults
  refine ⟨fun s hinv hst => ?_, fun s => ⟨rfl, rfl, rfl, rfl, _, rfl, rfl, rfl, rfl, rfl⟩⟩
  obtain ⟨-, hend, -⟩ := hinv.enc.counted (by rw [hst]; rfl)
  exact hend

theorem execEOuter_of_inside {s : State} (hi : s.enc.i < s.cfg.encInCap) :
    execEOuter s = .next (s.setEnc { s.enc with val := s.byteAt .encIbuf s.enc.i, st := .eCinit }) :=
  withInputByte_inside (u := .enc) hi _

/-- Settles O13: the read of `E_OUTER` is inside the buffer, and a segment begins inside the input. -/
theorem outerLatchesScannedByte : Obligations.OuterLatchesScannedByte := by
  unfold Obligations.OuterLatchesScannedByte
  exact ⟨fun s hi => execEOuter_of_inside hi, fun s hinv hst => hinv.enc.segment (by rw [hst]; rfl)⟩

/-! ### `E_CMP` (40_encoder R125) -/

/-- The next byte is inside the input and equals the value, and the count has room for it. -/
def State.segmentGoesOn (s : State) : Prop :=
  s.enc.i + s.enc.count.toNat < s.enc.ilen ∧ s.byteAt .encIbuf (s.enc.i + s.enc.count.toNat) = s.enc.val ∧
    s.enc.count.toNat < 255

section
variable {s : State}

theorem execECmp_of_goesOn (hlen : s.enc.ilen ≤ s.cfg.encInCap) (h : s.segmentGoesOn) :
    execECmp s = .next (s.setEnc { s.enc with count := s.enc.count + 1#8, st := .eCmp }) := by
  obtain ⟨hn, hbyte⟩ := h
  rw [execECmp, if_pos hn, withInputByte_inside (u := .enc) (hn.trans_le hlen)]
  exact if_pos hbyte

theorem execECmp_of_stops (hlen : s.enc.ilen ≤ s.cfg.encInCap) (h : ¬s.segmentGoesOn) :
    execECmp s = .next (s.setEnc { s.enc with st := .eEmit }) := by
  rw [execECmp]
  split_ifs with hn
  · rw [withInputByte_inside (u := .enc) (hn.trans_le hlen)]
    exact if_neg fun hbyte => h ⟨hn, hbyte⟩
  · rfl

theorem count_succ (h : s.segmentGoesOn) : (s.enc.count + 1#8).toNat = s.enc.count.toNat + 1 := by
  obtain ⟨-, -, hroom⟩ := h
  simp; omega

/-- The number of bytes the comparisons still add to the count: the equal bytes that follow, as far as the count has
room. -/
def State.uncounted (s : State) : Nat :=
  min (255 - s.enc.count.toNat)
    (Reference.leading s.enc.val ((s.input .enc).drop (s.enc.i + s.enc.count.toNat)))

theorem uncounted_of_stops (h : ¬s.segmentGoesOn) : s.uncounted = 0 := by
  by_cases hn : s.enc.i + s.enc.count.toNat < s.enc.ilen
  · by_cases hroom : s.enc.count.toNat < 255
    · have hbyte : s.byteAt .encIbuf (s.enc.i + s.enc.count.toNat) ≠ s.enc.val := fun hb => h ⟨hn, hb, hroom⟩
      simp [State.uncounted, drop_input (u := .enc) hn, BufferId.input, Reference.leading, hbyte]
    · simp [State.uncounted]; omega
  · simp [State.uncounted, drop_input_nil (u := .enc) (not_lt.1 hn), Reference.leading]

theorem uncounted_of_goesOn (h : s.segmentGoesOn) :
    s.uncounted = (s.setEnc { s.enc with count := s.enc.count + 1#8, st := .eCmp }).uncounted + 1 := by
  have hcount := count_succ h
  obtain ⟨hn, hbyte, hroom⟩ := h
  have hinput : ∀ e : Enc, e.ibuf = s.enc.ibuf → e.ilen = s.enc.ilen → (s.setEnc e).input .enc = s.input .enc :=
    fun e hb hl => input_congr (u := .enc) hb hl rfl
  simp only [State.uncounted, setEnc_enc, hcount, hinput, drop_input (u := .enc) hn, BufferId.input,
    Reference.leading, hbyte, if_pos, ← Nat.add_assoc]
  omega

/-- The comparisons of a segment: one for each byte they add to the count, and the one that ends it. -/
theorem runs_compare (hst : s.enc.st = .eCmp) (hlen : s.enc.ilen ≤ s.cfg.encInCap) :
    Runs .enc (s.uncounted + 1) s
      (s.setEnc { s.enc with count := s.enc.count + BitVec.ofNat 8 s.uncounted, st := .eEmit }) := by
  induction hk : s.uncounted generalizing s with
  | zero =>
    have hstops : ¬s.segmentGoesOn := fun h => by rw [uncounted_of_goesOn h] at hk; omega
    simpa using Runs.one ((micro_eCmp hst).trans (execECmp_of_stops hlen hstops))
  | succ k ih =>
    have hgoes : s.segmentGoesOn := by
      by_contra h
      rw [uncounted_of_stops h] at hk
      omega
    rw [uncounted_of_goesOn hgoes, Nat.add_right_cancel_iff] at hk
    have hrest := Runs.head ((micro_eCmp hst).trans (execECmp_of_goesOn hlen hgoes)) (ih rfl hlen hk)
    rwa [setEnc_setEnc, setEnc_enc, BitVec.add_assoc, BitVec.add_comm 1#8, ← BitVec.ofNat_add] at hrest

/-- The segment of the function that begins at the scan position (40_encoder R132). -/
def State.segment (s : State) : Nat := Reference.segment s.enc.val ((s.input .enc).drop (s.enc.i + 1))

theorem segment_eq_uncounted (hcount : s.enc.count = 1#8) : s.segment = s.uncounted + 1 := by
  simp [State.segment, Reference.segment, State.uncounted, hcount]
  omega

/-- A segment of length `c` takes `c` steps in `E_CMP` and is counted there. -/
theorem runs_count_segment (hst : s.enc.st = .eCmp) (hcount : s.enc.count = 1#8)
    (hlen : s.enc.ilen ≤ s.cfg.encInCap) :
    Runs .enc s.segment s (s.setEnc { s.enc with count := BitVec.ofNat 8 s.segment, st := .eEmit }) := by
  have hrun := runs_compare hst hlen
  rwa [hcount, BitVec.add_comm, ← BitVec.ofNat_add, ← segment_eq_uncounted hcount] at hrun

end

/-- Settles O14: one comparison goes on or stops, and a segment goes on while the function's does. -/
theorem compareCountsTheSegment : Obligations.CompareCountsTheSegment := by
  unfold Obligations.CompareCountsTheSegment
  refine ⟨fun s hlen => ⟨fun h => ⟨execECmp_of_goesOn hlen h, count_succ h⟩, execECmp_of_stops hlen⟩, ?_⟩
  intro s hinv hst hcount
  exact runs_count_segment hst hcount hinv.enc.ilen_le

/-! ### `E_EMIT` (40_encoder R126) -/

section
variable {s : State}

/-- The encoder with the pair it has counted stored at the end of its output. -/
def Enc.emit (e : Enc) : Enc :=
  { e with
    obuf := Memory.write (Memory.write e.obuf e.olen e.count) (e.olen + 1) e.val
    olen := e.olen + 2
    st := .eAdv }

theorem execEEmit_of_fits (h : s.enc.olen + 2 ≤ s.cfg.encOutCap) : execEEmit s = .next (s.setEnc s.enc.emit) :=
  if_neg (not_lt.2 h)

theorem execEEmit_of_overflow (h : s.cfg.encOutCap < s.enc.olen + 2) :
    execEEmit s = .next (s.setEnc { s.enc with st := .fault, err := .outputOverflow }) := if_pos h

theorem byteAt_emit_encObuf (k : Nat) :
    (s.setEnc s.enc.emit).byteAt .encObuf k =
      if k = s.enc.olen + 1 then s.enc.val else if k = s.enc.olen then s.enc.count else s.byteAt .encObuf k := by
  simp only [State.byteAt, State.buffer, setEnc_enc, Enc.emit, Memory.find_write]
  split_ifs <;> rfl

/-- No other byte of any buffer changes. -/
theorem byteAt_emit_of_ne {b : BufferId} {k : Nat} (h : ¬(b = .encObuf ∧ (k = s.enc.olen ∨ k = s.enc.olen + 1))) :
    (s.setEnc s.enc.emit).byteAt b k = s.byteAt b k := by
  cases b with
  | encObuf => rw [byteAt_emit_encObuf, if_neg fun hk => h ⟨rfl, .inr hk⟩, if_neg fun hk => h ⟨rfl, .inl hk⟩]
  | encIbuf | decIbuf | decObuf => rfl

end

/-- Settles O15: the two writes of a pair that fits, the fault entry of one that does not, and the count of R47 (d). -/
theorem emitStoresPairOrOverflows : Obligations.EmitStoresPairOrOverflows := by
  unfold Obligations.EmitStoresPairOrOverflows
  refine ⟨fun s hfits => ⟨_, execEEmit_of_fits hfits, rfl, ?_, ?_, fun b k => byteAt_emit_of_ne⟩,
    fun s hover => ⟨_, execEEmit_of_overflow hover, rfl, rfl, rfl⟩, fun s hinv hst => ?_⟩
  · rw [byteAt_emit_encObuf, if_neg (by omega), if_pos rfl]
  · rw [byteAt_emit_encObuf, if_pos rfl]
  · obtain ⟨hpos, -⟩ := hinv.enc.counted (by rw [hst]; rfl)
    exact ⟨hpos, Nat.le_of_lt_succ s.enc.count.isLt⟩

end Sys2Proof.Machine
end

section
/-! ## 40_encoder R132, R133: what a run of the encoder computes -/

namespace Sys2Proof.Machine

/-- Settles O43: the two equations of the function. -/
theorem encodeMeetsItsEquations : Obligations.EncodeMeetsItsEquations := by
  unfold Obligations.EncodeMeetsItsEquations
  exact ⟨Reference.encode_nil, Reference.encode_cons⟩

/-! ### One segment -/

section
variable {s : State}

/-- The encoder about to compare, with the byte at the scan position latched and counted (40_encoder R123, R124). -/
def State.latched (s : State) : Enc := { s.enc with val := s.byteAt .encIbuf s.enc.i, count := 1#8, st := .eCmp }

/-- The encoder with the segment at the scan position counted. -/
def State.counted (s : State) : Enc :=
  { s.latched with count := BitVec.ofNat 8 (s.setEnc s.latched).segment, st := .eEmit }

theorem counted_count (s : State) : s.counted.count.toNat = (s.setEnc s.latched).segment := by
  have hle : (s.setEnc s.latched).segment ≤ 255 := Reference.segment_le ..
  simp only [State.counted, BitVec.toNat_ofNat]
  omega

theorem counted_pos (s : State) : 1 ≤ s.counted.count.toNat := counted_count s ▸ Reference.segment_pos ..

theorem counted_end_le (hi : s.enc.i < s.enc.ilen) : s.enc.i + s.counted.count.toNat ≤ s.enc.ilen := by
  have hle : (s.setEnc s.latched).segment ≤ ((s.input .enc).drop (s.enc.i + 1)).length + 1 :=
    Reference.segment_le_length ..
  rw [← counted_count, List.length_drop, input_length, State.ilen] at hle
  omega

/-- The function makes the segment that is counted (40_encoder R132). -/
theorem encode_drop (hi : s.enc.i < s.enc.ilen) :
    Reference.encode ((s.input .enc).drop s.enc.i) =
      s.counted.count :: s.counted.val ::
        Reference.encode ((s.input .enc).drop (s.enc.i + s.counted.count.toNat)) := by
  have hpos := counted_pos s
  rw [counted_count] at hpos ⊢
  rw [drop_input (u := .enc) hi, Reference.encode_cons, List.drop_drop,
    show s.enc.i + (s.setEnc s.latched).segment = s.enc.i + 1 + ((s.setEnc s.latched).segment - 1) by omega]
  rfl

/-- A segment is counted in `2 + c` steps (40_encoder R123 to R125). -/
theorem runs_segment_counted (hst : s.enc.st = .eOuter) (hi : s.enc.i < s.enc.ilen)
    (hlen : s.enc.ilen ≤ s.cfg.encInCap) : Runs .enc (2 + s.counted.count.toNat) s (s.setEnc s.counted) := by
  have houter := Runs.one ((micro_eOuter hst).trans (execEOuter_of_inside (hi.trans_le hlen)))
  have hlatched : Runs .enc 2 s (s.setEnc s.latched) := houter.trans (.one (micro_eCinit rfl))
  rw [counted_count]
  exact hlatched.trans (runs_count_segment (s := s.setEnc s.latched) rfl rfl hlen)

/-- The encoder at the loop test after the segment is stored (40_encoder R127). -/
def State.advanced (s : State) : Enc :=
  { s.counted.emit with
    i := s.enc.i + s.counted.count.toNat
    st := if s.enc.i + s.counted.count.toNat < s.enc.ilen then .eOuter else .eRet }

/-- A segment whose pair fits takes `4 + c` steps. -/
theorem runs_segment_stored (hst : s.enc.st = .eOuter) (hi : s.enc.i < s.enc.ilen)
    (hlen : s.enc.ilen ≤ s.cfg.encInCap) (hfits : s.enc.olen + 2 ≤ s.cfg.encOutCap) :
    Runs .enc (4 + s.counted.count.toNat) s (s.setEnc s.advanced) := by
  have hemit := Runs.one ((micro_eEmit (s := s.setEnc s.counted) rfl).trans (execEEmit_of_fits hfits))
  have hadv := hemit.trans (Runs.one (micro_eAdv rfl))
  have hrun := (runs_segment_counted hst hi hlen).trans hadv
  rwa [show 2 + s.counted.count.toNat + (1 + 1) = 4 + s.counted.count.toNat by omega] at hrun

/-- A segment whose pair does not fit ends the run, with the result so far. -/
theorem runs_segment_overflow (hst : s.enc.st = .eOuter) (hi : s.enc.i < s.enc.ilen)
    (hlen : s.enc.ilen ≤ s.cfg.encInCap) (hover : s.cfg.encOutCap < s.enc.olen + 2) :
    Runs .enc (2 + s.counted.count.toNat + 1) s
      (s.setEnc { s.counted with st := .fault, err := .outputOverflow }) :=
  (runs_segment_counted hst hi hlen).trans
    (.one ((micro_eEmit (s := s.setEnc s.counted) rfl).trans (execEEmit_of_overflow hover)))

end

/-! ### One segment after another -/

/-- The registers hold the last pair of the result, or the 0 of `E_LOAD` before there is one (40_encoder R133). -/
def State.lastPair (s : State) : Prop :=
  (s.output .enc = [] ∧ s.enc.count = 0#8 ∧ s.enc.val = 0#8) ∨
    ∃ front, s.output .enc = front ++ [s.enc.count, s.enc.val]

/-- A run of the encoder on `bytes` at the loop test, between two segments. -/
structure AtLoopTest (bytes : List Byte) (s : State) : Prop where
  inv : Inv s
  run : UnitRun .enc bytes s
  st : s.enc.st = if s.enc.i < s.enc.ilen then .eOuter else .eRet
  last : s.lastPair

/-- How a run of the encoder on `bytes` ends: in `DONE` at the end of the input, or in `FAULT` at the first pair that
does not fit. -/
inductive EncEnds (bytes : List Byte) (t : State) : Prop where
  | done (st : t.enc.st = .done) (index : t.enc.i = t.enc.ilen) (last : t.lastPair)
  | fault (st : t.enc.st = .fault) (full : t.cfg.encOutCap < t.enc.olen + 2)
      (result : t.output .enc = (Reference.encode bytes).take t.enc.olen)

/-- The steps of a run that fits, from the loop test on with `rest` to encode: four a pair, one a byte, and `E_RET`. -/
def stepsFor (rest : List Byte) : Nat := 1 + 4 * ((Reference.encode rest).length / 2) + rest.length

section
variable {bytes : List Byte} {s : State}

theorem UnitRun.enc_ilen (h : UnitRun .enc bytes s) : s.enc.ilen = bytes.length := by
  rw [← h.input]
  exact (input_length .enc s).symm

/-- The two steps before the first loop test (40_encoder R121, R122). -/
theorem runs_to_loop_test (hinv : Inv s) (hst : s.enc.st = .eLoad) :
    ∃ t, Runs .enc 2 s t ∧ AtLoopTest (s.input .enc) t ∧ t.enc.i = 0 := by
  have hrun : Runs .enc 2 s _ := (Runs.one (micro_eLoad hst)).trans (.one (micro_eRinit rfl))
  have howes : UnitOwes .enc (s.input .enc) s := by rw [UnitOwes, hst]; trivial
  exact ⟨_, hrun, ⟨hrun.inv hinv, hrun.unitRun hinv ⟨rfl, howes⟩, rfl, .inl ⟨rfl, rfl, rfl⟩⟩, rfl⟩

theorem AtLoopTest.segment_stored (h : AtLoopTest bytes s) (hi : s.enc.i < s.enc.ilen)
    (hfits : s.enc.olen + 2 ≤ s.cfg.encOutCap) : AtLoopTest bytes (s.setEnc s.advanced) := by
  have hrun := runs_segment_stored (by rw [h.st, if_pos hi]) hi h.inv.enc.ilen_le hfits
  exact ⟨hrun.inv h.inv, hrun.unitRun h.inv h.run, rfl, .inr ⟨s.output .enc, output_emit _ _ rfl rfl rfl⟩⟩

/-- What is still to be encoded after the segment at the scan position. -/
theorem AtLoopTest.encode_rest (h : AtLoopTest bytes s) (hi : s.enc.i < s.enc.ilen) :
    Reference.encode (bytes.drop s.enc.i) = s.counted.count :: s.counted.val ::
      Reference.encode (bytes.drop (s.enc.i + s.counted.count.toNat)) := by
  rw [← h.run.input]
  exact encode_drop hi

theorem AtLoopTest.overflow (h : AtLoopTest bytes s) (hi : s.enc.i < s.enc.ilen)
    (hover : s.cfg.encOutCap < s.enc.olen + 2) :
    EncEnds bytes (s.setEnc { s.counted with st := .fault, err := .outputOverflow }) := by
  have howes : s.output .enc ++ Reference.encode (bytes.drop s.enc.i) = Reference.encode bytes :=
    h.run.enc_owes (st := .eOuter) (by rw [h.st, if_pos hi])
  refine .fault rfl hover ?_
  rw [← howes]
  exact (List.take_left' (output_length ..)).symm

/-- A segment of `c` bytes and its pair take `4 + c` of the steps. -/
theorem AtLoopTest.stepsFor_segment (h : AtLoopTest bytes s) (hi : s.enc.i < s.enc.ilen) :
    stepsFor (bytes.drop s.enc.i) =
      4 + s.counted.count.toNat + stepsFor (bytes.drop (s.enc.i + s.counted.count.toNat)) := by
  have hend := counted_end_le hi
  simp only [stepsFor, h.encode_rest hi, List.length_cons, List.length_drop, ← h.run.enc_ilen]
  omega

/-- From the loop test on a run ends, and where it ends in `DONE` the number of its steps is known. -/
theorem AtLoopTest.ends (h : AtLoopTest bytes s) :
    ∃ n t, Runs .enc n s t ∧ EncEnds bytes t ∧ (t.enc.st = .done → n = stepsFor (bytes.drop s.enc.i)) := by
  induction hk : s.enc.ilen - s.enc.i using Nat.strong_induction_on generalizing s with
  | _ k ih =>
    by_cases hi : s.enc.i < s.enc.ilen
    · have hst : s.enc.st = .eOuter := by rw [h.st, if_pos hi]
      by_cases hfits : s.enc.olen + 2 ≤ s.cfg.encOutCap
      · have hrun := runs_segment_stored hst hi h.inv.enc.ilen_le hfits
        have hpos := counted_pos s
        obtain ⟨n, t, hrest, hends, hsteps⟩ :=
          ih (s.enc.ilen - (s.enc.i + s.counted.count.toNat)) (by omega) (h.segment_stored hi hfits) rfl
        exact ⟨_, t, hrun.trans hrest, hends, fun hdone => by rw [hsteps hdone, h.stepsFor_segment hi]; rfl⟩
      · have hover := not_le.1 hfits
        exact ⟨_, _, runs_segment_overflow hst hi h.inv.enc.ilen_le hover, h.overflow hi hover, nofun⟩
    · have hst : s.enc.st = .eRet := by rw [h.st, if_neg hi]
      refine ⟨1, _, .one (micro_eRet hst), .done rfl (h.inv.enc.returned hst) h.last, fun _ => ?_⟩
      rw [List.drop_eq_nil_of_le (h.run.enc_ilen.symm.trans_le (not_lt.1 hi))]
      rfl

/-! ### The whole run -/

/-- A run leaves the input buffer alone: its steps commute with putting another memory there, so also with putting back
the one that is there. -/
theorem Runs.ibuf {n : Nat} {t : State} (h : Runs .enc n s t) (hinv : Inv s) : t.enc.ibuf = s.enc.ibuf := by
  refine (h.keeps (P := fun t => t.enc.ibuf = s.enc.ibuf) (fun {s' t'} hinv' ht hkept => ?_) hinv rfl).2
  have hself := micro_enc_withInput hinv' (m := s'.enc.ibuf) fun _ _ => rfl
  rw [show s'.withInput .enc s'.enc.ibuf = s' from rfl, ht, mapNext_next, Host.Outcome.next.injEq] at hself
  exact (congrArg (·.enc.ibuf) hself).trans hkept

/-- A run of the encoder ends, and where it ends in `DONE` it has taken `3 + 4P + N` steps. -/
theorem encoder_run_ends (hinv : Inv s) (hst : s.enc.st = .eLoad) :
    ∃ n t, Runs .enc n s t ∧ UnitRun .enc (s.input .enc) t ∧ EncEnds (s.input .enc) t ∧
      (t.enc.st = .done → n = 3 + 4 * ((Reference.encode (s.input .enc)).length / 2) + s.enc.ilen) := by
  obtain ⟨s', hstart, hloop, hi⟩ := runs_to_loop_test hinv hst
  obtain ⟨n, t, hrun, hends, hsteps⟩ := hloop.ends
  refine ⟨2 + n, t, hstart.trans hrun, hrun.unitRun hloop.inv hloop.run, hends, fun hdone => ?_⟩
  rw [hsteps hdone, hi, List.drop_zero, stepsFor, input_length]
  show _ = 3 + _ + s.ilen .enc
  omega

/-- Of an empty result the registers hold the 0 of `E_LOAD`. -/
theorem State.lastPair.zero_of_output (h : s.lastPair) (hout : s.output .enc = []) :
    s.enc.count = 0#8 ∧ s.enc.val = 0#8 := by
  rcases h with ⟨-, hzero⟩ | ⟨front, hfront⟩
  · exact hzero
  · simp [hout] at hfront

/-- The last pair of the result is the one in the registers. -/
theorem State.lastPair.eq_of_output {front : List Byte} {c v : Byte} (h : s.lastPair)
    (hout : s.output .enc = front ++ [c, v]) : s.enc.count = c ∧ s.enc.val = v := by
  rcases h with ⟨hnil, -⟩ | ⟨front', hfront⟩
  · simp [hnil] at hout
  · rw [hout] at hfront
    obtain ⟨-, hpair⟩ := List.append_inj' hfront rfl
    simp only [List.cons.injEq] at hpair
    exact ⟨hpair.1.symm, hpair.2.1.symm⟩

end

/-- Settles O50: segment after segment the run stores the pair the function makes, until the input is at its end or a
pair does not fit; which of the two it is, the length of the result says. -/
theorem encoderRunComputesEncode : Obligations.EncoderRunComputesEncode := by
  unfold Obligations.EncoderRunComputesEncode
  intro s hinv hst
  obtain ⟨n, t, hruns, hrun, hends, hsteps⟩ := encoder_run_ends hinv hst
  have htinv := hruns.inv hinv
  have hframe := (hruns.onlyUnit hinv).eq_enc
  have hcfg : t.cfg = s.cfg := (hruns.onlyUnit hinv).cfg
  have hibuf := hruns.ibuf hinv
  have hilen : t.enc.ilen = s.enc.ilen := hrun.enc_ilen.trans (input_length ..)
  have holen := htinv.enc.olen_le
  constructor
  · intro hfits
    cases hends with
    | fault htst hfull hresult =>
      have hover : t.cfg.encOutCap < (Reference.encode (s.input .enc)).length := hrun.enc_owes htst
      rw [hcfg] at hover
      exact absurd hfits (not_le.2 hover)
    | done htst hindex hlast =>
      have hout : t.output .enc = Reference.encode (s.input .enc) := hrun.enc_owes htst
      refine ⟨t, hsteps htst ▸ hruns, hframe, hibuf, hilen, htst, htinv.enc.err_none (by simp [htst]),
        hindex.trans hilen, ?_, hout, fun hnil => ?_, fun front c v hpair => hlast.eq_of_output (hout.trans hpair)⟩
      · exact hout ▸ (output_length .enc t).symm
      · exact hlast.zero_of_output (by rw [hout, hnil, Reference.encode_nil])
  · intro hover
    cases hends with
    | done htst hindex hlast =>
      have hout : t.output .enc = Reference.encode (s.input .enc) := hrun.enc_owes htst
      rw [← hout, output_length, ← hcfg] at hover
      exact absurd holen (not_le.2 hover)
    | fault htst hfull hresult =>
      exact ⟨n, t, hruns, hframe, hibuf, hilen, htst, by rw [htinv.enc.err_code, if_pos htst],
        htinv.enc.olen_even, hcfg ▸ holen, hcfg ▸ hfull, hresult⟩

end Sys2Proof.Machine
end

section
/-! ## 20_memory R73: the step and the operation of its turn -/

namespace Sys2Proof.Machine

/-- What was fetched runs as the operation it decodes to. -/
theorem runFetched_of_decode {f : Fetched} {i : Instr} (h : decode f = .ok i) (s : State) :
    runFetched f s = exec i s := by
  rw [runFetched, h]

/-- In `D_RDCNT`, with the whole pair inside the buffer, the pair word is fetched. -/
theorem takePair_of_inside {s : State} (hst : s.dec.st = .dRdcnt) (hi : s.dec.i + 1 < s.cfg.decInCap) :
    takePair s = runFetched (.pair16 (s.byteAt .decIbuf s.dec.i) (s.byteAt .decIbuf (s.dec.i + 1))) s := by
  rw [takePair, if_pos hst, withInputByte_inside (u := .dec) (Nat.lt_of_succ_lt hi),
    withInputByte_inside (u := .dec) hi]
  rfl

theorem takePair_of_ne {s : State} (hst : s.dec.st ≠ .dRdcnt) : takePair s = .next s := if_neg hst

/-- With no turn to come a step is a micro-operation of the unit whose turn it is (log 4). -/
theorem step_of_nil {s : State} (hcfg : s.cfg.wf = true) (h : s.agenda = []) :
    step s = takeTurn (.micro s.nextUnit) { s with nextUnit := s.nextUnit.other } := by
  rw [step_eq hcfg, nextTurn_nil s h, popTurn_nil s h]

/-- Settles O8: a step takes its turn, and the turn runs what its fetched form decodes to. -/
theorem stepRunsTheDecodedOperation : Obligations.StepRunsTheDecodedOperation := by
  unfold Obligations.StepRunsTheDecodedOperation
  intro s i hcfg
  refine ⟨fun u ts h hdec => ?_, fun u w ts h hdec => ?_, fun c ts h hdec => ?_, fun ts h hst hi hdec => ?_,
    fun h hdec => ?_⟩
  · exact (step_of_agenda hcfg h).trans (runFetched_of_decode hdec _)
  · exact (step_of_agenda hcfg h).trans (runFetched_of_decode hdec _)
  · exact (step_of_agenda hcfg h).trans (runFetched_of_decode hdec _)
  · exact (step_of_agenda hcfg h).trans
      ((takePair_of_inside (s := s.withOrder ts s.nextUnit) hst hi).trans (runFetched_of_decode hdec _))
  · exact (step_of_nil hcfg h).trans (runFetched_of_decode hdec _)

/-- Settles O9: a resting unit's micro-operation has no effect, and a pair word is taken in `D_RDCNT` alone. -/
theorem restingUnitTakesNoStep : Obligations.RestingUnitTakesNoStep := by
  unfold Obligations.RestingUnitTakesNoStep
  intro s ts hcfg
  refine ⟨fun u hrest h => ?_, fun hrest h => ?_, fun hst h => ?_⟩
  · exact (step_of_agenda hcfg h).trans (micro_resting hrest)
  · exact (step_of_nil hcfg h).trans (micro_resting hrest)
  · exact (step_of_agenda hcfg h).trans (takePair_of_ne (s := s.withOrder ts s.nextUnit) hst)

end Sys2Proof.Machine
end

section
/-! ## 40_encoder R130, 41_decoder R159: the next-state tables -/

namespace Sys2Proof.Machine

variable {s t : State}

/-! ### A unit's own step -/

/-- Nothing, or a transition of the encoder's table (40_encoder R130). -/
def EncMoves (st st' : EncSt) : Prop :=
  st' = st ∨ (st, st') ∈
    [(.eLoad, .eRinit), (.eRinit, .eOuter), (.eRinit, .eRet), (.eOuter, .eCinit), (.eCinit, .eCmp), (.eCmp, .eEmit),
      (.eEmit, .eAdv), (.eEmit, .fault), (.eAdv, .eOuter), (.eAdv, .eRet), ((.eRet, .done) : EncSt × EncSt)]

/-- Nothing, or a transition of the decoder's table (41_decoder R159). -/
def DecMoves (st st' : DecSt) : Prop :=
  st' = st ∨ (st, st') ∈
    [(.dInit, .fault), (.dInit, .dRdcnt), (.dInit, .dRet), (.dRdcnt, .dRdval), (.dRdval, .dLoop), (.dLoop, .dAppend),
      (.dLoop, .dNext), (.dAppend, .dLoop), (.dAppend, .fault), (.dNext, .dRdcnt), (.dNext, .dRet),
      ((.dRet, .done) : DecSt × DecSt)]

/-- A next state is one the step makes of the byte it reads. -/
theorem next_of_withInputByte {u : UnitId} {k : Nat} {go : Byte → Answer} (h : s.withInputByte u k go = .next t) :
    ∃ b, go b = .next t := by
  rw [State.withInputByte] at h
  split_ifs at h
  exact ⟨_, h⟩

theorem encMoves_micro (h : takeTurn (.micro .enc) s = .next t) : EncMoves s.enc.st t.enc.st := by
  have resting (hb : s.busy .enc = false) : EncMoves s.enc.st t.enc.st := by
    rw [micro_resting hb] at h; cases h; exact .inl rfl
  cases hst : s.enc.st with
  | idle => exact hst ▸ resting (by simp [State.busy, hst, EncSt.active])
  | eLoad => rw [micro_eLoad hst] at h; cases h; exact .inr (by simp)
  | eRinit =>
    rw [micro_eRinit hst, execERinit] at h
    cases h
    simp only [setEnc_enc]
    split_ifs <;> exact .inr (by simp)
  | eOuter =>
    rw [micro_eOuter hst] at h
    obtain ⟨b, hb⟩ := next_of_withInputByte h
    cases hb
    exact .inr (by simp)
  | eCinit => rw [micro_eCinit hst] at h; cases h; exact .inr (by simp)
  | eCmp =>
    rw [micro_eCmp hst, execECmp] at h
    split_ifs at h
    · obtain ⟨b, hb⟩ := next_of_withInputByte h
      split_ifs at hb <;> cases hb
      · exact .inl rfl
      · exact .inr (by simp)
    · cases h; exact .inr (by simp)
  | eEmit => rw [micro_eEmit hst, execEEmit] at h; split_ifs at h <;> cases h <;> exact .inr (by simp)
  | eAdv =>
    rw [micro_eAdv hst, execEAdv] at h
    cases h
    simp only [setEnc_enc]
    split_ifs <;> exact .inr (by simp)
  | eRet => rw [micro_eRet hst] at h; cases h; exact .inr (by simp)
  | done => exact hst ▸ resting (by simp [State.busy, hst, EncSt.active])
  | fault => exact hst ▸ resting (by simp [State.busy, hst, EncSt.active])

theorem decMoves_micro (h : takeTurn (.micro .dec) s = .next t) : DecMoves s.dec.st t.dec.st := by
  have resting (hb : s.busy .dec = false) : DecMoves s.dec.st t.dec.st := by
    rw [micro_resting hb] at h; cases h; exact .inl rfl
  cases hst : s.dec.st with
  | idle => exact hst ▸ resting (by simp [State.busy, hst, DecSt.active])
  | dInit => rw [micro_dInit hst, execDInit] at h; split_ifs at h <;> cases h <;> exact .inr (by simp)
  | dRdcnt =>
    rw [micro_dRdcnt hst] at h
    obtain ⟨b, hb⟩ := next_of_withInputByte h
    cases hb
    exact .inr (by simp)
  | dRdval =>
    rw [micro_dRdval hst] at h
    obtain ⟨b, hb⟩ := next_of_withInputByte h
    cases hb
    exact .inr (by simp)
  | dLoop =>
    rw [micro_dLoop hst, execDLoop] at h
    cases h
    simp only [setDec_dec]
    split_ifs <;> exact .inr (by simp)
  | dAppend => rw [micro_dAppend hst, execDAppend] at h; split_ifs at h <;> cases h <;> exact .inr (by simp)
  | dNext =>
    rw [micro_dNext hst, execDNext] at h
    cases h
    simp only [setDec_dec, Dec.advance_st]
    split_ifs <;> exact .inr (by simp)
  | dRet => rw [micro_dRet hst] at h; cases h; exact .inr (by simp)
  | done => exact hst ▸ resting (by simp [State.busy, hst, DecSt.active])
  | fault => exact hst ▸ resting (by simp [State.busy, hst, DecSt.active])

/-! ### The pair word as one step (41_decoder R164, log 10) -/

theorem advance_st_cases (d : Dec) : d.advance.st = .dRdcnt ∨ d.advance.st = .dRet := by
  rw [Dec.advance_st]
  split_ifs
  · exact .inl rfl
  · exact .inr rfl

/-- Nothing, or one of the two moves the pair word makes in one step. -/
def PairMoves (st st' : DecSt) : Prop :=
  st' = st ∨ (st, st') ∈ [(.dRdcnt, .dRet), ((.dRdcnt, .fault) : DecSt × DecSt)]

theorem pairMoves_takePair (h : takeTurn .pair s = .next t) : PairMoves s.dec.st t.dec.st := by
  change takePair s = .next t at h
  by_cases hst : s.dec.st = .dRdcnt
  · suffices t.dec.st = .dRdcnt ∨ t.dec.st = .dRet ∨ t.dec.st = .fault from
      this.imp (·.trans hst.symm) fun h => by simpa [hst] using h
    rw [takePair, if_pos hst] at h
    obtain ⟨count, h⟩ := next_of_withInputByte h
    obtain ⟨value, h⟩ := next_of_withInputByte h
    simp only [runFetched, decode, decodePair16] at h
    split_ifs at h
    · cases h
      exact (advance_st_cases _).imp_right .inl
    · simp only [exec, execPair] at h
      split_ifs at h <;> cases h
      · exact .inr (.inr rfl)
      · exact (advance_st_cases _).imp_right .inl
  · rw [takePair_of_ne hst] at h
    cases h
    exact .inl rfl

/-! ### The host (42_host_operations R183, R184, R191) -/

/-- Both units are in the states they were in. -/
def KeepsStates (s t : State) : Prop := t.enc.st = s.enc.st ∧ t.dec.st = s.dec.st

theorem keepsStates_writeIlen (u : UnitId) (n : Word32) (s : State) : KeepsStates s (s.writeIlen u n) := by
  unfold State.writeIlen
  split_ifs
  · exact ⟨rfl, rfl⟩
  · cases u <;> exact ⟨rfl, rfl⟩
  · exact ⟨rfl, rfl⟩

theorem keepsStates_writeIbuf (u : UnitId) (k : Nat) (b : Byte) (s : State) : KeepsStates s (s.writeIbuf u k b) := by
  unfold State.writeIbuf
  split_ifs
  · exact ⟨rfl, rfl⟩
  · cases u <;> exact ⟨rfl, rfl⟩
  · exact ⟨rfl, rfl⟩

theorem keepsStates_hostRead (b : BufferId) (k : Nat) (s : State) : KeepsStates s (s.hostRead b k) := by
  unfold State.hostRead
  split_ifs <;> exact ⟨rfl, rfl⟩

/-- A host operation by name moves no unit, but for the write of a word to a `CTRL` register. -/
theorem keepsStates_call {c : HostCall} (h : takeTurn (.call c) s = .next t) :
    KeepsStates s t ∨ ∃ u w, c = .wrReg u 0#4 w ∧ t = s.ctrlWrite u w := by
  cases c with
  | wrIbuf u k b => cases h; exact .inl (keepsStates_writeIbuf u k b s)
  | wrIlen u n => cases h; exact .inl (keepsStates_writeIlen u n s)
  | rdStatus u => cases h; exact .inl ⟨rfl, rfl⟩
  | rdReg u n => cases h; exact .inl ⟨rfl, rfl⟩
  | rdObuf u k => cases h; exact .inl (keepsStates_hostRead _ k s)
  | rdIbuf u k => cases h; exact .inl (keepsStates_hostRead _ k s)
  | wrReg u n w =>
    rw [turn_wrReg, Host.Outcome.next.injEq] at h
    by_cases hn : n = 0#4
    · subst hn
      exact .inr ⟨u, w, rfl, h.symm⟩
    · have hne : n.toNat ≠ 0 := fun h0 => hn (BitVec.eq_of_toNat_eq h0)
      subst h
      unfold State.writeReg
      split
      · contradiction
      · exact .inl (keepsStates_writeIlen u w s)
      · exact .inl ⟨rfl, rfl⟩

/-- A `CTRL` word does nothing, or is the `START` or the `CLEAR` of a unit at rest. -/
theorem ctrlWrite_cases (u : UnitId) (w : Word32) (s : State) :
    s.ctrlWrite u w = s ∨
      (s.busy u = false ∧ ((w.getLsbD 0 = true ∧ s.ctrlWrite u w = s.start u) ∨
        (w.getLsbD 0 = false ∧ w.getLsbD 1 = true ∧ s.ctrlWrite u w = s.clear u))) := by
  cases hb : s.busy u with
  | true => exact .inl (by simp only [State.ctrlWrite, start_busy hb, clear_busy hb, ite_self])
  | false =>
    rw [State.ctrlWrite]
    split_ifs with h0 h1
    · exact .inr ⟨rfl, .inl ⟨h0, rfl⟩⟩
    · exact .inr ⟨rfl, .inr ⟨Bool.eq_false_iff.2 h0, h1, rfl⟩⟩
    · exact .inl rfl

/-! ### Every turn -/

/-- The host writes the word `w` to the unit's `CTRL` register (42_host_operations R183 to R185, R190). -/
def WritesCtrl (turn : Turn) (u : UnitId) (w : Word32) : Prop := turn = .ctrl u w ∨ turn = .call (.wrReg u 0#4 w)

/-- What a turn can do to the states of the units: nothing; a reset; the step of one unit; the `START` or the `CLEAR` of
a unit at rest, by a word written to its `CTRL` register. -/
inductive TurnMoves (s t : State) (turn : Turn) : Prop where
  | keeps (h : KeepsStates s t)
  | reset (hturn : turn = .reset) (h : t = s.resetBlock)
  | enc (hturn : turn = .micro .enc) (hdec : t.dec = s.dec) (h : EncMoves s.enc.st t.enc.st)
  | dec (hturn : turn = .micro .dec) (henc : t.enc = s.enc) (h : DecMoves s.dec.st t.dec.st)
  | pair (hturn : turn = .pair) (henc : t.enc = s.enc) (h : PairMoves s.dec.st t.dec.st)
  | start (u : UnitId) (w : Word32) (hturn : WritesCtrl turn u w) (hrest : s.busy u = false)
    (hstart : w.getLsbD 0 = true) (h : t = s.start u)
  | clear (u : UnitId) (w : Word32) (hturn : WritesCtrl turn u w) (hrest : s.busy u = false)
    (hstart : w.getLsbD 0 = false) (hclear : w.getLsbD 1 = true) (h : t = s.clear u)

theorem turnMoves_ctrlWrite {turn : Turn} {u : UnitId} {w : Word32} (hturn : WritesCtrl turn u w) :
    TurnMoves s (s.ctrlWrite u w) turn := by
  rcases ctrlWrite_cases u w s with hnop | ⟨hrest, ⟨h0, hstart⟩ | ⟨h0, h1, hclear⟩⟩
  · exact .keeps (by rw [hnop]; exact ⟨rfl, rfl⟩)
  · exact .start u w hturn hrest h0 hstart
  · exact .clear u w hturn hrest h0 h1 hclear

theorem turnMoves_of_takeTurn {turn : Turn} (h : takeTurn turn s = .next t) : TurnMoves s t turn := by
  obtain ⟨hencTurn, hdecTurn⟩ := unitsShareNoState s t turn h
  cases turn with
  | reset => cases h; exact .reset rfl rfl
  | micro u =>
    cases u with
    | enc => exact .enc rfl (hencTurn rfl).1 (encMoves_micro h)
    | dec => exact .dec rfl (hdecTurn rfl).1 (decMoves_micro h)
  | pair => exact .pair rfl (hdecTurn rfl).1 (pairMoves_takePair h)
  | ctrl u w =>
    rw [turn_ctrl] at h
    cases h
    exact turnMoves_ctrlWrite (.inl rfl)
  | call c =>
    rcases keepsStates_call h with hkeeps | ⟨u, w, rfl, rfl⟩
    · exact .keeps hkeeps
    · exact turnMoves_ctrlWrite (.inr rfl)

/-- Settles O37: every turn is of one of the kinds above, and each kind moves the two states as the tables say. -/
theorem onlyTableTransitionsHappen : Obligations.OnlyTableTransitionsHappen := by
  unfold Obligations.OnlyTableTransitionsHappen
  intro s t turn h
  cases turnMoves_of_takeTurn h with
  | keeps hkeeps => exact ⟨.inl hkeeps.1, .inl hkeeps.2⟩
  | reset hturn ht => exact ⟨.inr (.inl ⟨hturn, ht ▸ rfl⟩), .inr (.inl ⟨hturn, ht ▸ rfl⟩)⟩
  | enc hturn hdec hmoves => exact ⟨hmoves.imp_right fun hmem => .inr (.inr ⟨hturn, hmem⟩), .inl (hdec ▸ rfl)⟩
  | dec hturn henc hmoves =>
    exact ⟨.inl (henc ▸ rfl), hmoves.imp_right fun hmem => .inr (.inr (.inl ⟨hturn, hmem⟩))⟩
  | pair hturn henc hmoves =>
    exact ⟨.inl (henc ▸ rfl), hmoves.imp_right fun hmem => .inr (.inr (.inr ⟨hturn, hmem⟩))⟩
  | start u w hturn hrest h0 ht =>
    subst ht
    cases u with
    | enc =>
      rw [start_enc hrest]
      exact ⟨.inr (.inr (.inl ⟨hrest, w, hturn, .inl ⟨h0, rfl⟩⟩)), .inl rfl⟩
    | dec =>
      rw [start_dec hrest]
      exact ⟨.inl rfl, .inr (.inr (.inl ⟨hrest, w, hturn, .inl ⟨h0, rfl⟩⟩))⟩
  | clear u w hturn hrest h0 h1 ht =>
    subst ht
    cases u with
    | enc =>
      rw [clear_enc hrest]
      exact ⟨.inr (.inr (.inl ⟨hrest, w, hturn, .inr ⟨h0, h1, rfl⟩⟩)), .inl rfl⟩
    | dec =>
      rw [clear_dec hrest]
      exact ⟨.inl rfl, .inr (.inr (.inl ⟨hrest, w, hturn, .inr ⟨h0, h1, rfl⟩⟩))⟩

end Sys2Proof.Machine
end

section
/-! ## 41_decoder R151 to R157: the decoder's micro-operations, one by one -/

namespace Sys2Proof.Machine

section
variable {s : State}

/-! ### `D_INIT`, `D_RDCNT`, `D_RDVAL` (41_decoder R151 to R153) -/

theorem execDInit_of_odd (h : s.dec.ilen % 2 = 1) :
    execDInit s = .next (s.setDec
      { s.dec with
        i := 0, count := 0#8, value := 0#8, j := 0#8, olen := 0, st := .fault, err := .decodeError }) :=
  if_pos h

theorem execDInit_of_even (h : s.dec.ilen % 2 = 0) :
    execDInit s = .next (s.setDec
      { s.dec with
        i := 0, count := 0#8, value := 0#8, j := 0#8, olen := 0,
        st := if 0 < s.dec.ilen then .dRdcnt else .dRet }) :=
  if_neg (by omega)

theorem execDRdcnt_of_inside (hi : s.dec.i < s.cfg.decInCap) :
    execDRdcnt s = .next (s.setDec { s.dec with count := s.byteAt .decIbuf s.dec.i, st := .dRdval }) :=
  withInputByte_inside (u := .dec) hi _

theorem execDRdval_of_inside (hi : s.dec.i + 1 < s.cfg.decInCap) :
    execDRdval s = .next (s.setDec
      { s.dec with value := s.byteAt .decIbuf (s.dec.i + 1), j := 0#8, st := .dLoop }) :=
  withInputByte_inside (u := .dec) hi _

/-! ### `D_LOOP`, `D_APPEND` (41_decoder R154, R155) -/

theorem execDLoop_of_lt (h : s.dec.j.toNat < s.dec.count.toNat) :
    execDLoop s = .next (s.setDec { s.dec with st := .dAppend }) := by
  rw [execDLoop, if_pos h]

theorem execDLoop_of_le (h : s.dec.count.toNat ≤ s.dec.j.toNat) :
    execDLoop s = .next (s.setDec { s.dec with st := .dNext }) := by
  rw [execDLoop, if_neg (not_lt.2 h)]

/-- The decoder back at the loop test with `n` more copies of the value made. -/
def Dec.copies (n : Nat) (d : Dec) : Dec :=
  { d.appendRun n d.value with j := d.j + BitVec.ofNat 8 n, st := .dLoop }

theorem execDAppend_of_fits (h : s.dec.olen + 1 ≤ s.cfg.decOutCap) :
    execDAppend s = .next (s.setDec (s.dec.copies 1)) :=
  if_neg (not_lt.2 h)

theorem execDAppend_of_overflow (h : s.cfg.decOutCap < s.dec.olen + 1) :
    execDAppend s = .next (s.setDec (s.dec.raise .outputOverflow)) :=
  if_pos h

theorem Dec.copies_zero {d : Dec} (h : d.st = .dLoop) : d.copies 0 = d := by
  cases d
  cases h
  simp [Dec.copies, Dec.appendRun, Memory.writeRun]

theorem Dec.copies_succ (n : Nat) (d : Dec) : d.copies (n + 1) = (d.copies n).copies 1 := by
  simp only [Dec.copies, Dec.appendRun, Memory.writeRun_succ n, BitVec.ofNat_add, BitVec.add_assoc]
  rfl

/-- The number of copies made never wraps, for it stays within the count (41_decoder R155). -/
theorem Dec.copies_j {n : Nat} {d : Dec} (h : d.j.toNat + n ≤ d.count.toNat) :
    (d.copies n).j.toNat = d.j.toNat + n := by
  have hcount : d.count.toNat < 256 := d.count.isLt
  simp only [Dec.copies, BitVec.toNat_add, BitVec.toNat_ofNat]
  omega

/-- The decoder `d'` holds the buffers of `d` with `n` copies of `v` written from the end of the output on (41_decoder
R155, R164). -/
structure Dec.Appends (n : Nat) (v : Byte) (d d' : Dec) : Prop where
  ibuf : d'.ibuf = d.ibuf
  obuf : d'.obuf = Memory.writeRun n d.obuf d.olen v

theorem Dec.appends_copies (n : Nat) (d : Dec) : d.Appends n d.value (d.copies n) := ⟨rfl, rfl⟩

theorem Dec.Appends.byteAt_inside {d : Dec} {n k : Nat} {v : Byte} (h : s.dec.Appends n v d) (hk : s.dec.olen ≤ k)
    (hk' : k < s.dec.olen + n) : (s.setDec d).byteAt .decObuf k = v := by
  simp [State.byteAt, State.buffer, h.obuf, Memory.find_writeRun, hk, hk']

/-- No other byte of any buffer changes. -/
theorem Dec.Appends.byteAt_outside {d : Dec} {n k : Nat} {v : Byte} {b : BufferId} (h : s.dec.Appends n v d)
    (hk : ¬(b = .decObuf ∧ s.dec.olen ≤ k ∧ k < s.dec.olen + n)) : (s.setDec d).byteAt b k = s.byteAt b k := by
  cases b with
  | encIbuf | encObuf => rfl
  | decIbuf => exact setDec_byteAt_decIbuf s h.ibuf k
  | decObuf =>
    have hout : ¬(s.dec.olen ≤ k ∧ k < s.dec.olen + n) := fun hin => hk ⟨rfl, hin⟩
    simp [State.byteAt, State.buffer, h.obuf, Memory.find_writeRun, hout]

end

/-- Settles O16: `D_INIT` tests the length alone, and both its branches make the five clears. -/
theorem initClearsAndRejectsOddLength : Obligations.InitClearsAndRejectsOddLength := by
  unfold Obligations.InitClearsAndRejectsOddLength
  exact fun s => ⟨fun hodd => ⟨_, execDInit_of_odd hodd, rfl, rfl, rfl, rfl⟩, execDInit_of_even⟩

/-- Settles O17: both reads are inside the buffer, and in both states a whole pair lies ahead (10_state R47 (f)). -/
theorem pairBytesAreReadInOrder : Obligations.PairBytesAreReadInOrder := by
  unfold Obligations.PairBytesAreReadInOrder
  refine ⟨fun s => execDRdcnt_of_inside, fun s => execDRdval_of_inside, fun s hinv hst => ?_⟩
  have hpair : s.dec.st.inPair = true := by rcases hst with hst | hst <;> rw [hst] <;> rfl
  exact ⟨hinv.dec.index_even, (hinv.dec.pair hpair).2⟩

/-- Settles O18: each is its meaning, and R47 (f) bounds `j` in the loop and the index in a pair. -/
theorem decoderRegisterStepResults : Obligations.DecoderRegisterStepResults := by
  unfold Obligations.DecoderRegisterStepResults
  refine ⟨fun s hinv => ⟨fun hst => ?_, fun hst => ?_⟩, fun s => ⟨rfl, rfl, _, rfl, rfl, rfl, rfl, rfl⟩⟩
  · obtain ⟨-, -, hj⟩ := hinv.dec.loop (by rw [hst]; rfl)
    exact hj
  · exact (hinv.dec.pair (by rw [hst]; rfl)).2

/-- Settles O19: one append is a run of one copy, a full output the fault entry, and R47 (f) has `j` below the count. -/
theorem appendStoresByteOrOverflows : Obligations.AppendStoresByteOrOverflows := by
  unfold Obligations.AppendStoresByteOrOverflows
  refine ⟨fun s hfits => ⟨_, execDAppend_of_fits hfits, rfl, ?_, fun b k hk => ?_⟩,
    fun s hover => ⟨_, execDAppend_of_overflow hover, rfl, rfl, rfl⟩, fun s hinv hst => ?_⟩
  · exact (Dec.appends_copies 1 s.dec).byteAt_inside le_rfl (Nat.lt_succ_self _)
  · exact (Dec.appends_copies 1 s.dec).byteAt_outside fun h => hk ⟨h.1, by omega⟩
  · have hlt := hinv.dec.append hst
    exact ⟨hlt, Dec.copies_j (n := 1) hlt⟩

end Sys2Proof.Machine
end

section
/-! ## 41_decoder R164, R165: the pair word as one step, and as its micro-operations -/

namespace Sys2Proof.Machine

/-! ### The effect of the pair word -/

/-- The decoder past a pair whose run it has appended. -/
def Dec.pairStored (c v : Byte) (d : Dec) : Dec :=
  { { d with count := c, value := v }.appendRun c.toNat v with j := c }.advance

/-- The decoder in `FAULT` at a pair of whose run `room` bytes have fitted (60_exceptions R242). -/
def Dec.pairCut (room : Nat) (c v : Byte) (d : Dec) : Dec :=
  { { d with count := c, value := v }.appendRun room v with j := BitVec.ofNat 8 room }.raise .outputOverflow

theorem Dec.appends_pairStored (c v : Byte) (d : Dec) : d.Appends c.toNat v (d.pairStored c v) := ⟨rfl, rfl⟩

theorem Dec.appends_pairCut (room : Nat) (c v : Byte) (d : Dec) : d.Appends room v (d.pairCut room c v) :=
  ⟨rfl, rfl⟩

section
variable {s : State} {c v : Byte}

theorem execPair_of_fits (h : s.dec.olen + c.toNat ≤ s.cfg.decOutCap) :
    execPair c v s = .next (s.setDec (s.dec.pairStored c v)) :=
  if_neg (not_lt.2 h)

theorem execPair_of_overflow (h : s.cfg.decOutCap < s.dec.olen + c.toNat) :
    execPair c v s = .next (s.setDec (s.dec.pairCut (s.cfg.decOutCap - s.dec.olen) c v)) :=
  if_pos h

/-- The row `PAIR.ZERO` does what the general row would do with a count of 0 (30_encoding R104, log 16). -/
theorem exec_decodePair16 (holen : s.dec.olen ≤ s.cfg.decOutCap) (c v : Byte) :
    exec (decodePair16 c v) s = execPair c v s := by
  rw [decodePair16]
  split_ifs with hzero
  · subst hzero
    exact (execPair_of_fits (c := 0#8) holen).symm
  · rfl

end

/-- Settles O20: the pair word appends its run where that fits, and as many copies as there is room for where it does
not. -/
theorem pairWordAppendsItsRun : Obligations.PairWordAppendsItsRun := by
  unfold Obligations.PairWordAppendsItsRun
  refine ⟨fun s c v hfits => ⟨_, execPair_of_fits hfits, rfl, fun k hk => ?_, fun b k hk => ?_⟩,
    fun s c v hle hover => ⟨_, execPair_of_overflow hover, ?_, ?_, fun k hk hk' => ?_, fun b k hk => ?_⟩,
    fun s v => rfl⟩
  · exact (Dec.appends_pairStored c v s.dec).byteAt_inside (Nat.le_add_right ..) (Nat.add_lt_add_left hk _)
  · exact (Dec.appends_pairStored c v s.dec).byteAt_outside hk
  · have holen : s.dec.olen + (s.cfg.decOutCap - s.dec.olen) = s.cfg.decOutCap := Nat.add_sub_cancel' hle
    simp only [Dec.pairCut, Dec.appendRun, holen]
    rfl
  · have hcount : c.toNat < 256 := c.isLt
    show s.dec.olen + (BitVec.ofNat 8 _).toNat = _
    rw [BitVec.toNat_ofNat]
    omega
  · exact (Dec.appends_pairCut _ c v s.dec).byteAt_inside hk (by omega)
  · exact (Dec.appends_pairCut _ c v s.dec).byteAt_outside (by rwa [Nat.add_sub_cancel' hle])

/-! ### Its micro-operations -/

/-- The decoder with a pair read and no copy of its value made yet (41_decoder R152, R153). -/
def Dec.pairRead (c v : Byte) (d : Dec) : Dec := { d with count := c, value := v, j := 0#8, st := .dLoop }

theorem Dec.advance_copies_pairRead (c v : Byte) (d : Dec) :
    ((d.pairRead c v).copies c.toNat).advance = d.pairStored c v := by
  simp only [Dec.copies, Dec.pairRead, Dec.pairStored, Dec.advance, BitVec.zero_add, BitVec.ofNat_toNat,
    BitVec.setWidth_eq]
  rfl

theorem Dec.raise_copies_pairRead (room : Nat) (c v : Byte) (d : Dec) :
    ((d.pairRead c v).copies room).raise .outputOverflow = d.pairCut room c v := by
  simp only [Dec.copies, Dec.pairRead, Dec.pairCut, Dec.raise, BitVec.zero_add]
  rfl

theorem Dec.copies_pairRead_j {n : Nat} {c : Byte} (hn : n ≤ c.toNat) (v : Byte) (d : Dec) :
    ((d.pairRead c v).copies n).j.toNat = n :=
  (Dec.copies_j (by simpa [Dec.pairRead] using hn)).trans (by simp [Dec.pairRead])

/-- The decoder is about to read the pair of `c` and `v`, which lies inside its input buffer. -/
structure AtPair (c v : Byte) (s : State) : Prop where
  st : s.dec.st = .dRdcnt
  inside : s.dec.i + 1 < s.cfg.decInCap
  count : s.byteAt .decIbuf s.dec.i = c
  value : s.byteAt .decIbuf (s.dec.i + 1) = v

theorem atPair_of_dRdcnt {s : State} (hinv : Inv s) (hst : s.dec.st = .dRdcnt) :
    AtPair (s.byteAt .decIbuf s.dec.i) (s.byteAt .decIbuf (s.dec.i + 1)) s :=
  ⟨hst, (hinv.dec.pair (by rw [hst]; rfl)).2.trans_le hinv.dec.ilen_le, rfl, rfl⟩

section
variable {s : State} {c v : Byte}

theorem AtPair.runs_read (h : AtPair c v s) : Runs .dec 2 s (s.setDec (s.dec.pairRead c v)) := by
  obtain ⟨hst, hi, rfl, rfl⟩ := h
  have hcount := Runs.one ((micro_dRdcnt hst).trans (execDRdcnt_of_inside (Nat.lt_of_succ_lt hi)))
  exact hcount.trans (.one ((micro_dRdval rfl).trans (execDRdval_of_inside hi)))

/-- One turn of the loop: the test and the append (41_decoder R154, R155). -/
theorem runs_append (hst : s.dec.st = .dLoop) (hj : s.dec.j.toNat < s.dec.count.toNat)
    (hroom : s.dec.olen + 1 ≤ s.cfg.decOutCap) : Runs .dec 2 s (s.setDec (s.dec.copies 1)) :=
  (Runs.one ((micro_dLoop hst).trans (execDLoop_of_lt hj))).trans
    (.one ((micro_dAppend rfl).trans (execDAppend_of_fits hroom)))

/-- The turn of the loop that finds the output full. -/
theorem runs_append_overflow (hst : s.dec.st = .dLoop) (hj : s.dec.j.toNat < s.dec.count.toNat)
    (hfull : s.cfg.decOutCap < s.dec.olen + 1) : Runs .dec 2 s (s.setDec (s.dec.raise .outputOverflow)) :=
  (Runs.one ((micro_dLoop hst).trans (execDLoop_of_lt hj))).trans
    (.one ((micro_dAppend rfl).trans (execDAppend_of_overflow hfull)))

/-- The loop test that finds all copies made, and the advance (41_decoder R154, R156). -/
theorem runs_next (hst : s.dec.st = .dLoop) (hj : s.dec.count.toNat ≤ s.dec.j.toNat) :
    Runs .dec 2 s (s.setDec s.dec.advance) :=
  (Runs.one ((micro_dLoop hst).trans (execDLoop_of_le hj))).trans (.one (micro_dNext rfl))

/-- `n` turns of the loop make `n` copies, as long as the count asks for them and the output has room. -/
theorem runs_copies (hst : s.dec.st = .dLoop) {n : Nat} (hj : s.dec.j.toNat + n ≤ s.dec.count.toNat)
    (hroom : s.dec.olen + n ≤ s.cfg.decOutCap) : Runs .dec (2 * n) s (s.setDec (s.dec.copies n)) := by
  induction n with
  | zero => rw [Dec.copies_zero hst]; exact .refl .dec s
  | succ n ih =>
    have hmade : (s.dec.copies n).j.toNat < s.dec.count.toNat := by rw [Dec.copies_j] <;> omega
    have hrun := ih (by omega) (by omega)
    rw [Dec.copies_succ]
    exact hrun.trans (runs_append (s := s.setDec (s.dec.copies n)) rfl hmade hroom)

/-- A pair whose run has room for `n` copies takes two steps to be read and two for each of them. -/
theorem AtPair.runs_read_copies (h : AtPair c v s) {n : Nat} (hn : n ≤ c.toNat)
    (hroom : s.dec.olen + n ≤ s.cfg.decOutCap) :
    Runs .dec (2 + 2 * n) s (s.setDec ((s.dec.pairRead c v).copies n)) :=
  h.runs_read.trans
    (runs_copies (s := s.setDec (s.dec.pairRead c v)) rfl (by simpa [Dec.pairRead] using hn) hroom)

/-- A pair whose run fits takes `4 + 2c` steps (41_decoder R164). -/
theorem AtPair.runs_stored (h : AtPair c v s) (hfits : s.dec.olen + c.toNat ≤ s.cfg.decOutCap) :
    Runs .dec (4 + 2 * c.toNat) s (s.setDec (s.dec.pairStored c v)) := by
  have hmade := Dec.copies_pairRead_j (le_refl c.toNat) v s.dec
  have hnext := runs_next (s := s.setDec ((s.dec.pairRead c v).copies c.toNat)) rfl hmade.ge
  have hrun := (h.runs_read_copies le_rfl hfits).trans hnext
  rwa [setDec_setDec, setDec_dec, Dec.advance_copies_pairRead, Nat.add_right_comm] at hrun

/-- A pair whose run does not fit takes two steps for each copy that does, and the four that read it and fault. -/
theorem AtPair.runs_cut (h : AtPair c v s) {room : Nat} (hroom : s.dec.olen + room = s.cfg.decOutCap)
    (hover : room < c.toNat) : Runs .dec (4 + 2 * room) s (s.setDec (s.dec.pairCut room c v)) := by
  have hmade := Dec.copies_pairRead_j hover.le v s.dec
  have hfault := runs_append_overflow (s := s.setDec ((s.dec.pairRead c v).copies room)) rfl (hmade.trans_lt hover)
    (Nat.lt_succ_of_le hroom.ge)
  have hrun := (h.runs_read_copies hover.le hroom.le).trans hfault
  rwa [setDec_setDec, setDec_dec, Dec.raise_copies_pairRead, Nat.add_right_comm] at hrun

/-- In `D_RDCNT` the pair turn is the pair word's meaning. -/
theorem AtPair.takePair (h : AtPair c v s) (holen : s.dec.olen ≤ s.cfg.decOutCap) :
    takeTurn .pair s = execPair c v s := by
  obtain ⟨hst, hi, rfl, rfl⟩ := h
  exact ((takePair_of_inside hst hi).trans (runFetched_of_decode rfl s)).trans (exec_decodePair16 holen _ _)

end

/-- Settles O21: the loop makes one copy after another, until the count is reached or the output is full; there the big
step and the micro-operations leave the same decoder. -/
theorem pairWordIsItsMicroOperations : Obligations.PairWordIsItsMicroOperations := by
  unfold Obligations.PairWordIsItsMicroOperations
  intro s hinv hst
  have hpair := atPair_of_dRdcnt hinv hst
  have holen := hinv.dec.olen_le
  rw [hpair.takePair holen]
  refine ⟨fun hfits => ?_, fun hover => ?_⟩
  · exact (execPair_of_fits hfits).trans (hpair.runs_stored hfits).symm
  · exact (execPair_of_overflow hover).trans (hpair.runs_cut (Nat.add_sub_cancel' holen) (by omega)).symm

end Sys2Proof.Machine
end

section
/-! ## 41_decoder R161: how long a result is -/

namespace Sys2Proof.Reference

/-- A result is as long as the counts say. -/
theorem length_of_decode : ∀ {encoded out : List Byte}, decode encoded = .ok out → out.length = countSum encoded
  | [], _, h => by cases h; rfl
  | [_], _, h => by cases h
  | count :: value :: rest, out, h => by
    rw [decode] at h
    cases hrest : decode rest with
    | error e => simp [hrest] at h
    | ok tail =>
      simp only [hrest, Except.ok.injEq] at h
      rw [← h, List.length_append, List.length_replicate, length_of_decode hrest, countSum]

theorem even_of_decode {encoded out : List Byte} (h : decode encoded = .ok out) : encoded.length % 2 = 0 := by
  by_contra hodd
  rw [decode_of_odd encoded (by omega)] at h
  cases h

theorem countSum_append : ∀ {front : List Byte} (rest : List Byte), front.length % 2 = 0 →
    countSum (front ++ rest) = countSum front + countSum rest
  | [], rest, _ => (Nat.zero_add _).symm
  | [_], _, h => by cases h
  | count :: value :: front, rest, h => by
    simp only [List.length_cons] at h
    simp only [List.cons_append, countSum, countSum_append rest (show front.length % 2 = 0 by omega), Nat.add_assoc]

/-- What is decoded so far is as long as the counts of the pairs already decoded say. -/
theorem DecodesTo.length_of_front {encoded out front rest : List Byte} (h : DecodesTo encoded out rest)
    (hsplit : encoded = front ++ rest) (heven : front.length % 2 = 0) : out.length = countSum front := by
  obtain ⟨tail, htail, hall⟩ := h
  have hlength := length_of_decode hall
  rw [List.length_append, length_of_decode htail, hsplit, countSum_append rest heven] at hlength
  exact Nat.add_right_cancel hlength

end Sys2Proof.Reference
end

section
/-! ## 41_decoder R162: what a run of the decoder computes -/

namespace Sys2Proof.Machine

/-! ### One pair after another -/

/-- The registers hold the last pair of `consumed`, or the 0 of `D_INIT` before there is one (41_decoder R162). -/
def Dec.holdsLast (consumed : List Byte) (d : Dec) : Prop :=
  (consumed = [] ∧ d.count = 0#8 ∧ d.value = 0#8 ∧ d.j = 0#8) ∨
    ∃ front, consumed = front ++ [d.count, d.value] ∧ d.j = d.count

/-- A run of the decoder on `bytes` at the loop test, between two pairs. -/
structure BetweenPairs (bytes : List Byte) (s : State) : Prop where
  inv : Inv s
  run : UnitRun .dec bytes s
  st : s.dec.st = if s.dec.i < s.dec.ilen then .dRdcnt else .dRet
  last : s.dec.holdsLast (bytes.take s.dec.i)

/-- How a run of the decoder on an even number of `bytes` ends: in `DONE` at the end of the input, or in `FAULT` at the
first pair whose run does not fit. -/
inductive DecEnds (bytes : List Byte) (t : State) : Prop where
  | done (st : t.dec.st = .done) (index : t.dec.i = t.dec.ilen) (last : t.dec.holdsLast bytes)
  | fault (st : t.dec.st = .fault) (full : t.dec.olen = t.cfg.decOutCap) (index : t.dec.i < t.dec.ilen)
      (result : ∀ out, Reference.decode bytes = .ok out → t.output .dec = out.take t.dec.olen)
      (before : Reference.countSum (bytes.take t.dec.i) ≤ t.cfg.decOutCap)
      (after : t.cfg.decOutCap < Reference.countSum (bytes.take (t.dec.i + 2)))

/-- The steps of a run that fits, from the loop test on with `rest` to decode: four a pair, two a byte of the result,
and `D_RET`. -/
def decStepsFor (rest : List Byte) : Nat := 1 + 4 * (rest.length / 2) + 2 * Reference.countSum rest

section
variable {bytes : List Byte} {s : State}

theorem UnitRun.dec_ilen (h : UnitRun .dec bytes s) : s.dec.ilen = bytes.length := by
  rw [← h.input]
  exact (input_length .dec s).symm

/-- The step before the first loop test (41_decoder R151). -/
theorem runs_to_first_pair (hinv : Inv s) (hst : s.dec.st = .dInit) (heven : s.dec.ilen % 2 = 0) :
    ∃ t, Runs .dec 1 s t ∧ BetweenPairs (s.input .dec) t ∧ t.dec.i = 0 := by
  have hrun := Runs.one ((micro_dInit hst).trans (execDInit_of_even heven))
  have howes : UnitOwes .dec (s.input .dec) s := by rw [UnitOwes, hst]; trivial
  exact ⟨_, hrun, ⟨hrun.inv hinv, hrun.unitRun hinv ⟨rfl, howes⟩, rfl, .inl ⟨rfl, rfl, rfl, rfl⟩⟩, rfl⟩

/-- A run of the decoder on `bytes` about to read the pair of `c` and `v`. -/
structure BeforePair (bytes : List Byte) (c v : Byte) (s : State) : Prop where
  inv : Inv s
  run : UnitRun .dec bytes s
  pair : AtPair c v s
  split : bytes.drop s.dec.i = c :: v :: bytes.drop (s.dec.i + 2)

theorem BetweenPairs.beforePair (h : BetweenPairs bytes s) (hi : s.dec.i < s.dec.ilen) :
    ∃ c v, BeforePair bytes c v s := by
  have hst : s.dec.st = .dRdcnt := by rw [h.st, if_pos hi]
  have hinside := (h.inv.dec.pair (by rw [hst]; rfl)).2
  exact ⟨_, _, h.inv, h.run, atPair_of_dRdcnt h.inv hst, h.run.drop_pair hinside⟩

section
variable {c v : Byte} (h : BeforePair bytes c v s)
include h

theorem BeforePair.decodesTo : Reference.DecodesTo bytes (s.output .dec) (c :: v :: bytes.drop (s.dec.i + 2)) := by
  have howes : Reference.DecodesTo bytes (s.output .dec) (bytes.drop s.dec.i) := h.run.dec_owes h.pair.st
  rwa [h.split] at howes

theorem BeforePair.index_lt : s.dec.i < s.dec.ilen :=
  Nat.lt_of_succ_lt (h.inv.dec.pair (by rw [h.pair.st]; rfl)).2

theorem BeforePair.take_even : (bytes.take s.dec.i).length % 2 = 0 := by
  rw [List.length_take_of_le (h.run.dec_ilen ▸ h.index_lt.le)]
  exact h.inv.dec.index_even

theorem BeforePair.take_next : bytes.take (s.dec.i + 2) = bytes.take s.dec.i ++ [c, v] := by
  rw [List.take_add, h.split]
  rfl

/-- Before the pair the output holds what the counts so far say. -/
theorem BeforePair.countSum_take : Reference.countSum (bytes.take s.dec.i) = s.dec.olen := by
  have hsplit : bytes = bytes.take s.dec.i ++ c :: v :: bytes.drop (s.dec.i + 2) := by
    rw [← h.split, List.take_append_drop]
  exact (h.decodesTo.length_of_front hsplit h.take_even).symm.trans (output_length .dec s)

theorem BeforePair.countSum_take_next :
    Reference.countSum (bytes.take (s.dec.i + 2)) = s.dec.olen + c.toNat := by
  rw [h.take_next, Reference.countSum_append _ h.take_even, h.countSum_take]
  rfl

/-- A pair whose run fits brings the run to the next loop test. -/
theorem BeforePair.stored (hfits : s.dec.olen + c.toNat ≤ s.cfg.decOutCap) :
    BetweenPairs bytes (s.setDec (s.dec.pairStored c v)) :=
  have hrun := h.pair.runs_stored hfits
  ⟨hrun.inv h.inv, hrun.unitRun h.inv h.run, rfl, .inr ⟨bytes.take s.dec.i, h.take_next, rfl⟩⟩

/-- A pair takes `4 + 2c` of the steps. -/
theorem BeforePair.decStepsFor_drop :
    decStepsFor (bytes.drop s.dec.i) = 4 + 2 * c.toNat + decStepsFor (bytes.drop (s.dec.i + 2)) := by
  simp only [decStepsFor, h.split, List.length_cons, Reference.countSum]
  omega

/-- What a pair that is cut has appended is the beginning of what the function makes of it. -/
theorem BeforePair.output_cut {room : Nat} {out : List Byte} (hroom : room ≤ c.toNat)
    (hout : Reference.decode bytes = .ok out) :
    (s.setDec (s.dec.pairCut room c v)).output .dec = out.take (s.dec.olen + room) := by
  obtain ⟨tail, -, hall⟩ := h.decodesTo.pair
  obtain rfl : _ = out := Except.ok.inj (hall.symm.trans hout)
  have houtput := output_appendRun (s := s) (t := s.setDec (s.dec.pairCut room c v)) room v rfl rfl rfl
  have hlength : (s.output .dec ++ List.replicate room v).length = s.dec.olen + room := by simp [State.olen]
  rw [houtput, ← Nat.add_sub_cancel' hroom, ← List.replicate_append_replicate, ← List.append_assoc,
    List.append_assoc, List.take_left' hlength]

/-- A pair whose run does not fit ends the run. -/
theorem BeforePair.cut {room : Nat} (hroom : s.dec.olen + room = s.cfg.decOutCap) (hover : room < c.toNat) :
    DecEnds bytes (s.setDec (s.dec.pairCut room c v)) :=
  .fault rfl hroom h.index_lt (fun _ => h.output_cut hover.le) (h.countSum_take.trans_le h.inv.dec.olen_le)
    (hroom ▸ (Nat.add_lt_add_left hover _).trans_eq h.countSum_take_next.symm)

end

/-- From the loop test on a run ends, and where it ends in `DONE` the number of its steps is known. -/
theorem BetweenPairs.ends (h : BetweenPairs bytes s) :
    ∃ n t, Runs .dec n s t ∧ DecEnds bytes t ∧ (t.dec.st = .done → n = decStepsFor (bytes.drop s.dec.i)) := by
  induction hk : s.dec.ilen - s.dec.i using Nat.strong_induction_on generalizing s with
  | _ k ih =>
    by_cases hi : s.dec.i < s.dec.ilen
    · obtain ⟨c, v, hpair⟩ := h.beforePair hi
      by_cases hfits : s.dec.olen + c.toNat ≤ s.cfg.decOutCap
      · obtain ⟨n, t, hrest, hends, hsteps⟩ := ih (s.dec.ilen - (s.dec.i + 2)) (by omega) (hpair.stored hfits) rfl
        exact ⟨_, t, (hpair.pair.runs_stored hfits).trans hrest, hends, fun hdone => by
          rw [hsteps hdone, hpair.decStepsFor_drop]; rfl⟩
      · have hroom := Nat.add_sub_cancel' h.inv.dec.olen_le
        have hover : s.cfg.decOutCap - s.dec.olen < c.toNat := by omega
        exact ⟨_, _, hpair.pair.runs_cut hroom hover, hpair.cut hroom hover, nofun⟩
    · have hst : s.dec.st = .dRet := by rw [h.st, if_neg hi]
      have hlen := h.run.dec_ilen.symm.trans_le (not_lt.1 hi)
      refine ⟨1, _, .one (micro_dRet hst), .done rfl (h.inv.dec.returned hst).1 ?_, fun _ => ?_⟩
      · have hlast := h.last
        rwa [List.take_of_length_le hlen] at hlast
      · rw [List.drop_eq_nil_of_le hlen]
        rfl

/-! ### The whole run -/

theorem OnlyUnit.eq_dec {t : State} (h : OnlyUnit s .dec t) : t = { s with dec := t.dec } := by cases h; rfl

/-- A run of the decoder leaves its input buffer alone, by the argument of `Runs.ibuf`. -/
theorem Runs.dec_ibuf {n : Nat} {t : State} (h : Runs .dec n s t) (hinv : Inv s) : t.dec.ibuf = s.dec.ibuf := by
  refine (h.keeps (P := fun t => t.dec.ibuf = s.dec.ibuf) (fun {s' t'} hinv' ht hkept => ?_) hinv rfl).2
  have hself := micro_dec_withInput hinv' (m := s'.dec.ibuf) fun _ _ => rfl
  rw [show s'.withInput .dec s'.dec.ibuf = s' from rfl, ht, mapNext_next, Host.Outcome.next.injEq] at hself
  exact (congrArg (·.dec.ibuf) hself).trans hkept

/-- What a run of the decoder leaves alone (00_scope R5, 41_decoder R162). -/
theorem Runs.dec_frame {n : Nat} {t : State} (h : Runs .dec n s t) (hinv : Inv s)
    (hrun : UnitRun .dec (s.input .dec) t) :
    t = { s with dec := t.dec } ∧ t.dec.ibuf = s.dec.ibuf ∧ t.dec.ilen = s.dec.ilen :=
  ⟨(h.onlyUnit hinv).eq_dec, h.dec_ibuf hinv, hrun.dec_ilen.trans (input_length .dec s)⟩

/-- A run of the decoder on a decodable input ends, and where it ends in `DONE` it has taken `2 + 4P + 2M` steps. -/
theorem decoder_run_ends {out : List Byte} (hinv : Inv s) (hst : s.dec.st = .dInit)
    (hout : Reference.decode (s.input .dec) = .ok out) :
    ∃ n t, Runs .dec n s t ∧ UnitRun .dec (s.input .dec) t ∧ DecEnds (s.input .dec) t ∧
      (t.dec.st = .done → n = 2 + 4 * (s.dec.ilen / 2) + 2 * out.length) := by
  have heven := Reference.even_of_decode hout
  rw [input_length] at heven
  obtain ⟨s', hstart, hloop, hi⟩ := runs_to_first_pair hinv hst heven
  obtain ⟨n, t, hrun, hends, hsteps⟩ := hloop.ends
  refine ⟨1 + n, t, hstart.trans hrun, hrun.unitRun hloop.inv hloop.run, hends, fun hdone => ?_⟩
  rw [hsteps hdone, hi, List.drop_zero, decStepsFor, input_length, Reference.length_of_decode hout, ← Nat.add_assoc,
    ← Nat.add_assoc]
  rfl

/-- A run that ended in `DONE` holds the result. -/
theorem UnitRun.output_of_done {out : List Byte} (h : UnitRun .dec bytes s) (hst : s.dec.st = .done)
    (hout : Reference.decode bytes = .ok out) : s.output .dec = out :=
  Except.ok.inj (Eq.trans (h.dec_owes hst).symm hout)

/-- A run on a decodable input that ended in `FAULT` had too little room for the result. -/
theorem UnitRun.overflow_of_fault {out : List Byte} (h : UnitRun .dec bytes s) (hst : s.dec.st = .fault)
    (hout : Reference.decode bytes = .ok out) : s.dec.err = .outputOverflow ∧ s.cfg.decOutCap < out.length := by
  rcases h.dec_owes hst with ⟨-, hdecode⟩ | ⟨herr, out', hdecode, hover⟩
  · cases hdecode.symm.trans hout
  · exact ⟨herr, Except.ok.inj (hdecode.symm.trans hout) ▸ hover⟩

/-- Of an empty input the registers hold the 0 of `D_INIT`. -/
theorem Dec.holdsLast.zero {d : Dec} (h : d.holdsLast []) : d.count = 0#8 ∧ d.value = 0#8 ∧ d.j = 0#8 := by
  rcases h with ⟨-, hzero⟩ | ⟨front, hfront, -⟩
  · exact hzero
  · simp at hfront

theorem Dec.holdsLast.eq_last {d : Dec} {front : List Byte} {c v : Byte} (h : d.holdsLast (front ++ [c, v])) :
    d.count = c ∧ d.value = v ∧ d.j = c := by
  rcases h with ⟨hnil, -⟩ | ⟨front', hfront, hj⟩
  · simp at hnil
  · obtain ⟨-, hpair⟩ := List.append_inj' hfront rfl
    simp only [List.cons.injEq, and_true] at hpair
    exact ⟨hpair.1.symm, hpair.2.symm, hj.trans hpair.1.symm⟩

end

/-- Settles O51: pair after pair the run appends what the function makes of it, until the input is at its end or the
output is full; which of the two it is, the length of the result says. -/
theorem decoderRunComputesDecode : Obligations.DecoderRunComputesDecode := by
  unfold Obligations.DecoderRunComputesDecode
  intro s hinv hst
  refine ⟨fun hodd => ?_, fun out hout hfits => ?_, fun out hout hover => ?_⟩
  · have hrun := Runs.one ((micro_dInit hst).trans (execDInit_of_odd hodd))
    exact ⟨_, hrun, rfl, rfl, rfl, rfl, rfl, rfl, rfl, rfl, rfl, rfl⟩
  · obtain ⟨n, t, hruns, hrun, hends, hsteps⟩ := decoder_run_ends hinv hst hout
    obtain ⟨hframe, hibuf, hilen⟩ := hruns.dec_frame hinv hrun
    have hcfg : t.cfg = s.cfg := (hruns.onlyUnit hinv).cfg
    cases hends with
    | fault htst =>
      obtain ⟨-, hover⟩ := hrun.overflow_of_fault htst hout
      exact absurd hfits (not_le.2 (hcfg ▸ hover))
    | done htst hindex hlast =>
      have houtput := hrun.output_of_done htst hout
      exact ⟨t, hsteps htst ▸ hruns, hframe, hibuf, hilen, htst, (hruns.inv hinv).dec.err_none (by simp [htst]),
        hindex.trans hilen, houtput ▸ (output_length .dec t).symm, Reference.length_of_decode hout, houtput,
        fun hnil => (hnil ▸ hlast).zero, fun front c v hpair => (hpair ▸ hlast).eq_last⟩
  · obtain ⟨n, t, hruns, hrun, hends, -⟩ := decoder_run_ends hinv hst hout
    obtain ⟨hframe, hibuf, hilen⟩ := hruns.dec_frame hinv hrun
    have hcfg : t.cfg = s.cfg := (hruns.onlyUnit hinv).cfg
    have htinv := hruns.inv hinv
    cases hends with
    | done htst =>
      have hlength : out.length = t.dec.olen := hrun.output_of_done htst hout ▸ output_length .dec t
      exact absurd htinv.dec.olen_le (not_le.2 (hlength ▸ hcfg ▸ hover))
    | fault htst hfull hindex hresult hbefore hafter =>
      obtain ⟨herr, -⟩ := hrun.overflow_of_fault htst hout
      have htake := hresult out hout
      rw [hcfg] at hfull hbefore hafter
      rw [hfull] at htake
      exact ⟨n, t, hruns, hframe, hibuf, hilen, htst, herr, hfull, htake, htinv.dec.index_even, hilen ▸ hindex,
        hbefore, hafter⟩

end Sys2Proof.Machine
end

section
/-! ## 42_host_operations R196: what the other agents do to a BUSY unit -/

namespace Sys2Proof.Machine

section
variable {s t : State} {u : UnitId}

/-! ### Host operations on any unit -/

theorem clear_of_resting (hrest : s.busy u = false) : OnlyUnit s u (s.clear u) := by
  cases u with
  | enc => rw [clear_enc hrest]; exact .enc _
  | dec => rw [clear_dec hrest]; exact .dec _

/-- A unit at rest is another one than a BUSY unit. -/
theorem ne_of_busy_of_resting {v : UnitId} (hbusy : s.busy u = true) (hrest : s.busy v = false) : v ≠ u := by
  rintro rfl
  exact Bool.false_ne_true (hrest.symm.trans hbusy)

theorem SameUnit.hostRead (u : UnitId) (s : State) (b : BufferId) (k : Nat) : SameUnit u s (s.hostRead b k) := by
  unfold State.hostRead
  split_ifs <;> exact ⟨rfl, rfl, fun _ => rfl, fun _ => rfl⟩

section
variable (hbusy : s.busy u = true)
include hbusy

theorem sameUnit_ctrlWrite (v : UnitId) (w : Word32) : SameUnit u s (s.ctrlWrite v w) := by
  rcases ctrlWrite_cases v w s with hnop | ⟨hrest, ⟨-, hstart⟩ | ⟨-, -, hclear⟩⟩
  · rw [hnop]; exact .refl u s
  · exact hstart ▸ (start_of_resting hrest).1.same (ne_of_busy_of_resting hbusy hrest)
  · exact hclear ▸ (clear_of_resting hrest).same (ne_of_busy_of_resting hbusy hrest)

theorem sameUnit_writeIlen (v : UnitId) (n : Word32) : SameUnit u s (s.writeIlen v n) := by
  by_cases hok : s.busy v = false ∧ n.toNat ≤ s.cfg.inCap v
  · obtain ⟨hrest, hn⟩ := hok
    exact (writeIlen_of_resting hrest hn).1.same (ne_of_busy_of_resting hbusy hrest)
  · rw [writeIlen_ignored (by simpa [-not_and, not_and_or] using hok)]
    exact .refl u s

theorem sameUnit_writeIbuf (v : UnitId) (k : Nat) (b : Byte) : SameUnit u s (s.writeIbuf v k b) := by
  by_cases hok : s.busy v = false ∧ k < s.cfg.inCap v
  · obtain ⟨hrest, hk⟩ := hok
    exact (writeIbuf_of_resting hrest hk b).1.same (ne_of_busy_of_resting hbusy hrest)
  · rw [writeIbuf_ignored (by simpa [-not_and, not_and_or] using hok)]
    exact .refl u s

theorem sameUnit_writeReg (v : UnitId) (n : RegNum) (w : Word32) : SameUnit u s (s.writeReg v n w) := by
  unfold State.writeReg
  split
  · exact sameUnit_ctrlWrite hbusy v w
  · exact sameUnit_writeIlen hbusy v w
  · exact .refl u s

/-- A host operation by name, on whatever unit, leaves a BUSY unit as it is. -/
theorem sameUnit_call {c : HostCall} (h : takeTurn (.call c) s = .next t) : SameUnit u s t := by
  cases c with
  | wrIbuf v k b => cases h; exact sameUnit_writeIbuf hbusy v k b
  | wrIlen v n => cases h; exact sameUnit_writeIlen hbusy v n
  | rdStatus v => cases h; exact .answer ..
  | rdReg v n => cases h; exact .answer ..
  | rdObuf v k => cases h; exact .hostRead ..
  | rdIbuf v k => cases h; exact .hostRead ..
  | wrReg v n w => cases h; exact sameUnit_writeReg hbusy v n w

/-- So does a `CTRL` word. -/
theorem sameUnit_ctrl {v : UnitId} {w : Word32} (h : takeTurn (.ctrl v w) s = .next t) : SameUnit u s t := by
  rw [turn_ctrl] at h
  cases h
  exact sameUnit_ctrlWrite hbusy v w

end

end

/-- Settles O41: whatever the host does to the unit's registers is refused while the unit is BUSY, and what it does to
the other unit is done there. -/
theorem busyUnitIgnoresTheHost : Obligations.BusyUnitIgnoresTheHost := by
  unfold Obligations.BusyUnitIgnoresTheHost
  intro s t u w c hbusy hturn
  have hsame : SameUnit u s t := hturn.elim (sameUnit_ctrl hbusy) (sameUnit_call hbusy)
  exact ⟨hsame.enc, hsame.dec, hsame.cfg, hsame.resets⟩

/-! ### A unit's step depends on the unit alone -/

theorem OnlyUnit.resets {s t : State} {u : UnitId} (h : OnlyUnit s u t) : t.resets = s.resets := by cases h <;> rfl

section
variable {s s' t : State} {u : UnitId}

/-- The state `s` with the unit `u` of `t` in the place of its own. -/
def State.withUnitOf (s : State) (u : UnitId) (t : State) : State :=
  match u with
  | .enc => s.setEnc t.enc
  | .dec => s.setDec t.dec

theorem SameUnit.withUnitOf_eq (h : SameUnit u s s') : s'.withUnitOf u s = s' := by
  cases u with
  | enc => rw [State.withUnitOf, ← h.enc rfl]; rfl
  | dec => rw [State.withUnitOf, ← h.dec rfl]; rfl

theorem SameUnit.withInputByte (h : SameUnit u s s') {f : State → State} {k : Nat} {go go' : Byte → Answer}
    (hgo : ∀ b, go' b = mapNext f (go b)) : s'.withInputByte u k go' = mapNext f (s.withInputByte u k go) := by
  simp only [State.withInputByte, h.cfg, h.byteAt_input, hgo, apply_ite (mapNext f)]
  rfl

theorem SameUnit.micro_resting (h : SameUnit u s s') (hrest : s.busy u = false) :
    takeTurn (.micro u) s' = mapNext (s'.withUnitOf u) (takeTurn (.micro u) s) := by
  rw [Machine.micro_resting hrest, Machine.micro_resting (h.busy.trans hrest), mapNext_next, h.withUnitOf_eq]

/-- The encoder does the same whatever is around it. -/
theorem SameUnit.micro_enc (h : SameUnit .enc s s') :
    takeTurn (.micro .enc) s' = mapNext (s'.withUnitOf .enc) (takeTurn (.micro .enc) s) := by
  have henc := h.enc rfl
  have resting (hb : s.busy .enc = false) := h.micro_resting hb
  have hst' : s'.enc.st = s.enc.st := congrArg _ henc
  cases hst : s.enc.st with
  | idle | done | fault => exact resting (by simp [State.busy, hst, EncSt.active])
  | eLoad => rw [micro_eLoad hst, micro_eLoad (hst'.trans hst), execELoad, henc]; rfl
  | eRinit => rw [micro_eRinit hst, micro_eRinit (hst'.trans hst), execERinit, henc]; rfl
  | eOuter =>
    rw [micro_eOuter hst, micro_eOuter (hst'.trans hst), execEOuter, henc]
    exact h.withInputByte fun b => rfl
  | eCinit => rw [micro_eCinit hst, micro_eCinit (hst'.trans hst), execECinit, henc]; rfl
  | eCmp =>
    rw [micro_eCmp hst, micro_eCmp (hst'.trans hst), execECmp, execECmp, henc, apply_ite (mapNext _)]
    refine ite_congr rfl (fun _ => h.withInputByte fun b => ?_) fun _ => rfl
    rw [apply_ite (mapNext _)]
    rfl
  | eEmit =>
    rw [micro_eEmit hst, micro_eEmit (hst'.trans hst), execEEmit, execEEmit, h.cfg, raise_enc, henc,
      apply_ite (mapNext _)]
    rfl
  | eAdv => rw [micro_eAdv hst, micro_eAdv (hst'.trans hst), execEAdv, henc]; rfl
  | eRet => rw [micro_eRet hst, micro_eRet (hst'.trans hst), execERet, henc]; rfl

/-- The decoder does the same whatever is around it. -/
theorem SameUnit.micro_dec (h : SameUnit .dec s s') :
    takeTurn (.micro .dec) s' = mapNext (s'.withUnitOf .dec) (takeTurn (.micro .dec) s) := by
  have hdec := h.dec rfl
  have resting (hb : s.busy .dec = false) := h.micro_resting hb
  have hst' : s'.dec.st = s.dec.st := congrArg _ hdec
  cases hst : s.dec.st with
  | idle | done | fault => exact resting (by simp [State.busy, hst, DecSt.active])
  | dInit =>
    rw [micro_dInit hst, micro_dInit (hst'.trans hst), execDInit, execDInit, hdec, apply_ite (mapNext _)]
    rfl
  | dRdcnt =>
    rw [micro_dRdcnt hst, micro_dRdcnt (hst'.trans hst), execDRdcnt, hdec]
    exact h.withInputByte fun b => rfl
  | dRdval =>
    rw [micro_dRdval hst, micro_dRdval (hst'.trans hst), execDRdval, hdec]
    exact h.withInputByte fun b => rfl
  | dLoop => rw [micro_dLoop hst, micro_dLoop (hst'.trans hst), execDLoop, hdec]; rfl
  | dAppend =>
    rw [micro_dAppend hst, micro_dAppend (hst'.trans hst), execDAppend, execDAppend, h.cfg, raise_dec, hdec,
      apply_ite (mapNext _)]
    rfl
  | dNext => rw [micro_dNext hst, micro_dNext (hst'.trans hst), execDNext, hdec]; rfl
  | dRet => rw [micro_dRet hst, micro_dRet (hst'.trans hst), execDRet, hdec]; rfl

/-- A unit does the same whatever is around it. -/
theorem SameUnit.takeTurn_micro (h : SameUnit u s s') :
    takeTurn (.micro u) s' = mapNext (s'.withUnitOf u) (takeTurn (.micro u) s) := by
  cases u with
  | enc => exact h.micro_enc
  | dec => exact h.micro_dec

theorem onlyUnit_micro (ht : takeTurn (.micro u) s = .next t) : OnlyUnit s u t := by
  cases u with
  | enc => exact onlyUnit_micro_enc ht
  | dec => exact onlyUnit_micro_dec ht

/-- So a micro-operation keeps two states alike in its unit. -/
theorem SameUnit.micro (h : SameUnit u s s') (ht : takeTurn (.micro u) s = .next t) :
    ∃ t', takeTurn (.micro u) s' = .next t' ∧ SameUnit u t t' := by
  have ht' := h.takeTurn_micro
  rw [ht, mapNext_next] at ht'
  have hcfg : s'.cfg = t.cfg := h.cfg.trans (onlyUnit_micro ht).cfg.symm
  have hresets : s'.resets = t.resets := h.resets.trans (onlyUnit_micro ht).resets.symm
  refine ⟨_, ht', ?_⟩
  cases u with
  | enc => exact ⟨hcfg, hresets, fun _ => rfl, nofun⟩
  | dec => exact ⟨hcfg, hresets, nofun, fun _ => rfl⟩

end

end Sys2Proof.Machine
end

section
/-! ## 42_host_operations R196: a unit run with other turns between its steps -/

namespace Sys2Proof.Machine

section
variable {s s' t c : State} {u : UnitId} {n : Nat}

/-! ### Turns between the steps of a run -/

/-- A turn that may lie between the steps of a run of `u`: any but a reset and, for the decoder, a pair word, which
takes several of its steps at once (log 10). -/
def MayInterleave (u : UnitId) (turn : Turn) : Prop := turn ≠ .reset ∧ (u = .dec → turn ≠ .pair)

/-- Such a turn leaves the unit, which is BUSY, as it is. -/
theorem sameUnit_of_other_turn {turn : Turn} (hbusy : s.busy u = true) (hturn : MayInterleave u turn)
    (hne : turn ≠ .micro u) (ht : takeTurn turn s = .next t) : SameUnit u s t := by
  obtain ⟨hreset, hpair⟩ := hturn
  cases turn with
  | reset => exact absurd rfl hreset
  | micro v => exact (onlyUnit_micro ht).same fun hv => hne (hv ▸ rfl)
  | pair => exact (onlyUnit_takePair ht).same fun hu => hpair hu.symm rfl
  | ctrl v w => exact sameUnit_ctrl hbusy ht
  | call op => exact sameUnit_call hbusy ht

/-- A run that leads to a state in which the unit is BUSY began in one: a unit at rest stays as it is. -/
theorem Runs.busy (h : Runs u n s c) (hbusy : c.busy u = true) : s.busy u = true := by
  by_contra hrest
  have hstay := runTurns_resting (Bool.eq_false_iff.2 hrest) n
  rw [Runs, hstay, Host.Outcome.next.injEq] at h
  exact hrest (h ▸ hbusy)

/-- As long as a run alone keeps the unit BUSY, the same number of its steps with other turns between them leads to the
same unit. -/
theorem Runs.interleaved {ts : List Turn} (hturns : ∀ turn ∈ ts, MayInterleave u turn) (hinv : Inv s)
    (hinv' : Inv s') (hsame : SameUnit u s s') (hruns : Runs u (ts.count (.micro u)) s c)
    (hbusy : c.busy u = true) : ∃ c', runTurns ts s' = .next c' ∧ SameUnit u c c' := by
  induction ts generalizing s s' with
  | nil => cases hruns; exact ⟨s', rfl, hsame⟩
  | cons turn ts ih =>
    have hrest : ∀ turn ∈ ts, MayInterleave u turn := fun t ht => hturns t (List.mem_cons_of_mem _ ht)
    obtain ⟨t', ht', hinvt'⟩ := answersInv_takeTurn hinv' turn
    rw [runTurns_cons ht']
    by_cases hturn : turn = .micro u
    · subst hturn
      obtain ⟨t, ht, hinvt⟩ := answersInv_takeTurn hinv (.micro u)
      obtain ⟨t'', ht'', hsamet⟩ := hsame.micro ht
      cases ht'.symm.trans ht''
      rw [List.count_cons_self] at hruns
      exact ih hrest hinvt hinvt' hsamet ((runTurns_replicate_succ _ ht).symm.trans hruns)
    · rw [List.count_cons_of_ne hturn] at hruns
      have hother := sameUnit_of_other_turn (hsame.busy.trans (hruns.busy hbusy)) (hturns turn List.mem_cons_self)
        hturn ht'
      exact ih hrest hinv hinvt' (hsame.trans hother) hruns

/-- A whole run, on the agenda with other turns between its steps, whose last step ends it. -/
theorem steps_of_interleaved_run {ts rest : List Turn} (hinv : Inv s) (hagenda : s.agenda = ts ++ rest)
    (hturns : ∀ turn ∈ ts, MayInterleave u turn) (hlast : ts.getLast? = some (.micro u)) (hruns : Runs u n s c)
    (hbusy : c.busy u = true) (hcount : ts.count (.micro u) = n + 1) (hend : takeTurn (.micro u) c = .next t) :
    ∃ t', steps ts.length s = .next t' ∧ t'.agenda = rest ∧ SameUnit u t t' := by
  obtain ⟨init, rfl⟩ := List.getLast?_eq_some_iff.1 hlast
  rw [List.count_append, List.count_singleton_self, Nat.add_right_cancel_iff] at hcount
  obtain ⟨c', hc', hsame⟩ := Runs.interleaved (fun turn ht => hturns turn (List.mem_append_left _ ht)) hinv hinv
    (.refl u s) (hcount.symm ▸ hruns) hbusy
  obtain ⟨t', ht', hsame'⟩ := hsame.micro hend
  have hrun : runTurns (init ++ [.micro u]) s = .next t' := (runTurns_append hc' _).trans (runTurns_cons ht' [])
  refine ⟨t'.withOrder rest s.nextUnit, ?_, rfl, hsame'.withOrder ..⟩
  rw [steps_of_agenda hinv.cfg hagenda, runTurns_withOrder, hrun, mapNext_next]

end

/-! ### The encoder, up to its last step (40_encoder R133) -/

section
variable {bytes : List Byte} {s : State}

/-- Where the result fits, every pair on the way to it does. -/
theorem AtLoopTest.pair_fits (h : AtLoopTest bytes s) (hfits : (Reference.encode bytes).length ≤ s.cfg.encOutCap)
    (hi : s.enc.i < s.enc.ilen) : s.enc.olen + 2 ≤ s.cfg.encOutCap := by
  have howes : s.output .enc ++ Reference.encode (bytes.drop s.enc.i) = Reference.encode bytes :=
    h.run.enc_owes (st := .eOuter) (by rw [h.st, if_pos hi])
  rw [← howes, h.encode_rest hi, List.length_append, output_length, State.olen] at hfits
  simp only [List.length_cons] at hfits
  omega

/-- From the loop test on a run whose result fits comes to `E_RET` with one of its steps left. -/
theorem AtLoopTest.runs_to_return (h : AtLoopTest bytes s)
    (hfits : (Reference.encode bytes).length ≤ s.cfg.encOutCap) :
    ∃ n t, Runs .enc n s t ∧ t.enc.st = .eRet ∧ n + 1 = stepsFor (bytes.drop s.enc.i) := by
  induction hk : s.enc.ilen - s.enc.i using Nat.strong_induction_on generalizing s with
  | _ k ih =>
    by_cases hi : s.enc.i < s.enc.ilen
    · have hroom := h.pair_fits hfits hi
      have hrun := runs_segment_stored (by rw [h.st, if_pos hi]) hi h.inv.enc.ilen_le hroom
      have hpos := counted_pos s
      obtain ⟨n, t, hrest, hst, hsteps⟩ :=
        ih (s.enc.ilen - (s.enc.i + s.counted.count.toNat)) (by omega) (h.segment_stored hi hroom) hfits rfl
      refine ⟨_, t, hrun.trans hrest, hst, ?_⟩
      rw [Nat.add_assoc, hsteps, h.stepsFor_segment hi]
      rfl
    · refine ⟨0, s, .refl .enc s, by rw [h.st, if_neg hi], ?_⟩
      rw [List.drop_eq_nil_of_le (h.run.enc_ilen.symm.trans_le (not_lt.1 hi))]
      rfl

/-- A whole run of the encoder whose result fits comes to `E_RET` with one of its `3 + 4P + N` steps left. -/
theorem encoder_runs_to_return (hinv : Inv s) (hst : s.enc.st = .eLoad)
    (hfits : (Reference.encode (s.input .enc)).length ≤ s.cfg.encOutCap) :
    ∃ n t, Runs .enc n s t ∧ UnitRun .enc (s.input .enc) t ∧ t.enc.st = .eRet ∧
      n + 1 = 3 + 4 * ((Reference.encode (s.input .enc)).length / 2) + s.enc.ilen := by
  obtain ⟨s', hstart, hloop, hi⟩ := runs_to_loop_test hinv hst
  obtain ⟨n, t, hrun, hret, hsteps⟩ := hloop.runs_to_return ((hstart.onlyUnit hinv).cfg ▸ hfits)
  refine ⟨2 + n, t, hstart.trans hrun, hrun.unitRun hloop.inv hloop.run, hret, ?_⟩
  rw [hi, List.drop_zero, stepsFor, input_length, State.ilen] at hsteps
  omega

end

/-- Settles O56: until its last step the encoder is BUSY, so no other turn touches it; the run is the one of R133. -/
theorem encoderRunIgnoresInterleaving : Obligations.EncoderRunIgnoresInterleaving := by
  unfold Obligations.EncoderRunIgnoresInterleaving
  intro s ts rest hinv hst hagenda hreset hlast hfits hcount
  obtain ⟨n, c, hruns, hrun, hret, hsteps⟩ := encoder_runs_to_return hinv hst hfits
  have hturns : ∀ turn ∈ ts, MayInterleave .enc turn := fun turn ht => ⟨fun h => hreset (h ▸ ht), nofun⟩
  obtain ⟨t, ht, hrest, hsame⟩ := steps_of_interleaved_run hinv hagenda hturns hlast hruns
    (by rw [State.busy, hret]; rfl) (hcount.trans hsteps.symm) (micro_eRet hret)
  have hout : c.output .enc = Reference.encode (s.input .enc) := hrun.enc_owes hret
  exact ⟨t, ht, hrest, congrArg Enc.st (hsame.enc rfl), hsame.output.trans hout⟩

/-! ### The decoder, up to its last step (41_decoder R162) -/

section
variable {bytes out : List Byte} {s : State}

/-- Where the result fits, every run on the way to it does. -/
theorem BeforePair.run_fits {c v : Byte} (h : BeforePair bytes c v s) (hout : Reference.decode bytes = .ok out)
    (hfits : out.length ≤ s.cfg.decOutCap) : s.dec.olen + c.toNat ≤ s.cfg.decOutCap := by
  obtain ⟨result, hresult, hle⟩ := h.decodesTo.pair.exists_result
  obtain rfl : result = out := Except.ok.inj (hresult.symm.trans hout)
  rw [List.length_append, output_length, List.length_replicate] at hle
  exact hle.trans hfits

/-- From the loop test on a run whose result fits comes to `D_RET` with one of its steps left. -/
theorem BetweenPairs.runs_to_return (h : BetweenPairs bytes s) (hout : Reference.decode bytes = .ok out)
    (hfits : out.length ≤ s.cfg.decOutCap) :
    ∃ n t, Runs .dec n s t ∧ t.dec.st = .dRet ∧ n + 1 = decStepsFor (bytes.drop s.dec.i) := by
  induction hk : s.dec.ilen - s.dec.i using Nat.strong_induction_on generalizing s with
  | _ k ih =>
    by_cases hi : s.dec.i < s.dec.ilen
    · obtain ⟨c, v, hpair⟩ := h.beforePair hi
      have hroom := hpair.run_fits hout hfits
      obtain ⟨n, t, hrest, hst, hsteps⟩ :=
        ih (s.dec.ilen - (s.dec.i + 2)) (by omega) (hpair.stored hroom) hfits rfl
      refine ⟨_, t, (hpair.pair.runs_stored hroom).trans hrest, hst, ?_⟩
      rw [Nat.add_assoc, hsteps, hpair.decStepsFor_drop]
      rfl
    · refine ⟨0, s, .refl .dec s, by rw [h.st, if_neg hi], ?_⟩
      rw [List.drop_eq_nil_of_le (h.run.dec_ilen.symm.trans_le (not_lt.1 hi))]
      rfl

/-- A whole run of the decoder whose result fits comes to `D_RET` with one of its `2 + 4P + 2M` steps left. -/
theorem decoder_runs_to_return (hinv : Inv s) (hst : s.dec.st = .dInit)
    (hout : Reference.decode (s.input .dec) = .ok out) (hfits : out.length ≤ s.cfg.decOutCap) :
    ∃ n t, Runs .dec n s t ∧ UnitRun .dec (s.input .dec) t ∧ t.dec.st = .dRet ∧
      n + 1 = 2 + 4 * (s.dec.ilen / 2) + 2 * out.length := by
  have heven := Reference.even_of_decode hout
  rw [input_length] at heven
  obtain ⟨s', hstart, hloop, hi⟩ := runs_to_first_pair hinv hst heven
  obtain ⟨n, t, hrun, hret, hsteps⟩ := hloop.runs_to_return hout ((hstart.onlyUnit hinv).cfg ▸ hfits)
  refine ⟨1 + n, t, hstart.trans hrun, hrun.unitRun hloop.inv hloop.run, hret, ?_⟩
  rw [hi, List.drop_zero, decStepsFor, input_length, State.ilen, ← Reference.length_of_decode hout] at hsteps
  omega

end

/-- Settles O57: until its last step the decoder is BUSY, so no other turn touches it; the run is the one of R162. -/
theorem decoderRunIgnoresInterleaving : Obligations.DecoderRunIgnoresInterleaving := by
  unfold Obligations.DecoderRunIgnoresInterleaving
  intro s ts rest out hinv hst hagenda hreset hpair hlast hout hfits hcount
  obtain ⟨n, c, hruns, hrun, hret, hsteps⟩ := decoder_runs_to_return hinv hst hout hfits
  have hturns : ∀ turn ∈ ts, MayInterleave .dec turn :=
    fun turn ht => ⟨fun h => hreset (h ▸ ht), fun _ h => hpair (h ▸ ht)⟩
  obtain ⟨t, ht, hrest, hsame⟩ := steps_of_interleaved_run hinv hagenda hturns hlast hruns
    (by rw [State.busy, hret]; rfl) (hcount.trans hsteps.symm) (micro_dRet hret)
  have hresult : c.output .dec = out := Except.ok.inj (Eq.trans (hrun.dec_owes hret).symm hout)
  exact ⟨t, ht, hrest, congrArg Dec.st (hsame.dec rfl), hsame.output.trans hresult⟩

end Sys2Proof.Machine
end

section
/-! ## 42_host_operations R181 to R185, R190: the host's commands and writes, one by one -/

namespace Sys2Proof.Machine

/-! ### The `CTRL` word (42_host_operations R183 to R185) -/

/-- Settles O23: the update of the fault code and the state register is all a start does. -/
theorem startBeginsRunOfRestingUnit : Obligations.StartBeginsRunOfRestingUnit := by
  unfold Obligations.StartBeginsRunOfRestingUnit
  intro s u clear reserved
  refine ⟨fun hbusy => congrArg _ (start_busy hbusy), fun hrest => ?_⟩
  cases u with
  | enc => exact ⟨_, congrArg Host.Outcome.next (start_enc hrest), fun _ => rfl, nofun, rfl, rfl, rfl, rfl⟩
  | dec => exact ⟨_, congrArg Host.Outcome.next (start_dec hrest), nofun, fun _ => rfl, rfl, rfl, rfl, rfl⟩

/-- Settles O24: the update of the fault code and the state register is all a clear does. -/
theorem clearAcknowledgesRestingUnit : Obligations.ClearAcknowledgesRestingUnit := by
  unfold Obligations.ClearAcknowledgesRestingUnit
  intro s u reserved
  refine ⟨fun hbusy => congrArg _ (clear_busy hbusy), fun hrest => ?_⟩
  cases u with
  | enc => exact ⟨_, congrArg Host.Outcome.next (clear_enc hrest), fun _ => rfl, nofun, rfl, rfl, rfl⟩
  | dec => exact ⟨_, congrArg Host.Outcome.next (clear_dec hrest), nofun, fun _ => rfl, rfl, rfl, rfl⟩

section
variable {s : State} {u : UnitId} {w : Word32}

theorem ctrlWrite_start (h0 : w.getLsbD 0 = true) : s.ctrlWrite u w = s.start u := if_pos h0

theorem ctrlWrite_clear (h0 : w.getLsbD 0 = false) (h1 : w.getLsbD 1 = true) : s.ctrlWrite u w = s.clear u := by
  rw [State.ctrlWrite, h0, if_neg Bool.false_ne_true, if_pos h1]

theorem ctrlWrite_nop (h0 : w.getLsbD 0 = false) (h1 : w.getLsbD 1 = false) : s.ctrlWrite u w = s := by
  rw [State.ctrlWrite, h0, if_neg Bool.false_ne_true, h1, if_neg Bool.false_ne_true]

end

/-- Settles O25: the word's two tests, and that `H_START` and `H_CLEAR` ignore the bits they carry. -/
theorem ctrlWordActsByItsTwoLowBits : Obligations.CtrlWordActsByItsTwoLowBits := by
  unfold Obligations.CtrlWordActsByItsTwoLowBits
  intro s u w reserved clear
  rw [turn_ctrl]
  exact ⟨rfl, fun h0 h1 => congrArg _ (ctrlWrite_nop h0 h1), fun h0 => congrArg _ (ctrlWrite_start h0),
    fun h0 h1 => congrArg _ (ctrlWrite_clear h0 h1)⟩

/-! ### Writes of a byte, of the length, of a register (42_host_operations R181, R182, R190) -/

/-- A write of an input byte changes no other buffer. -/
theorem byteAt_writeIbuf_of_ne {s : State} {u : UnitId} {k : Nat} (hrest : s.busy u = false) (hk : k < s.cfg.inCap u)
    (b : Byte) {buf : BufferId} (hne : buf ≠ .input u) (k' : Nat) :
    (s.writeIbuf u k b).byteAt buf k' = s.byteAt buf k' := by
  cases u with
  | enc =>
    rw [writeIbuf_enc hrest hk]
    cases buf with
    | encIbuf => exact absurd rfl hne
    | encObuf | decIbuf | decObuf => rfl
  | dec =>
    rw [writeIbuf_dec hrest hk]
    cases buf with
    | decIbuf => exact absurd rfl hne
    | encIbuf | encObuf | decObuf => rfl

/-- Settles O26: a write that is allowed is one write to the unit's input buffer. -/
theorem inputByteWriteStoresOneByte : Obligations.InputByteWriteStoresOneByte := by
  unfold Obligations.InputByteWriteStoresOneByte
  intro s u k b
  refine ⟨fun hno => congrArg _ (writeIbuf_ignored hno), fun hrest hk => ?_⟩
  obtain ⟨-, -, -, hbyte⟩ := writeIbuf_of_resting hrest hk b
  refine ⟨s.writeIbuf u k b, rfl, ?_, ?_, (hbyte k).trans (if_pos rfl), fun buf k' hother => ?_⟩
  · rintro rfl
    rw [writeIbuf_enc hrest hk]
    rfl
  · rintro rfl
    rw [writeIbuf_dec hrest hk]
    rfl
  · by_cases hbuf : buf = .input u
    · subst hbuf
      exact (hbyte k').trans (if_neg fun hk' => hother ⟨rfl, hk'⟩)
    · exact byteAt_writeIbuf_of_ne hrest hk b hbuf k'

/-- Settles O27: a length that is allowed is stored in the register, any other is ignored. -/
theorem lengthWriteIsTakenOrIgnored : Obligations.LengthWriteIsTakenOrIgnored := by
  unfold Obligations.LengthWriteIsTakenOrIgnored
  intro s u n
  refine ⟨fun hno => congrArg _ (writeIlen_ignored hno), fun hrest hn => ?_⟩
  cases u with
  | enc => exact ⟨_, congrArg Host.Outcome.next (writeIlen_enc hrest hn), rfl, fun _ => rfl, nofun⟩
  | dec => exact ⟨_, congrArg Host.Outcome.next (writeIlen_dec hrest hn), rfl, nofun, fun _ => rfl⟩

theorem writeReg_ignored {s : State} {u : UnitId} {n : RegNum} {w : Word32} (h0 : n ≠ 0#4) (h2 : n ≠ 2#4) :
    s.writeReg u n w = s := by
  unfold State.writeReg
  split
  · next hn => exact absurd (BitVec.eq_of_toNat_eq hn) h0
  · next hn => exact absurd (BitVec.eq_of_toNat_eq hn) h2
  · rfl

/-- Settles O32: a register write is the `CTRL` word, the length write or nothing. -/
theorem registerWriteReachesOnlyCtrlAndLength : Obligations.RegisterWriteReachesOnlyCtrlAndLength := by
  unfold Obligations.RegisterWriteReachesOnlyCtrlAndLength
  intro s u n w k b
  exact ⟨fun h0 h2 => congrArg _ (writeReg_ignored h0 h2), fun hno => congrArg _ (writeIbuf_ignored hno),
    fun hno => congrArg _ (writeIlen_ignored hno), (turn_ctrl u w s).symm, rfl, _, rfl⟩

end Sys2Proof.Machine
end

section
/-! ## 42_host_operations R186 to R189: the host's reads, one by one -/

namespace Sys2Proof.Machine

/-! ### The register map (42_host_operations R187, 10_state R40) -/

theorem byteToWord_toNat (b : Byte) : (byteToWord b).toNat = b.toNat := BitVec.toNat_setWidth_of_le (by decide)

/-- Above `OUT_CAP` the map has no register. -/
theorem readReg_unmapped {n : RegNum} (hn : 10 ≤ n.toNat) (u : UnitId) (s : State) : s.readReg u n = 0#32 := by
  unfold State.readReg
  split
  case h_11 => rfl
  all_goals omega

/-- Settles O28: the word handed over is the register's, for each number of the map. -/
theorem registerReadReturnsTheMap : Obligations.RegisterReadReturnsTheMap := by
  unfold Obligations.RegisterReadReturnsTheMap
  intro s u n
  refine ⟨s.readReg u n, rfl, (· ▸ rfl), (· ▸ rfl), (· ▸ rfl), (· ▸ rfl), (· ▸ rfl), ?_, ?_, ?_, ?_, ?_,
    (· ▸ rfl), (· ▸ rfl), fun hn => readReg_unmapped hn u s⟩
  · rintro rfl
    exact byteToWord_toNat (s.countReg u)
  · rintro rfl rfl
    exact byteToWord_toNat s.enc.val
  · rintro rfl rfl
    exact byteToWord_toNat s.dec.value
  · rintro rfl rfl
    rfl
  · rintro rfl rfl
    exact byteToWord_toNat s.dec.j

/-! ### `STATUS` (42_host_operations R186) -/

section
variable {s : State} {u : UnitId}

theorem flag_cases (s : State) (u : UnitId) :
    s.busy u = true ∨ s.doneFlag u = true ∨ s.errFlag u = true ∨ s.idleFlag u = true := by
  have hone := (exactlyOneStatusFlagHolds s u).1
  have hmem : true ∈ [s.busy u, s.doneFlag u, s.errFlag u, s.idleFlag u] := List.count_pos_iff.1 (by omega)
  simpa using hmem

/-- No fault is recorded of a unit that is not in `FAULT` (10_state R47 (c)). -/
theorem errCode_of_no_err (h : Inv s) (herr : s.errFlag u = false) : s.errCode u = 0#4 := by
  cases u with
  | enc => rw [State.errCode, h.enc.err_none (of_decide_eq_false herr)]; rfl
  | dec => rw [State.errCode, h.dec.err_none (of_decide_eq_false herr)]; rfl

/-- `STATUS` with `BUSY` alone: the state's code stands in bits 11..8 (10_state R42). -/
theorem statusWord_of_busy (code : BitVec 4) :
    0#20 ++ code ++ 0#4 ++ 0#1 ++ BitVec.ofBool false ++ BitVec.ofBool false ++ BitVec.ofBool true =
      BitVec.ofNat 32 (256 * code.toNat + 1) := by
  revert code; decide

theorem status_of_busy (h : Inv s) (hbusy : s.busy u = true) :
    s.status u = BitVec.ofNat 32 (256 * (s.stCode u).toNat + 1) := by
  have hdone : s.doneFlag u = false := by
    by_contra hdone
    simp [not_busy_of_done (Bool.eq_true_of_not_eq_false hdone)] at hbusy
  have herr : s.errFlag u = false := by
    by_contra herr
    simp [not_busy_of_err (Bool.eq_true_of_not_eq_false herr)] at hbusy
  rw [State.status, errCode_of_no_err h herr, hdone, herr, hbusy, statusWord_of_busy]

theorem status_of_idle (h : Inv s) (hidle : s.idleFlag u = true) : s.status u = 0#32 := by
  cases u with
  | enc =>
    have hst : s.enc.st = .idle := of_decide_eq_true hidle
    have herr := h.enc.err_none (by simp [hst])
    simp only [State.status, State.stCode, State.errCode, State.errFlag, State.doneFlag, State.busy, hst, herr]
    rfl
  | dec =>
    have hst : s.dec.st = .idle := of_decide_eq_true hidle
    have herr := h.dec.err_none (by simp [hst])
    simp only [State.status, State.stCode, State.errCode, State.errFlag, State.doneFlag, State.busy, hst, herr]
    rfl

/-- `STATUS` of an encoder in `FAULT`: its only fault is `OutputOverflow`. -/
theorem status_of_enc_fault (h : Inv s) (herr : s.errFlag .enc = true) : s.status .enc = 0xA24#32 := by
  have hst : s.enc.st = .fault := of_decide_eq_true herr
  have hcode := h.enc.err_code
  rw [if_pos hst] at hcode
  simp only [State.status, State.stCode, State.errCode, State.errFlag, State.doneFlag, State.busy, hst, hcode]
  rfl

/-- `STATUS` of a decoder in `FAULT`, by its fault. -/
theorem status_of_dec_fault (h : Inv s) (herr : s.errFlag .dec = true) :
    (s.status .dec = 0xA14#32 ∧ s.dec.err = .decodeError) ∨ s.status .dec = 0xA24#32 := by
  have hst : s.dec.st = .fault := of_decide_eq_true herr
  simp only [State.status, State.stCode, State.errCode, State.errFlag, State.doneFlag, State.busy, hst]
  cases hcode : s.dec.err with
  | none => exact absurd hcode (h.dec.err_code.1 hst)
  | decodeError => exact .inl ⟨rfl, rfl⟩
  | outputOverflow => exact .inr rfl

/-- The active states of the encoder have the codes 1 to 8 (30_encoding R95). -/
theorem EncSt.code_of_active {st : EncSt} (h : st.active = true) : 1 ≤ st.code.toNat ∧ st.code.toNat ≤ 8 := by
  revert h; cases st <;> decide

/-- The active states of the decoder have the codes 1 to 7 (30_encoding R96). -/
theorem DecSt.code_of_active {st : DecSt} (h : st.active = true) : 1 ≤ st.code.toNat ∧ st.code.toNat ≤ 7 := by
  revert h; cases st <;> decide

end

/-- Settles O30: one of the four flags holds of a unit, and each of them leaves `STATUS` one listed value, but for the
code of an active state and the decoder's two faults. -/
theorem statusReadReturnsAListedValue : Obligations.StatusReadReturnsAListedValue := by
  unfold Obligations.StatusReadReturnsAListedValue
  refine ⟨fun s u => ⟨rfl, rfl⟩, fun s u h => ?_⟩
  rcases flag_cases s u with hbusy | hdone | herr | hidle
  · refine .inr (.inr (.inr (.inr ⟨(s.stCode u).toNat, ?_, ?_, hbusy, status_of_busy h hbusy⟩)))
    · cases u with
      | enc => exact (EncSt.code_of_active hbusy).1
      | dec => exact (DecSt.code_of_active hbusy).1
    · cases u with
      | enc => exact (EncSt.code_of_active hbusy).2
      | dec => exact (DecSt.code_of_active hbusy).2
  · exact .inr (.inl ⟨status_of_done h hdone, hdone⟩)
  · cases u with
    | enc => exact .inr (.inr (.inr (.inl ⟨status_of_enc_fault h herr, herr⟩)))
    | dec =>
      rcases status_of_dec_fault h herr with ⟨hstatus, hcode⟩ | hstatus
      · exact .inr (.inr (.inl ⟨hstatus, rfl, hcode⟩))
      · exact .inr (.inr (.inr (.inl ⟨hstatus, herr⟩)))
  · exact .inl ⟨status_of_idle h hidle, hidle⟩

/-! ### A byte of a buffer (42_host_operations R188, R189) -/

/-- Settles O31: below the capacity the read hands over the byte there, from the capacity on a drawn one. -/
theorem bufferReadReturnsTheByte : Obligations.BufferReadReturnsTheByte := by
  unfold Obligations.BufferReadReturnsTheByte
  intro s u k
  rw [← capOf_output, ← capOf_input]
  exact ⟨fun hk => congrArg Host.Outcome.next (hostRead_inside hk),
    fun hk => congrArg Host.Outcome.next (hostRead_inside hk),
    fun hk => ⟨_, congrArg Host.Outcome.next (hostRead_outside hk)⟩,
    fun hk => ⟨_, congrArg Host.Outcome.next (hostRead_outside hk)⟩⟩

end Sys2Proof.Machine
end

section
/-! ## 43_codec_laws R210 to R217: the laws of the two functions -/

namespace Sys2Proof.Reference

/-! ### A byte list as its run segments (40_encoder R132) -/

theorem segment_pred_le_leading (v : Byte) (rest : List Byte) : segment v rest - 1 ≤ leading v rest := by
  simp only [segment]; omega

/-- After the leading bytes equal to `v` none follows. -/
theorem head?_drop_leading (v : Byte) (l : List Byte) : (l.drop (leading v l)).head? ≠ some v := by
  induction l with
  | nil => simp
  | cons b rest ih =>
    by_cases hb : b = v
    · simpa [leading, hb] using ih
    · simp [leading, hb]

/-- A list is its first segment and the rest, and the segment is full or not continued. -/
theorem exists_first_segment (v : Byte) (rest : List Byte) :
    ∃ (c : Byte) (tail : List Byte), 1 ≤ c.toNat ∧ (c.toNat = 255 ∨ tail.head? ≠ some v) ∧
      v :: rest = List.replicate c.toNat v ++ tail := by
  have hpos := segment_pos v rest
  have hle := segment_le v rest
  have hcount : (BitVec.ofNat 8 (segment v rest)).toNat = segment v rest := by simp; omega
  refine ⟨BitVec.ofNat 8 (segment v rest), rest.drop (segment v rest - 1), ?_⟩
  rw [hcount]
  refine ⟨hpos, ?_, ?_⟩
  · rw [or_iff_not_imp_left]
    intro hfull
    rw [show segment v rest - 1 = leading v rest by simp only [segment] at hfull ⊢; omega]
    exact head?_drop_leading v rest
  · rw [← Nat.sub_add_cancel hpos, List.replicate_succ, Nat.add_sub_cancel, List.cons_append,
      ← take_leading v rest _ (segment_pred_le_leading v rest), List.take_append_drop]

/-- Induction along the run segments, as `encode` recurs. -/
theorem segment_induction {P : List Byte → Prop} (nil : P [])
    (run : ∀ (c v : Byte) (tail : List Byte), 1 ≤ c.toNat → (c.toNat = 255 ∨ tail.head? ≠ some v) → P tail →
      P (List.replicate c.toNat v ++ tail)) (bytes : List Byte) : P bytes := by
  induction hn : bytes.length using Nat.strong_induction_on generalizing bytes with
  | _ n ih =>
    cases bytes with
    | nil => exact nil
    | cons v rest =>
      obtain ⟨c, tail, hpos, hstop, heq⟩ := exists_first_segment v rest
      rw [heq, List.length_append, List.length_replicate] at hn
      rw [heq]
      exact run c v tail hpos hstop (ih tail.length (by omega) tail rfl)

/-! ### `decode` undoes `encode` (R210) -/

theorem decode_pair {rest out : List Byte} (h : decode rest = .ok out) (count value : Byte) :
    decode (count :: value :: rest) = .ok (List.replicate count.toNat value ++ out) := by
  simp only [decode, h]

theorem exists_of_decode_pair {count value : Byte} {rest out : List Byte}
    (h : decode (count :: value :: rest) = .ok out) :
    ∃ tail, decode rest = .ok tail ∧ out = List.replicate count.toNat value ++ tail := by
  rw [decode] at h
  cases hrest : decode rest with
  | error e => simp [hrest] at h
  | ok tail =>
    simp only [hrest, Except.ok.injEq] at h
    exact ⟨tail, rfl, h.symm⟩

theorem decode_encode (bytes : List Byte) : decode (encode bytes) = .ok bytes := by
  induction bytes using segment_induction with
  | nil => rfl
  | run c v tail hpos hstop ih => rw [encode_segment hpos hstop, decode_pair ih]

/-- Settles O44: segment by segment, the pair `encode` makes of a segment is decoded to the segment. -/
theorem decodeOfEncodedBufferIsTheBuffer : Obligations.DecodeOfEncodedBufferIsTheBuffer := by
  unfold Obligations.DecodeOfEncodedBufferIsTheBuffer
  exact decode_encode

/-! ### Runs of equal bytes (R212, R213) -/

/-- What `encode` makes of a run of `255 * full + left` bytes equal to `v`. -/
def runPairs (v : Byte) (full left : Nat) : List Byte :=
  (List.replicate full [255#8, v]).flatten ++ if left = 0 then [] else [BitVec.ofNat 8 left, v]

theorem runPairs_succ (v : Byte) (full left : Nat) :
    runPairs v (full + 1) left = 255#8 :: v :: runPairs v full left := by
  simp [runPairs, List.replicate_succ]

/-- A run that is not continued is encoded by itself: its full segments, then what is left. -/
theorem encode_run_append (v : Byte) (full : Nat) {left : Nat} (hleft : left < 255) {rest : List Byte}
    (hrest : rest.head? ≠ some v) :
    encode (List.replicate (255 * full + left) v ++ rest) = runPairs v full left ++ encode rest := by
  induction full with
  | zero =>
    cases left with
    | zero => simp [runPairs]
    | succ k =>
      have hcount : (BitVec.ofNat 8 (k + 1)).toNat = k + 1 := by simp; omega
      have hsegment := encode_segment (c := BitVec.ofNat 8 (k + 1)) (v := v) (by omega) (.inr hrest)
      rw [hcount] at hsegment
      rw [Nat.mul_zero, Nat.zero_add, hsegment]
      rfl
  | succ full ih =>
    rw [show 255 * (full + 1) + left = (255#8).toNat + (255 * full + left) by simp; omega,
      ← List.replicate_append_replicate, List.append_assoc, encode_segment (by decide) (.inl rfl), ih, runPairs_succ]
    rfl

theorem encode_replicate_append (v : Byte) (k : Nat) {rest : List Byte} (hrest : rest.head? ≠ some v) :
    encode (List.replicate k v ++ rest) = runPairs v (k / 255) (k % 255) ++ encode rest := by
  have h := encode_run_append v (k / 255) (Nat.mod_lt k (by decide)) hrest
  rwa [Nat.div_add_mod] at h

theorem encode_replicate (v : Byte) (k : Nat) :
    encode (List.replicate k v) = runPairs v (k / 255) (k % 255) := by
  simpa using encode_replicate_append v k (rest := []) nofun

/-- Settles O45: the run is cut at 255 bytes as long as that many are left. -/
theorem longRunSplitsIntoFullSegments : Obligations.LongRunSplitsIntoFullSegments := by
  unfold Obligations.LongRunSplitsIntoFullSegments
  exact fun v k _ => encode_replicate v k

/-- Settles O46: the pairs of a run that is not continued do not depend on what follows. -/
theorem separateRunsAreNeverMerged : Obligations.SeparateRunsAreNeverMerged := by
  unfold Obligations.SeparateRunsAreNeverMerged
  refine ⟨fun v k rest hrest => by rw [encode_replicate_append v k hrest, encode_replicate], fun a b hab => ?_⟩
  have ha : [b, b, a, a].head? ≠ some a := by simpa using hab.symm
  have hb : [a, a].head? ≠ some b := by simpa using hab
  calc encode [a, a, a, b, b, a, a]
      = encode (List.replicate 3 a) ++ encode [b, b, a, a] := by
        rw [encode_replicate]; exact encode_replicate_append a 3 ha
    _ = encode (List.replicate 3 a) ++ (encode (List.replicate 2 b) ++ encode (List.replicate 2 a)) := by
        rw [encode_replicate b]; exact congrArg _ (encode_replicate_append b 2 hb)
    _ = [3#8, a, 2#8, b, 2#8, a] := by simp only [encode_replicate]; rfl

/-! ### The canonical buffers (R214, R217) -/

/-- A pair before a buffer: its count is not 0, and it may have the value of the buffer's first pair only if it is
full (R214 (b), (c)). -/
theorem canonical_pair (c v : Byte) (rest : List Byte) :
    canonical (c :: v :: rest) = true ↔
      c ≠ 0#8 ∧ (c.toNat = 255 ∨ rest[1]? ≠ some v) ∧ canonical rest = true := by
  have hfull : c = 255#8 ↔ c.toNat = 255 := ⟨fun h => h ▸ rfl, fun h => BitVec.eq_of_toNat_eq h⟩
  match rest with
  | [] => simp [canonical]
  | [_] => simp [canonical]
  | _ :: value :: _ =>
    simp [canonical, hfull, and_assoc, eq_comm (a := v), or_comm (a := c.toNat = 255)]

/-- The first pair of an encoded buffer has the value of the first byte. -/
theorem encode_getElem?_one (bytes : List Byte) : (encode bytes)[1]? = bytes.head? := by
  cases bytes with
  | nil => rfl
  | cons v rest => rw [encode_cons]; rfl

theorem canonical_encode (bytes : List Byte) : canonical (encode bytes) = true := by
  induction bytes using segment_induction with
  | nil => rfl
  | run c v tail hpos hstop ih =>
    rw [encode_segment hpos hstop, canonical_pair, encode_getElem?_one]
    exact ⟨fun hc => by simp [hc] at hpos, hstop, ih⟩

/-- Settles O47: an encoded buffer decodes to the input, so its length is even and its counts sum to the input's
length; that a segment ends where it is full or not continued makes it canonical. -/
theorem encodedBufferIsCanonical : Obligations.EncodedBufferIsCanonical := by
  unfold Obligations.EncodedBufferIsCanonical
  exact fun bytes => ⟨even_of_decode (decode_encode bytes), canonical_encode bytes,
    (length_of_decode (decode_encode bytes)).symm⟩

/-- Pair by pair, the run of a canonical buffer's pair is the segment `encode` makes (R217). -/
theorem encode_decode_of_canonical : ∀ {encoded out : List Byte}, decode encoded = .ok out →
    canonical encoded = true → encode out = encoded
  | [], _, h, _ => by cases h; rfl
  | [_], _, h, _ => by cases h
  | c :: v :: rest, _, h, hcanonical => by
    obtain ⟨tail, htail, rfl⟩ := exists_of_decode_pair h
    obtain ⟨hzero, hstop, hrest⟩ := (canonical_pair c v rest).1 hcanonical
    have ih := encode_decode_of_canonical htail hrest
    rw [← ih, encode_getElem?_one] at hstop
    have hpos : 1 ≤ c.toNat := Nat.one_le_iff_ne_zero.2 fun h => hzero (BitVec.eq_of_toNat_eq h)
    rw [encode_segment hpos hstop, ih]

/-- Settles O49: what `encode` gives is canonical, and a canonical buffer's pairs are the ones `encode` makes. -/
theorem encodeOfDecodeFixesExactlyTheCanonical : Obligations.EncodeOfDecodeFixesExactlyTheCanonical := by
  unfold Obligations.EncodeOfDecodeFixesExactlyTheCanonical
  exact fun encoded out h => ⟨fun heq => heq ▸ canonical_encode out, encode_decode_of_canonical h⟩

/-! ### `decode` is total and additive on even lengths (R216) -/

theorem decode_append {e2 o2 : List Byte} (h2 : decode e2 = .ok o2) :
    ∀ {e1 o1 : List Byte}, decode e1 = .ok o1 → decode (e1 ++ e2) = .ok (o1 ++ o2)
  | [], _, h => by cases h; exact h2
  | [_], _, h => by cases h
  | c :: v :: rest, _, h => by
    obtain ⟨tail, htail, rfl⟩ := exists_of_decode_pair h
    rw [List.append_assoc]
    exact decode_pair (decode_append h2 htail) c v

/-- Settles O48: whole pairs are decoded one by one, whatever follows them; two runs of one byte encode as one. -/
theorem decodeIsTotalAndAdditiveOnEvenLengths : Obligations.DecodeIsTotalAndAdditiveOnEvenLengths := by
  unfold Obligations.DecodeIsTotalAndAdditiveOnEvenLengths
  exact ⟨fun encoded => ⟨decode_of_even encoded, decode_of_odd encoded⟩,
    fun _ _ _ _ h1 h2 => decode_append h2 h1, by decide⟩

end Sys2Proof.Reference
end

section
/-! ## 43_codec_laws R215: the size bounds -/

namespace Sys2Proof.Reference

/-! ### The length of an encoded buffer -/

theorem length_encode_segment {c v : Byte} {tail : List Byte} (hpos : 1 ≤ c.toNat)
    (hstop : c.toNat = 255 ∨ tail.head? ≠ some v) :
    (encode (List.replicate c.toNat v ++ tail)).length = (encode tail).length + 2 := by
  rw [encode_segment hpos hstop]
  rfl

theorem length_encode_le (bytes : List Byte) : (encode bytes).length ≤ 2 * bytes.length := by
  induction bytes using segment_induction with
  | nil => exact le_rfl
  | run c v tail hpos hstop ih =>
    rw [length_encode_segment hpos hstop, List.length_append, List.length_replicate]
    omega

theorem le_length_encode (bytes : List Byte) : 2 * ((bytes.length + 254) / 255) ≤ (encode bytes).length := by
  induction bytes using segment_induction with
  | nil => exact le_rfl
  | run c v tail hpos hstop ih =>
    have hc : c.toNat < 256 := c.isLt
    rw [length_encode_segment hpos hstop, List.length_append, List.length_replicate]
    omega

/-- No two adjacent bytes are equal exactly where every segment has one byte. -/
theorem isChain_segment {n : Nat} {v : Byte} {tail : List Byte} (hpos : 1 ≤ n)
    (hstop : n = 255 ∨ tail.head? ≠ some v) :
    (List.replicate n v ++ tail).IsChain (· ≠ ·) ↔ n = 1 ∧ tail.IsChain (· ≠ ·) := by
  match n with
  | 1 =>
    have hhead : tail.head? ≠ some v := hstop.resolve_left (by decide)
    rw [List.replicate_one, List.singleton_append, List.isChain_cons]
    refine ⟨fun h => ⟨rfl, h.2⟩, fun h => ⟨fun b hb heq => hhead (heq ▸ hb), h.2⟩⟩
  | n + 2 => simp [List.replicate_succ]

/-- Every segment of one byte takes two bytes, and every longer one saves some. -/
theorem length_encode_eq_iff (bytes : List Byte) :
    (encode bytes).length = 2 * bytes.length ↔ bytes.IsChain (· ≠ ·) := by
  induction bytes using segment_induction with
  | nil => simp
  | run c v tail hpos hstop ih =>
    have hle := length_encode_le tail
    rw [isChain_segment hpos hstop, ← ih, length_encode_segment hpos hstop, List.length_append,
      List.length_replicate]
    omega

theorem length_runPairs (v : Byte) (full left : Nat) :
    (runPairs v full left).length = 2 * full + if left = 0 then 0 else 2 := by
  simp only [runPairs, List.length_append, List.length_flatten, List.map_replicate, List.sum_replicate]
  split_ifs <;> simp <;> omega

theorem length_encode_replicate (v : Byte) (k : Nat) :
    (encode (List.replicate k v)).length = 2 * ((k + 254) / 255) := by
  rw [encode_replicate, length_runPairs]
  split_ifs <;> omega

/-! ### The length of a decoded buffer -/

theorem countSum_le : ∀ encoded : List Byte, countSum encoded ≤ 255 * (encoded.length / 2)
  | [] => Nat.zero_le _
  | [_] => Nat.zero_le _
  | count :: value :: rest => by
    have hcount : count.toNat < 256 := count.isLt
    have ih := countSum_le rest
    simp only [countSum, List.length_cons]
    omega

end Sys2Proof.Reference

namespace Sys2Proof.Machine

/-- Settles O54: the bounds are the function's, and the encoder's and decoder's runs end in `DONE` where the result fits
(R133, R162). -/
theorem sizeBoundsKeepSizedBuffersFaultFree : Obligations.SizeBoundsKeepSizedBuffersFaultFree := by
  unfold Obligations.SizeBoundsKeepSizedBuffersFaultFree
  refine ⟨fun bytes => ⟨Reference.length_encode_le bytes, Reference.length_encode_eq_iff bytes,
    Reference.le_length_encode bytes⟩, Reference.length_encode_replicate, fun encoded out h => ?_,
    fun s hinv hst hsized => ?_, by decide, fun s hinv hst heven hsized => ?_⟩
  · have hlength := Reference.length_of_decode h
    exact ⟨hlength, hlength.trans_le (Reference.countSum_le encoded)⟩
  · have hlength := Reference.length_encode_le (s.input .enc)
    have hilen : (s.input .enc).length ≤ s.cfg.encInCap := (input_length .enc s).trans_le hinv.enc.ilen_le
    obtain ⟨t, hrun, -, -, -, hdone, -⟩ := (encoderRunComputesEncode s hinv hst).1 (by omega)
    exact ⟨_, t, hrun, hdone⟩
  · have hilen : (s.input .dec).length = s.dec.ilen := input_length .dec s
    have hcap := hinv.dec.ilen_le
    obtain ⟨out, hout⟩ := Reference.decode_of_even (s.input .dec) (hilen ▸ heven)
    have hlength := (Reference.length_of_decode hout).trans_le (Reference.countSum_le _)
    obtain ⟨t, hrun, -, -, -, hdone, -⟩ := (decoderRunComputesDecode s hinv hst).2.1 out hout (by omega)
    exact ⟨_, t, hrun, hdone⟩

end Sys2Proof.Machine
end

section
/-! ## 43_codec_laws R211: the empty buffers -/

namespace Sys2Proof.Machine

section
variable {s : State}

/-- The encoder's two clears before its first loop test (40_encoder R121, R122). -/
theorem runs_enc_clears (hst : s.enc.st = .eLoad) :
    Runs .enc 2 s (s.setEnc
      { s.enc with
        i := 0, count := 0#8, val := 0#8, olen := 0, st := if 0 < s.enc.ilen then .eOuter else .eRet }) :=
  (Runs.one (micro_eLoad hst)).trans (.one (micro_eRinit rfl))

/-- A run of the encoder on the empty input: the two clears, no segment, the return. -/
theorem runs_enc_empty (hst : s.enc.st = .eLoad) (hlen : s.enc.ilen = 0) :
    Runs .enc 3 s (s.setEnc { s.enc with i := 0, count := 0#8, val := 0#8, olen := 0, st := .done }) :=
  (runs_enc_clears hst).trans (.one (micro_eRet (by simp [hlen])))

/-- A run of the decoder on the empty input: the clears, no pair, the return. -/
theorem runs_dec_empty (hst : s.dec.st = .dInit) (hlen : s.dec.ilen = 0) :
    Runs .dec 2 s
      (s.setDec { s.dec with i := 0, count := 0#8, value := 0#8, j := 0#8, olen := 0, st := .done }) := by
  have hinit := Runs.one ((micro_dInit hst).trans (execDInit_of_even (by rw [hlen])))
  exact hinit.trans (.one (micro_dRet (by simp [hlen])))

end

/-- Settles O52: neither function has anything to do, and neither unit enters its loop. -/
theorem emptyInputGivesEmptyResult : Obligations.EmptyInputGivesEmptyResult := by
  unfold Obligations.EmptyInputGivesEmptyResult
  exact ⟨rfl, rfl, fun s hst hlen => ⟨_, runs_enc_empty hst hlen, rfl, rfl⟩,
    fun s hst hlen => ⟨_, runs_dec_empty hst hlen, rfl, rfl⟩⟩

end Sys2Proof.Machine
end

section
/-! ## 43_codec_laws R218: the hardware round trip -/

namespace Sys2Proof.Machine.Script

/-- What a call of the unit `u` that reports the bytes `out` leads to: the machine as around any call, the unit in
`DONE` with the result, and the replies that end in it. -/
structure Returns (origin : State) (u : UnitId) (out : List Byte) (s : State) : Prop where
  scene : Scene origin u s
  done : s.doneFlag u = true
  output : s.output u = out
  replies : ∃ front, s.replies = front ++ .reg 0x902#32 :: .reg (BitVec.ofNat 32 out.length) :: out.map .byte

section
variable {s : State} {u : UnitId} {bytes out : List Byte} {schedule : List Mover}

/-- A call whose script is to report bytes does report them, under a schedule that is long enough (log 4). -/
theorem perform_returns (hinv : Inv s) (hnil : s.agenda = []) (hrest : s.busy u = false)
    (hfit : bytes.length ≤ s.cfg.inCap u) (hout : expected s.cfg u bytes = .returned out)
    (henough : enough s.cfg u bytes.length schedule) :
    ∃ h t, perform schedule (.begin (callUnit u (load u bytes))) s = .next (h, t) ∧
      h.report = some (.returned out) ∧ Returns s u out t := by
  obtain ⟨h, t, hperform, hcall, -⟩ :=
    (Calling.begin hinv hrest (.refl (load u bytes))).perform_asks hfit (by simp [hnil]) schedule
  obtain ⟨h', t', hperform', hreports⟩ := perform_enough hinv hrest hfit (.refl (load u bytes)) hnil henough
  cases hperform.symm.trans hperform'
  obtain ⟨r, hreport⟩ := Option.ne_none_iff_exists'.1 hreports
  obtain rfl : r = .returned out := (hcall.report_expected hreport).trans hout
  refine ⟨h, t, hperform, hreport, ?_⟩
  obtain ⟨-, ⟨heq, hdone⟩ | ⟨heq, -⟩, polls, -, hreplies⟩ := hcall.report_cases hreport
  · cases heq
    exact ⟨hcall.scene, hdone, rfl, _, hreplies⟩
  · cases heq

theorem Scene.agenda_nil {origin : State} (hscene : Scene origin u s) (hnil : origin.agenda = []) : s.agenda = [] :=
  List.eq_nil_iff_forall_not_mem.2 fun turn hturn => List.not_mem_nil (hnil ▸ hscene.agenda turn hturn)

theorem expected_enc {cfg : Params} (hfits : (Reference.encode bytes).length ≤ cfg.encOutCap) :
    expected cfg .enc bytes = .returned (Reference.encode bytes) := if_pos hfits

theorem expected_dec {cfg : Params} (hout : Reference.decode bytes = .ok out) (hfits : out.length ≤ cfg.decOutCap) :
    expected cfg .dec bytes = .returned out := by
  simp only [expected, hout, if_pos hfits]

end

/-- Settles O60: the first call reports the encoded buffer and leaves the decoder at rest; the second one reports what
that decodes to, which is the raw buffer (R210), and leaves the encoder in `DONE`. -/
theorem hardwareRoundTripReturnsTheBuffer : Obligations.HardwareRoundTripReturnsTheBuffer := by
  unfold Obligations.HardwareRoundTripReturnsTheBuffer
  intro s bytes first second hinv hnil henc hdec hin hfits hin' hfits' hfirst hsecond
  obtain ⟨h1, t1, hperform1, hreport1, hreturns1⟩ :=
    perform_returns (u := .enc) hinv hnil henc hin (expected_enc hfits) hfirst
  have hscene1 := hreturns1.scene
  have hdec1 : t1.busy .dec = false := (hscene1.other hdec).busy.trans hdec
  rw [← hscene1.cfg] at hin' hfits' hsecond
  obtain ⟨h2, t2, hperform2, hreport2, hreturns2⟩ :=
    perform_returns (u := .dec) hscene1.inv (hscene1.agenda_nil hnil) hdec1 hin'
      (expected_dec (Reference.decode_encode bytes) hfits') hsecond
  have hsame : SameUnit .enc t1 t2 := hreturns2.scene.other (not_busy_of_done hreturns1.done)
  obtain ⟨front, hreplies⟩ := hreturns2.replies
  have holen : t2.dec.olen = bytes.length := hreturns2.output ▸ (output_length .dec t2).symm
  exact ⟨h1, h2, t1, t2, _, front, hperform1, hreport1, hperform2, hreport2, rfl,
    of_decide_eq_true (hsame.doneFlag.trans hreturns1.done), of_decide_eq_true hreturns2.done,
    hsame.output.trans hreturns1.output, hreturns2.output, holen, hreplies⟩

end Sys2Proof.Machine.Script
end

section
/-! ## 43_codec_laws R220: a unit's run is a function of its input bytes, its length and its output capacity -/

namespace Sys2Proof.Machine

/-! ### The encoder's step as a function (40_encoder R121 to R128) -/

/-- The encoder after its next step, from the bytes of its input, the output capacity and the encoder. -/
def Enc.next (input : List Byte) (cap : Nat) (e : Enc) : Enc :=
  match e.st with
  | .idle | .done | .fault => e
  | .eLoad => { e with i := 0, count := 0#8, val := 0#8, st := .eRinit }
  | .eRinit => { e with olen := 0, st := if e.i < e.ilen then .eOuter else .eRet }
  | .eOuter => { e with val := input.getD e.i 0#8, st := .eCinit }
  | .eCinit => { e with count := 1#8, st := .eCmp }
  | .eCmp =>
    if input[e.i + e.count.toNat]? = some e.val ∧ e.count.toNat < 255 then
      { e with count := e.count + 1#8, st := .eCmp }
    else { e with st := .eEmit }
  | .eEmit => if e.olen + 2 ≤ cap then e.emit else { e with st := .fault, err := .outputOverflow }
  | .eAdv =>
    { e with i := e.i + e.count.toNat, st := if e.i + e.count.toNat < e.ilen then .eOuter else .eRet }
  | .eRet => { e with st := .done }

/-- The result so far after the encoder's next step, from the one before it. -/
def Enc.nextOutput (cap : Nat) (e : Enc) (out : List Byte) : List Byte :=
  match e.st with
  | .eRinit => []
  | .eEmit => if e.olen + 2 ≤ cap then out ++ [e.count, e.val] else out
  | .idle | .done | .fault | .eLoad | .eOuter | .eCinit | .eCmp | .eAdv | .eRet => out

/-- The encoder without the memories of its buffers: its registers. -/
def Enc.registers (e : Enc) : Enc := { e with ibuf := [], obuf := [] }

theorem Enc.registers_inj {e e' : Enc} : e.registers = e'.registers ↔
    e.ilen = e'.ilen ∧ e.olen = e'.olen ∧ e.i = e'.i ∧ e.count = e'.count ∧ e.val = e'.val ∧ e.st = e'.st ∧
      e.err = e'.err := by
  simp [Enc.registers]

/-- The decoder after its next step, from the bytes of its input, the output capacity and the decoder (41_decoder R151
to R157). -/
def Dec.next (input : List Byte) (cap : Nat) (d : Dec) : Dec :=
  match d.st with
  | .idle | .done | .fault => d
  | .dInit =>
    if d.ilen % 2 = 1 then
      { d with i := 0, count := 0#8, value := 0#8, j := 0#8, olen := 0, st := .fault, err := .decodeError }
    else
      { d with
        i := 0, count := 0#8, value := 0#8, j := 0#8, olen := 0
        st := if 0 < d.ilen then .dRdcnt else .dRet }
  | .dRdcnt => { d with count := input.getD d.i 0#8, st := .dRdval }
  | .dRdval => { d with value := input.getD (d.i + 1) 0#8, j := 0#8, st := .dLoop }
  | .dLoop => { d with st := if d.j.toNat < d.count.toNat then .dAppend else .dNext }
  | .dAppend => if d.olen + 1 ≤ cap then d.copies 1 else d.raise .outputOverflow
  | .dNext => d.advance
  | .dRet => { d with st := .done }

/-- The result so far after the decoder's next step, from the one before it. -/
def Dec.nextOutput (cap : Nat) (d : Dec) (out : List Byte) : List Byte :=
  match d.st with
  | .dInit => []
  | .dAppend => if d.olen + 1 ≤ cap then out ++ [d.value] else out
  | .idle | .done | .fault | .dRdcnt | .dRdval | .dLoop | .dNext | .dRet => out

/-- The decoder without the memories of its buffers: its registers. -/
def Dec.registers (d : Dec) : Dec := { d with ibuf := [], obuf := [] }

theorem Dec.registers_inj {d d' : Dec} : d.registers = d'.registers ↔
    d.ilen = d'.ilen ∧ d.olen = d'.olen ∧ d.i = d'.i ∧ d.count = d'.count ∧ d.value = d'.value ∧ d.j = d'.j ∧
      d.st = d'.st ∧ d.err = d'.err := by
  simp [Dec.registers]

section
variable {s : State}

/-! ### What the functions have to do with the step -/

theorem input_getElem? (u : UnitId) (s : State) (k : Nat) :
    (s.input u)[k]? = if k < s.ilen u then some (s.byteAt (.input u) k) else none := bytes_getElem? ..

theorem input_getD {u : UnitId} {k : Nat} (hk : k < s.ilen u) :
    (s.input u).getD k 0#8 = s.byteAt (.input u) k := by
  rw [List.getD_eq_getElem?_getD, input_getElem?, if_pos hk, Option.getD_some]

theorem segmentGoesOn_iff : s.segmentGoesOn ↔
    (s.input .enc)[s.enc.i + s.enc.count.toNat]? = some s.enc.val ∧ s.enc.count.toNat < 255 := by
  rw [input_getElem?, Option.ite_none_right_eq_some, Option.some_inj, and_assoc]
  rfl

/-- The encoder's step is the function. -/
theorem micro_enc_eq_next (h : Inv s) :
    takeTurn (.micro .enc) s = .next (s.setEnc (s.enc.next (s.input .enc) s.cfg.encOutCap)) := by
  have resting (hb : s.busy .enc = false) : takeTurn (.micro .enc) s = .next (s.setEnc s.enc) := micro_resting hb
  cases hst : s.enc.st with
  | idle | done | fault =>
    rw [Enc.next, hst]
    exact resting (by simp [State.busy, hst, EncSt.active])
  | eLoad => rw [Enc.next, hst]; exact micro_eLoad hst
  | eRinit => rw [Enc.next, hst]; exact micro_eRinit hst
  | eOuter =>
    have hi : s.enc.i < s.enc.ilen := h.enc.segment (by rw [hst]; rfl)
    rw [Enc.next, hst, micro_eOuter hst, execEOuter_of_inside (hi.trans_le h.enc.ilen_le)]
    simp only [input_getD (u := .enc) hi]
    rfl
  | eCinit => rw [Enc.next, hst]; exact micro_eCinit hst
  | eCmp =>
    rw [Enc.next, hst, micro_eCmp hst]
    simp only
    split_ifs with hgoes
    · exact execECmp_of_goesOn h.enc.ilen_le (segmentGoesOn_iff.2 hgoes)
    · exact execECmp_of_stops h.enc.ilen_le (mt segmentGoesOn_iff.1 hgoes)
  | eEmit =>
    rw [Enc.next, hst, micro_eEmit hst]
    simp only
    split_ifs with hfits
    · exact execEEmit_of_fits hfits
    · exact execEEmit_of_overflow (not_le.1 hfits)
  | eAdv => rw [Enc.next, hst]; exact micro_eAdv hst
  | eRet => rw [Enc.next, hst]; exact micro_eRet hst

/-- The decoder's step is the function. -/
theorem micro_dec_eq_next (h : Inv s) :
    takeTurn (.micro .dec) s = .next (s.setDec (s.dec.next (s.input .dec) s.cfg.decOutCap)) := by
  have resting (hb : s.busy .dec = false) : takeTurn (.micro .dec) s = .next (s.setDec s.dec) := micro_resting hb
  cases hst : s.dec.st with
  | idle | done | fault =>
    rw [Dec.next, hst]
    exact resting (by simp [State.busy, hst, DecSt.active])
  | dInit =>
    rw [Dec.next, hst, micro_dInit hst]
    by_cases hodd : s.dec.ilen % 2 = 1
    · simp only [if_pos hodd]
      exact execDInit_of_odd hodd
    · simp only [if_neg hodd]
      exact execDInit_of_even (s := s) (by omega)
  | dRdcnt =>
    obtain ⟨-, hi⟩ := h.dec.pair (by rw [hst]; rfl)
    have hi' : s.dec.i < s.dec.ilen := Nat.lt_of_succ_lt hi
    rw [Dec.next, hst, micro_dRdcnt hst, execDRdcnt_of_inside (hi'.trans_le h.dec.ilen_le)]
    simp only [input_getD (u := .dec) hi']
    rfl
  | dRdval =>
    obtain ⟨-, hi⟩ := h.dec.pair (by rw [hst]; rfl)
    rw [Dec.next, hst, micro_dRdval hst, execDRdval_of_inside (hi.trans_le h.dec.ilen_le)]
    simp only [input_getD (u := .dec) hi]
    rfl
  | dLoop => rw [Dec.next, hst]; exact micro_dLoop hst
  | dAppend =>
    rw [Dec.next, hst, micro_dAppend hst]
    simp only
    split_ifs with hfits
    · exact execDAppend_of_fits hfits
    · exact execDAppend_of_overflow (not_le.1 hfits)
  | dNext => rw [Dec.next, hst]; exact micro_dNext hst
  | dRet => rw [Dec.next, hst]; exact micro_dRet hst

/-! ### The function sees the registers alone -/

section
variable (input : List Byte) (cap : Nat)

theorem Enc.registers_next (e : Enc) : (e.next input cap).registers = (e.registers.next input cap).registers := by
  have hst : e.registers.st = e.st := rfl
  simp only [Enc.next, hst]
  cases e.st with
  | eCmp | eEmit => simp only [apply_ite Enc.registers]; rfl
  | _ => rfl

theorem Dec.registers_next (d : Dec) : (d.next input cap).registers = (d.registers.next input cap).registers := by
  have hst : d.registers.st = d.st := rfl
  simp only [Dec.next, hst]
  cases d.st with
  | dInit | dAppend => simp only [apply_ite Dec.registers]; rfl
  | _ => rfl

theorem Enc.nextOutput_registers (e : Enc) (out : List Byte) :
    e.registers.nextOutput cap out = e.nextOutput cap out := rfl

theorem Dec.nextOutput_registers (d : Dec) (out : List Byte) :
    d.registers.nextOutput cap out = d.nextOutput cap out := rfl

theorem input_enc_next : (s.setEnc (s.enc.next input cap)).input .enc = s.input .enc := by
  simp only [Enc.next]
  cases s.enc.st with
  | eCmp | eEmit => simp only; split_ifs <;> rfl
  | _ => rfl

theorem input_dec_next : (s.setDec (s.dec.next input cap)).input .dec = s.input .dec := by
  simp only [Dec.next]
  cases s.dec.st with
  | dInit | dAppend => simp only; split_ifs <;> rfl
  | _ => rfl

theorem output_enc_next :
    (s.setEnc (s.enc.next input cap)).output .enc = s.enc.nextOutput cap (s.output .enc) := by
  simp only [Enc.next, Enc.nextOutput]
  cases s.enc.st with
  | eCmp => simp only; split_ifs <;> rfl
  | eEmit =>
    simp only
    split_ifs
    · exact output_emit _ _ rfl rfl rfl
    · rfl
  | _ => rfl

theorem output_dec_next :
    (s.setDec (s.dec.next input cap)).output .dec = s.dec.nextOutput cap (s.output .dec) := by
  simp only [Dec.next, Dec.nextOutput]
  cases s.dec.st with
  | dInit => simp only; split_ifs <;> rfl
  | dAppend =>
    simp only
    split_ifs
    · exact output_appendRun 1 _ rfl rfl rfl
    · rfl
  | _ => rfl

end

end

/-! ### Two units that agree on what a run depends on -/

/-- The units `u` of two states agree on their registers, the bytes of their input, the result so far and the output
capacity. -/
structure Alike (u : UnitId) (s s' : State) : Prop where
  input : s.input u = s'.input u
  output : s.output u = s'.output u
  cap : s.cfg.outCap u = s'.cfg.outCap u
  enc : u = .enc → s.enc.registers = s'.enc.registers
  dec : u = .dec → s.dec.registers = s'.dec.registers

section
variable {u : UnitId} {s s' : State}

/-- A step of both units keeps them alike. -/
theorem Alike.micro (h : Alike u s s') (hinv : Inv s) (hinv' : Inv s') :
    ∃ t t', takeTurn (.micro u) s = .next t ∧ takeTurn (.micro u) s' = .next t' ∧ Alike u t t' := by
  have hinput := h.input
  have houtput := h.output
  cases u with
  | enc =>
    have hcap : s.cfg.encOutCap = s'.cfg.encOutCap := h.cap
    have hregs := h.enc rfl
    refine ⟨_, _, micro_enc_eq_next hinv, micro_enc_eq_next hinv', ?_, ?_, hcap, fun _ => ?_, nofun⟩
    · rw [input_enc_next, input_enc_next, hinput]
    · rw [output_enc_next, output_enc_next, houtput, hcap, ← Enc.nextOutput_registers, hregs,
        Enc.nextOutput_registers]
    · rw [setEnc_enc, setEnc_enc, Enc.registers_next, hregs, hinput, hcap, ← Enc.registers_next]
  | dec =>
    have hcap : s.cfg.decOutCap = s'.cfg.decOutCap := h.cap
    have hregs := h.dec rfl
    refine ⟨_, _, micro_dec_eq_next hinv, micro_dec_eq_next hinv', ?_, ?_, hcap, nofun, fun _ => ?_⟩
    · rw [input_dec_next, input_dec_next, hinput]
    · rw [output_dec_next, output_dec_next, houtput, hcap, ← Dec.nextOutput_registers, hregs,
        Dec.nextOutput_registers]
    · rw [setDec_dec, setDec_dec, Dec.registers_next, hregs, hinput, hcap, ← Dec.registers_next]

theorem Alike.runs (h : Alike u s s') (hinv : Inv s) (hinv' : Inv s') (n : Nat) :
    ∃ t t', Runs u n s t ∧ Runs u n s' t' ∧ Alike u t t' := by
  induction n generalizing s s' with
  | zero => exact ⟨s, s', .refl u s, .refl u s', h⟩
  | succ n ih =>
    obtain ⟨t, t', ht, ht', halike⟩ := h.micro hinv hinv'
    obtain ⟨c, c', hc, hc', hend⟩ := ih halike (Script.inv_of_takeTurn hinv ht) (Script.inv_of_takeTurn hinv' ht')
    exact ⟨c, c', .head ht hc, .head ht' hc', hend⟩

/-! ### From the clears on -/

/-- The encoder's clears leave nothing of what was before the run (40_encoder R121, R122). -/
theorem alike_enc_start (hinv : Inv s) (hinv' : Inv s') (hst : s.enc.st = .eLoad) (hst' : s'.enc.st = .eLoad)
    (hinput : s.input .enc = s'.input .enc) (hlen : s.enc.ilen = s'.enc.ilen)
    (hcap : s.cfg.encOutCap = s'.cfg.encOutCap) :
    ∃ t t', Runs .enc 2 s t ∧ Runs .enc 2 s' t' ∧ Alike .enc t t' := by
  have herr : s.enc.err = .none := hinv.enc.err_none (by simp [hst])
  have herr' : s'.enc.err = .none := hinv'.enc.err_none (by simp [hst'])
  exact ⟨_, _, runs_enc_clears hst, runs_enc_clears hst', hinput, rfl, hcap,
    fun _ => by simp [Enc.registers, hlen, herr, herr'], nofun⟩

/-- The decoder's clears leave nothing of what was before the run (41_decoder R151). -/
theorem alike_dec_start (hinv : Inv s) (hinv' : Inv s') (hst : s.dec.st = .dInit) (hst' : s'.dec.st = .dInit)
    (hinput : s.input .dec = s'.input .dec) (hlen : s.dec.ilen = s'.dec.ilen)
    (hcap : s.cfg.decOutCap = s'.cfg.decOutCap) :
    ∃ t t', Runs .dec 1 s t ∧ Runs .dec 1 s' t' ∧ Alike .dec t t' := by
  have herr : s.dec.err = .none := hinv.dec.err_none (by simp [hst])
  have herr' : s'.dec.err = .none := hinv'.dec.err_none (by simp [hst'])
  have hnext := Runs.one (micro_dec_eq_next hinv)
  have hnext' := Runs.one (micro_dec_eq_next hinv')
  refine ⟨_, _, hnext, hnext', ?_, ?_, hcap, nofun, fun _ => ?_⟩
  · rw [input_dec_next, input_dec_next, hinput]
  · rw [output_dec_next, output_dec_next, Dec.nextOutput, Dec.nextOutput, hst, hst']
  · simp only [setDec_dec, Dec.next, hst, hst', hlen, Dec.registers]
    split_ifs <;> simp [herr, herr']

end

/-- Settles O55: after the clears the two units are alike, and the step is a function of what alike units agree on. -/
theorem unitRunIsPureFunctionOfItsInput : Obligations.UnitRunIsPureFunctionOfItsInput := by
  unfold Obligations.UnitRunIsPureFunctionOfItsInput
  constructor
  · intro s s' n hinv hinv' hst hst' hinput hlen hcap hn
    obtain ⟨m, rfl⟩ := Nat.exists_eq_add_of_le hn
    obtain ⟨c, c', hc, hc', hstart⟩ := alike_enc_start hinv hinv' hst hst' hinput hlen hcap
    obtain ⟨t, t', ht, ht', halike⟩ := hstart.runs (hc.inv hinv) (hc'.inv hinv') m
    obtain ⟨-, holen, hi, hcount, hval, hst, herr⟩ := Enc.registers_inj.1 (halike.enc rfl)
    exact ⟨t, t', hc.trans ht, hc'.trans ht', hst, herr, holen, halike.output, hi, hcount, hval⟩
  · intro s s' n hinv hinv' hst hst' hinput hlen hcap hn
    obtain ⟨m, rfl⟩ := Nat.exists_eq_add_of_le hn
    obtain ⟨c, c', hc, hc', hstart⟩ := alike_dec_start hinv hinv' hst hst' hinput hlen hcap
    obtain ⟨t, t', ht, ht', halike⟩ := hstart.runs (hc.inv hinv) (hc'.inv hinv') m
    obtain ⟨-, holen, hi, hcount, hvalue, hj, hst, herr⟩ := Dec.registers_inj.1 (halike.dec rfl)
    exact ⟨t, t', hc.trans ht, hc'.trans ht', hst, herr, holen, halike.output, hi, hcount, hvalue, hj⟩

end Sys2Proof.Machine
end

section
/-! ## 70_reset_and_hazards R293: with nothing on the agenda both units come to rest -/

namespace Sys2Proof.Machine

section
variable {s : State}

/-- The machine takes at most two steps for each one of the unit's own bound (40_encoder R134, 41_decoder R163). -/
theorem turnsLeft_le_stepBound (u : UnitId) (s : State) : s.turnsLeft u ≤ 2 * Script.stepBound u (s.ilen u) :=
  (Nat.sub_le ..).trans (Nat.mul_le_mul_left 2 (stepsLeft_le_stepBound u s))

/-- With nothing on the agenda a step answers a state in which nothing is on it either. -/
theorem exists_step_of_nil (hinv : Inv s) (hnil : s.agenda = []) :
    ∃ t, step s = .next t ∧ Inv t ∧ t.agenda = [] := by
  obtain ⟨t, -, hinvt, hstep⟩ := step_eq_next_turn hinv
  refine ⟨_, hstep, hinvt.congr rfl rfl rfl rfl, ?_⟩
  rw [withOrder_agenda, popTurn_nil s hnil, hnil]

/-- With nothing on the agenda the unit comes to rest: each step, its own or the other unit's, lowers the bound. -/
theorem exists_steps_to_rest (u : UnitId) {k : Nat} (hinv : Inv s) (hnil : s.agenda = []) (hk : s.turnsLeft u ≤ k) :
    ∃ n t, n ≤ k ∧ steps n s = .next t ∧ t.busy u = false := by
  induction k generalizing s with
  | zero => exact ⟨0, s, le_rfl, rfl, not_busy_of_turnsLeft hinv (Nat.le_zero.1 hk)⟩
  | succ k ih =>
    obtain ⟨s', hstep, hinv', hnil'⟩ := exists_step_of_nil hinv hnil
    have hfewer := turnsLeft_step (u := u) hinv hnil hstep
    obtain ⟨n, t, hn, hsteps, hrest⟩ := ih hinv' hnil' (by omega)
    refine ⟨n + 1, t, Nat.succ_le_succ hn, ?_, hrest⟩
    rw [steps_succ, hstep]
    exact hsteps

end

/-- Settles O58: the bound on the machine's own steps until a unit rests, which each of them lowers, is at most twice the
unit's own bound. -/
theorem busyUnitsComeToRest : Obligations.BusyUnitsComeToRest := by
  unfold Obligations.BusyUnitsComeToRest
  intro s hinv hnil
  exact ⟨fun _ => exists_steps_to_rest .enc hinv hnil (turnsLeft_le_stepBound .enc s),
    fun _ => exists_steps_to_rest .dec hinv hnil (turnsLeft_le_stepBound .dec s)⟩

end Sys2Proof.Machine
end

section
/-! ## 70_reset_and_hazards R280 to R282: reset, and the rest after it -/

namespace Sys2Proof.Machine

section
variable {s : State}

/-- What is read of a unit whose registers have the values of 10_state R45. -/
theorem registers_of_reset_units (hcfg : s.cfg.wf = true) (he : s.enc = Enc.reset) (hd : s.dec = Dec.reset)
    (u : UnitId) :
    s.idleFlag u = true ∧ s.status u = 0#32 ∧ s.errCode u = 0#4 ∧ s.event u = false ∧ s.ilen u = 0 ∧ s.olen u = 0 ∧
      s.index u = 0 ∧ s.countReg u = 0#8 ∧ s.valReg u = 0#8 ∧ s.jReg u = 0#8 := by
  have hidle : s.idleFlag u = true := by cases u <;> simp [State.idleFlag, he, hd, Enc.reset, Dec.reset]
  refine ⟨hidle, status_of_idle (.of_reset_units hcfg he hd) hidle, ?_⟩
  obtain ⟨cfg, enc, dec, agenda, nextUnit, replies, resets, draws⟩ := s
  cases he
  cases hd
  cases u <;> exact ⟨rfl, rfl, rfl, rfl, rfl, rfl, rfl, rfl⟩

/-- After a reset no byte of any buffer is written (20_memory R71, log 6). -/
@[simp] theorem resetBlock_byteAt (s : State) (b : BufferId) (k : Nat) :
    s.resetBlock.byteAt b k = Config.unwrittenByte (s.resets + 1) b k := by
  cases b <;> rfl

/-- Where both units rest, their own turns change nothing (40_encoder R129, 41_decoder R158). -/
theorem takeTurn_of_resting {turn : Turn} (hturn : IsUnitTurn turn) (henc : s.busy .enc = false)
    (hdec : s.busy .dec = false) : takeTurn turn s = .next s := by
  rcases hturn with rfl | rfl | rfl
  · exact micro_resting henc
  · exact micro_resting hdec
  · exact takePair_of_ne fun hst => by simp [State.busy, hst, DecSt.active] at hdec

end

/-- Settles O1: the values after reset are those of R45; a step of two resting units takes a turn off the order and does
nothing else. -/
theorem resetRestsIdleWithZeroRegisters : Obligations.ResetRestsIdleWithZeroRegisters := by
  unfold Obligations.ResetRestsIdleWithZeroRegisters
  constructor
  · intro u
    obtain ⟨hidle, hregisters⟩ := registers_of_reset_units (s := State.reset) (by decide) rfl rfl u
    have hrest : State.reset.busy u = false := by cases u <;> rfl
    exact ⟨hidle, hrest, hregisters⟩
  · intro s hcfg henc hdec hturn
    refine ⟨s.withOrder s.popTurn.agenda s.popTurn.nextUnit, ?_, rfl, rfl⟩
    rw [step_eq hcfg, popTurn_eq_withOrder, takeTurn_withOrder, takeTurn_of_resting hturn henc hdec, mapNext_next]
    rfl

/-- Settles O2: the reset turn is `resetBlock`, which leaves the order after it, the configuration and the replies. -/
theorem resetTurnClearsBothUnits : Obligations.ResetTurnClearsBothUnits := by
  unfold Obligations.ResetTurnClearsBothUnits
  intro s ts hcfg hagenda
  exact ⟨_, step_of_agenda hcfg hagenda, rfl, rfl, rfl, registers_of_reset_units hcfg rfl rfl, resetBlock_byteAt _⟩

end Sys2Proof.Machine
end
